-- ==== Sys2Proof/Word.lean ====
section
/-! DEFINITION. The word types of VTFIR: what the spec treats as bits. -/

namespace Sys2Proof

/-- One byte of the sample memory (20_memory.md R60). -/
abbrev Byte := BitVec 8

/-- One sample in its container: exactly 16 bits, unsigned, for every bit depth (20_memory.md R61). -/
abbrev Sample := BitVec 16

/-- One filter coefficient: 16 bits, two's complement (10_state.md R22). -/
abbrev Coeff := BitVec 16

/-- A register word, and a byte address of the sample memory (10_state.md R23, 20_memory.md R60). -/
abbrev Word := BitVec 32

/-- An accumulator: 40 bits, two's complement (10_state.md R48). -/
abbrev Acc := BitVec 40

end Sys2Proof
end

