-- ==== Sys2Proof/Syntax.lean ====
section
/-! DEFINITION. The commands of VTFIR command set 1.0 as syntax: one constructor per row of spec/opcode_table.json. -/

namespace Sys2Proof

/-- A command word's contents (30_encoding.md R91, R96): the constructor is the opcode `CMD[2:0]`, the fields are the
bit depth `BD`, `FILTER_BITS` (`FBITS`) and `round_0` (`ROUND0`). The other operands of a command are the descriptor
and tap registers (R95). A vertical command keeps `ROUND0` although it ignores it (R99), so that no bit is dropped. -/
inductive Instr where
  | vfilt6 (bd fbits round0 : Nat)
  | vfilt8 (bd fbits round0 : Nat)
  | vfilt12 (bd fbits round0 : Nat)
  | hfilt6 (bd fbits round0 : Nat)
  | hfilt8 (bd fbits round0 : Nat)
  | hfilt12 (bd fbits round0 : Nat)
  deriving DecidableEq, Repr

/-- The direction of a command, field `DIR` (30_encoding.md R92). -/
inductive Dir where
  | vertical
  | horizontal
  deriving DecidableEq, Repr

/-- The legal kernel lengths (00_scope.md R9). -/
inductive TapCount where
  | six
  | eight
  | twelve
  deriving DecidableEq, Repr

/-- The fields of a decoded command, the six commands being instances of one vertical and one horizontal rule
parameterised by the tap count (40_dispatch.md R123). -/
structure Command where
  dir : Dir
  tapCount : TapCount
  bd : Nat
  fbits : Nat
  round0 : Nat
  deriving DecidableEq, Repr

end Sys2Proof
end

