-- ==== Sys2Proof/WellFormed.lean ====
section
/-! DEFINITION. Which terms of `Instr` a command word can hold: every field fits its bits (30_encoding.md R91).
Legality of a value is no part of this; the dispatch step checks it (R97, 40_dispatch.md R122). -/

namespace Sys2Proof

/-- `BD` is 5 bits, `FBITS` 4 bits, `ROUND0` 4 bits (30_encoding.md R91). -/
def fieldsFit (bd fbits round0 : Nat) : Bool :=
  bd < 32 && fbits < 16 && round0 < 16

/-- The term is the decoding of some command word. -/
def Instr.wellFormed : Instr → Bool
  | .vfilt6 bd fbits round0 => fieldsFit bd fbits round0
  | .vfilt8 bd fbits round0 => fieldsFit bd fbits round0
  | .vfilt12 bd fbits round0 => fieldsFit bd fbits round0
  | .hfilt6 bd fbits round0 => fieldsFit bd fbits round0
  | .hfilt8 bd fbits round0 => fieldsFit bd fbits round0
  | .hfilt12 bd fbits round0 => fieldsFit bd fbits round0

end Sys2Proof
end

