-- ==== Sys2Proof/Decode.lean ====
section
/-! DEFINITION. Reading a command word and writing one (30_encoding.md R91, R96, R97, R101). -/

namespace Sys2Proof

/-- Why a word is no command. -/
inductive DecodeError where
  /-- `TAPS` = 0b11: opcodes 0b011 and 0b111 are reserved (30_encoding.md R98). -/
  | reservedOpcode (opcode : Nat)
  deriving DecidableEq, Repr

/-- The opcode `CMD[2:0]` = `{DIR, TAPS}` (30_encoding.md R96). -/
def opcodeField (w : Word) : Nat := (w.extractLsb' 0 3).toNat

/-- Field `BD`, bits 7:3. -/
def bdField (w : Word) : Nat := (w.extractLsb' 3 5).toNat

/-- Field `FBITS`, bits 11:8. -/
def fbitsField (w : Word) : Nat := (w.extractLsb' 8 4).toNat

/-- Field `ROUND0`, bits 15:12. -/
def round0Field (w : Word) : Nat := (w.extractLsb' 12 4).toNat

/-- The decoder of command words: total, bits 31:16 never examined, a reserved opcode refused by name; the legality
of the fields is no part of decoding (30_encoding.md R97). -/
def decode (w : Word) : Except DecodeError Instr :=
  match opcodeField w with
  | 0 => .ok (.vfilt6 (bdField w) (fbitsField w) (round0Field w))
  | 1 => .ok (.vfilt8 (bdField w) (fbitsField w) (round0Field w))
  | 2 => .ok (.vfilt12 (bdField w) (fbitsField w) (round0Field w))
  | 4 => .ok (.hfilt6 (bdField w) (fbitsField w) (round0Field w))
  | 5 => .ok (.hfilt8 (bdField w) (fbitsField w) (round0Field w))
  | 6 => .ok (.hfilt12 (bdField w) (fbitsField w) (round0Field w))
  | n => .error (.reservedOpcode n)

/-- `cmdword = TAPS + 4*DIR + 8*bd + 256*fbits + 4096*round0` (30_encoding.md R101), `opcode = TAPS + 4*DIR`. -/
def commandWord (opcode bd fbits round0 : Nat) : Word :=
  BitVec.ofNat 32 (opcode + 8 * bd + 256 * fbits + 4096 * round0)

/-- The command word of an instruction (30_encoding.md R96, R101). -/
def encode : Instr → Word
  | .vfilt6 bd fbits round0 => commandWord 0 bd fbits round0
  | .vfilt8 bd fbits round0 => commandWord 1 bd fbits round0
  | .vfilt12 bd fbits round0 => commandWord 2 bd fbits round0
  | .hfilt6 bd fbits round0 => commandWord 4 bd fbits round0
  | .hfilt8 bd fbits round0 => commandWord 5 bd fbits round0
  | .hfilt12 bd fbits round0 => commandWord 6 bd fbits round0

/-- The command word whose low `nbits` bits are those of `w`, every higher bit 0. -/
def tableWord (nbits w : Nat) : Word := BitVec.ofNat 32 (w % 2 ^ nbits)

/-- What the decoder reads from a row of the opcode table. A command is one 32-bit word (30_encoding.md R90). -/
def decodeTableWord (nbits w : Nat) : Option Instr :=
  match decode (tableWord nbits w) with
  | .ok i => some i
  | .error _ => none

end Sys2Proof
end

