-- ==== Sys2Proof/Config.lean ====
section
/-! DEFINITION. The free values: what the spec leaves open after which the machine goes on. None has a body, so a
claim about them holds whatever they are. Each is indexed by the number of the command (how many STARTs were accepted). -/

namespace Sys2Proof

/-- One order of the accesses that the engine and the host make while a command runs, as ticks: any order in which each
output's `MemWrite` follows the `MemRead`s of its support, and in which the host's accesses keep their own order, is one
of these (20_memory.md R77, R79, U12). -/
structure AccessOrder where
  /-- The tick of the `MemRead` of window coordinate `(i, j)`. -/
  readTick : Nat → Nat → Nat
  /-- How many ticks later than it must the `MemWrite` of output `(r, c)` comes. -/
  writeDelay : Nat → Nat → Nat
  /-- How many ticks lie between the host's `k`-th access to a footprint of the command and the one before. -/
  hostGap : Nat → Nat
  deriving Inhabited

/-- The order of the accesses of command `launch`: not a promise (20_memory.md R77), and only a broken obligation of the
host can show it (R79, U3, U4). Free, DESIGN CHOICE, log 6. -/
opaque Config.accessOrder (launch : Nat) : AccessOrder

/-- Whether output `(r, c)` of command `launch` is in memory when the command stops on a bus error or is cut by
reset (60_exceptions.md R217, 70_reset_and_hazards.md R241, U11). Free, DESIGN CHOICE, log 7. -/
opaque Config.writtenAtStop (launch r c : Nat) : Bool

end Sys2Proof
end

