-- ==== Sys2Proof/Machine/State.lean ====
section
/-! DEFINITION. The state of one VTFIR instance as plain data, the reasons a step can stop, and the reset state
(10_state.md R20 to R53). -/

namespace Sys2Proof.Machine

open Sys2Proof

/-- The sliding-window cache `WIN[0..18]`: 19 entries of 8 lanes, each a sample or the mark invalid (`none`)
(10_state.md R40). -/
abbrev Window := Vector (Vector (Option Sample) 8) 19

/-- The engine's run state (10_state.md R49): idle, `DISPATCH`, and `RUN` split into the point of the pass it is at:
about to prime a strip, about to do a tile step, about to do the completion step (log 4). -/
inductive Phase where
  | idle
  | dispatch
  | prime
  | tile
  | complete
  deriving DecidableEq, Repr

/-- The error causes of 60_exceptions.md R210. -/
inductive ErrCause where
  | opcode
  | bd
  | shift
  | width
  | pitch
  | align
  | bus
  deriving DecidableEq, Repr

/-- One act of the host (10_state.md R20, R21). -/
inductive HostOp where
  /-- `RegRead(off)`. -/
  | regRead (off : Nat)
  /-- `RegWrite(off, v)`. -/
  | regWrite (off : Nat) (v : Word)
  /-- The host reads a byte of the sample memory by its own means. -/
  | memRead (a : Word)
  /-- The host writes a byte of the sample memory by its own means. -/
  | memWrite (a : Word) (b : Byte)
  /-- The host reads the sample at byte address `2*i` by its own means, in one atomic access (20_memory.md R68). -/
  | sampleRead (i : BitVec 31)
  /-- The host writes the sample at byte address `2*i` by its own means, in one atomic access (20_memory.md R68). -/
  | sampleWrite (i : BitVec 31) (v : Sample)
  /-- The `RESET` input is asserted. -/
  | assertReset
  /-- The `RESET` input is released. -/
  | releaseReset
  deriving DecidableEq, Repr

/-- One access of the host to a footprint of a running command, against the obligations of 20_memory.md R79. -/
inductive HostAccess where
  /-- It read the destination. -/
  | look
  /-- It wrote a byte. -/
  | byte (a : Word) (b : Byte)
  /-- It wrote a sample in one atomic access (20_memory.md R68). -/
  | sample (a : Word) (v : Sample)
  deriving DecidableEq, Repr

/-- What happens next, as plain data (log 2). -/
inductive Event where
  /-- The engine makes one engine step; idle, it does nothing. -/
  | engine
  /-- `WAIT` (30_encoding.md R102): the host polls `STATUS` until `BUSY` = 0; the engine moves meanwhile. -/
  | wait
  /-- The host acts. -/
  | host (op : HostOp)
  deriving DecidableEq, Repr

/-- The whole state of one VTFIR instance, the sample memory it is attached to, and what surrounds it. -/
structure State where
  /-- `CTRL.IE` (10_state.md R28). -/
  ie : Bool
  /-- The engine's phase; `STATUS.BUSY` is 1 exactly while it is not `idle` (10_state.md R29, R49). -/
  phase : Phase
  /-- `STATUS.DONE` (10_state.md R29). -/
  done : Bool
  /-- `STATUS.ERR` (10_state.md R29). -/
  err : Bool
  /-- `STATUS.ECODE` (10_state.md R29). -/
  ecode : BitVec 4
  /-- `CMD`, its 16 existing bits (10_state.md R30). -/
  cmd : BitVec 16
  /-- `SRC` (10_state.md R31). -/
  src : Word
  /-- `SPITCH` (10_state.md R32). -/
  spitch : Word
  /-- `DST` (10_state.md R33). -/
  dst : Word
  /-- `DPITCH` (10_state.md R34). -/
  dpitch : Word
  /-- `SIZE`: `WIDTH` in bits 15:0, `HEIGHT` in bits 31:16 (10_state.md R35). -/
  size : Word
  /-- `TAP0` to `TAP11` (10_state.md R22, R36). -/
  taps : Vector Coeff 12
  /-- The sliding-window cache (10_state.md R40). -/
  win : Window
  /-- The tile cursor's column (10_state.md R47). -/
  cx : BitVec 16
  /-- The tile cursor's row (10_state.md R47). -/
  cy : BitVec 16
  /-- The accumulators, one per lane; `none` while one holds no value (10_state.md R48). -/
  acc : Vector (Option Acc) 8
  /-- The sample memory, 2^32 bytes (20_memory.md R60), in the canonical form of `Memory.wf`. -/
  mem : List Host.Cell
  /-- The `RESET` input (10_state.md R21). -/
  resetLine : Bool
  /-- The platform: address ranges `[lo, hi)` whose accesses complete with a bus error (60_exceptions.md R216, log 11). -/
  unmapped : List (Nat × Nat)
  /-- The platform: address ranges `[lo, hi)` of the sample memory's addresses that are no ordinary memory, an access to
  them having side effects: device registers (20_memory.md R73, log 13). -/
  devices : List (Nat × Nat)
  /-- The model's own: the sample memory at the last accepted `START`, the `M` of 40_dispatch.md R136 (log 17). -/
  launchMem : List Host.Cell
  /-- The model's own: how many `START`s were accepted, the index of the free values (log 17). -/
  launches : Nat
  /-- The model's own: what the host's last read returned (log 17). -/
  rdata : Word
  /-- The model's own: the host's accesses to the footprints of the last command while it ran, oldest first: the race of
  20_memory.md R79 (log 9, log 17). -/
  raced : List HostAccess
  /-- The model's own: the events still to happen, oldest first (log 2). -/
  inbox : List Event
  deriving DecidableEq, Repr

/-- Why the machine stops with a fault. -/
inductive Fault where
  /-- A tile step reads a lane marked invalid. Raised by `gatherSamples`' callers; no run from reset reaches it,
  and no rule gives such a read a value. Safe (log 16). -/
  | invalidLane
  deriving DecidableEq, Repr

/-- Why the model gives a step no meaning. -/
inductive Refusal where
  /-- An instruction without a meaning yet. Raised by no arm of `exec` of this model. Safe. -/
  | notModelled (mnemonic : String)
  /-- A register-port access at an offset that is no multiple of 4 or lies outside 0x00 to 0xFC: not defined by the
  spec (10_state.md R21, U9 `refuse`). Raised by the host's acts. Safe (log 10). -/
  | undefinedPortAccess (off : Nat)
  /-- A legal command one of whose footprints lies in memory with access side effects: the spec says nothing about the
  result and asks a model to refuse the launch (20_memory.md R73, U10 `refuse`). Raised by the dispatch step. Safe
  (log 13). -/
  | deviceLaunch
  /-- The host's own access to an address with access side effects: a device of the platform, of which the spec says
  nothing (20_memory.md R73, R75). Raised by the host's acts. Safe (log 13). -/
  | deviceAccess (a : Word)
  deriving DecidableEq, Repr

/-- Every window entry invalid (10_state.md R43, R52). -/
def emptyWindow : Window := Vector.replicate 19 (Vector.replicate 8 none)

/-- The state after reset (10_state.md R52, 70_reset_and_hazards.md R240); the last nine fields are the
platform's and the model's own (log 1, log 11, log 17). -/
def State.reset : State where
  ie := false
  phase := .idle
  done := false
  err := false
  ecode := 0
  cmd := 0
  src := 0
  spitch := 0
  dst := 0
  dpitch := 0
  size := 0
  taps := Vector.replicate 12 0
  win := emptyWindow
  cx := 0
  cy := 0
  acc := Vector.replicate 8 none
  mem := []
  resetLine := false
  unmapped := []
  devices := []
  launchMem := []
  launches := 0
  rdata := 0
  raced := []
  inbox := []

end Sys2Proof.Machine
end

