-- ==== Sys2Proof/Machine/Flags.lean ====
section
/-! DEFINITION. The flags of VTFIR: `STATUS`, `CTRL` as read, and the interrupt line (10_state.md R28, R29, R37). There
are no arithmetic flags: saturation sets nothing. -/

namespace Sys2Proof.Machine

open Sys2Proof

/-- `STATUS.BUSY`: the engine is in a phase of a command (10_state.md R29, R49). -/
def State.busy (s : State) : Bool := s.phase != .idle

/-- The code an error puts into `STATUS.ECODE` (60_exceptions.md R210). -/
def errCode : ErrCause → BitVec 4
  | .opcode => 1
  | .bd => 2
  | .shift => 3
  | .width => 4
  | .pitch => 5
  | .align => 6
  | .bus => 7

/-- `STATUS` as read: `BUSY`, `DONE`, `ERR` in bits 0 to 2, `ECODE` in bits 7:4, the rest 0 (10_state.md R29). -/
def statusWord (s : State) : Word :=
  BitVec.ofNat 32 (s.busy.toNat + 2 * s.done.toNat + 4 * s.err.toNat + 16 * s.ecode.toNat)

/-- `CTRL` as read: `START` reads 0, `IE` is bit 1, the rest 0 (10_state.md R28). -/
def ctrlWord (s : State) : Word := BitVec.ofNat 32 (2 * s.ie.toNat)

/-- The `IRQ` output, a level recomputed after every step: `IE and (DONE or ERR)` (60_exceptions.md R220). -/
def State.irq (s : State) : Bool := s.ie && (s.done || s.err)

/-- The two write-one-to-clear bits of `STATUS`: a 1 in bit 1 clears `DONE`, a 1 in bit 2 clears `ERR` and with it
`ECODE`; every other bit of the written value is without effect (10_state.md R29). -/
def clearStatus (v : Word) (s : State) : State :=
  { s with
    done := s.done && !v.getLsbD 1
    err := s.err && !v.getLsbD 2
    ecode := if v.getLsbD 2 then 0 else s.ecode }

end Sys2Proof.Machine
end

