-- ==== Sys2Proof/Machine/Ops.lean ====
section
/-! DEFINITION. The named operations over memory, window, accumulators and the ends of a command
(20_memory.md R60 to R64, 10_state.md R40 to R48, 60_exceptions.md R214 to R218, 40_dispatch.md R131). -/

namespace Sys2Proof.Machine

open Sys2Proof

/-! ### The sample memory -/

/-- The sample memory as a list of cells. -/
abbrev Memory := List Host.Cell

/-- What an unlisted byte reads as. The spec leaves the initial memory open (10_state.md R53); DESIGN CHOICE, unsafe,
log 1. -/
def Memory.unlisted : Byte := 0

/-- The byte at address `a`. -/
def Memory.readByte : Memory → Nat → Byte
  | [], _ => Memory.unlisted
  | (k, b) :: m, a => if a = k then b else Memory.readByte m a

/-- Puts a cell before the first one with a higher address. -/
def Memory.insertCell (a : Nat) (b : Byte) : Memory → Memory
  | [] => [(a, b)]
  | (k, c) :: m => if a < k then (a, b) :: (k, c) :: m else (k, c) :: Memory.insertCell a b m

/-- Every cell but those of address `a`. -/
def Memory.erase (m : Memory) (a : Nat) : Memory := m.filter fun c => c.1 != a

/-- Stores `b` at address `a`; a byte that an unlisted address reads as is not listed. -/
def Memory.writeByte (m : Memory) (a : Nat) (b : Byte) : Memory :=
  if b = Memory.unlisted then m.erase a else Memory.insertCell a b (m.erase a)

/-- The canonical form: addresses of the 2^32-byte space, strictly rising, no entry equal to what an unlisted
address reads as. -/
def Memory.wf : Memory → Bool
  | [] => true
  | [(a, b)] => decide (a < 2 ^ 32) && b != Memory.unlisted
  | (a, b) :: (k, c) :: m => decide (a < k) && b != Memory.unlisted && Memory.wf ((k, c) :: m)

/-- `MemRead(a, 2)`'s value: little-endian (20_memory.md R62, R64). -/
def Memory.readSample (m : Memory) (a : Word) : Sample :=
  m.readByte (a + 1).toNat ++ m.readByte a.toNat

/-- `MemWrite(a, 2, v)`'s effect: the less significant byte at the lower address (20_memory.md R63, R64). -/
def Memory.writeSample (m : Memory) (a : Word) (v : Sample) : Memory :=
  (m.writeByte a.toNat (v.extractLsb' 0 8)).writeByte (a + 1).toNat (v.extractLsb' 8 8)

/-- Whether an access of the host writes. -/
def HostAccess.writes : HostAccess → Bool
  | .look => false
  | .byte _ _ => true
  | .sample _ _ => true

/-- Whether an access of the host writes the byte at `x`. -/
def HostAccess.covers : HostAccess → Word → Bool
  | .look, _ => false
  | .byte a _, x => x == a
  | .sample a _, x => x == a || x == a + 1

/-- The memory after an access of the host, which is one atomic act (20_memory.md R68). -/
def HostAccess.apply (m : Memory) : HostAccess → Memory
  | .look => m
  | .byte a b => m.writeByte a.toNat b
  | .sample a v => m.writeSample a v

/-- Address `a` lies in one of the ranges `[lo, hi)`. -/
def inRanges (ranges : List (Nat × Nat)) (a : Word) : Bool :=
  ranges.any fun r => decide (r.1 ≤ a.toNat) && decide (a.toNat < r.2)

/-- The platform's predicate `mapped(a)`: false exactly in the listed ranges (60_exceptions.md R216, log 11). -/
def State.mapped (s : State) (a : Word) : Bool := !inRanges s.unmapped a

/-- Address `a` is no ordinary memory: an access to it has side effects (20_memory.md R73, log 13). -/
def State.device (s : State) (a : Word) : Bool := inRanges s.devices a

/-! ### The sliding-window cache -/

/-- Lane `l` of entry `e`; an entry past `WIN[18]` holds nothing. -/
def windowLane (w : Window) (e : Nat) (l : Fin 8) : Option Sample :=
  if h : e < 19 then w[e][l] else none

/-- `WIN[e][l] <- v`. -/
def setWindowLane (w : Window) (e : Nat) (l : Fin 8) (v : Sample) : Window :=
  if h : e < 19 then w.set e (w[e].set l (some v)) else w

/-- Slide by `n`: `WIN[e] <- WIN[e+n]` for `e` in 0..taps-2, then entries taps-1..18 invalid (10_state.md R44). -/
def slideWindow (w : Window) (taps n : Nat) : Window :=
  Vector.ofFn fun e => Vector.ofFn fun l => if e.val + 1 < taps then windowLane w (e.val + n) l else none

/-! ### The accumulators -/

/-- `ACC[l] <- v`; `none` is an accumulator that holds no value (10_state.md R48). -/
def setAcc (s : State) (l : Fin 8) (v : Option Acc) : State := { s with acc := s.acc.set l v }

/-! ### Starting and ending a command -/

/-- An accepted `START` (40_dispatch.md R120): `DONE`, `ERR`, `ECODE` cleared, `BUSY` set, the cursor 0, the window
invalid, the phase `DISPATCH`. The model notes the memory of that moment, counts the command and has seen no race
yet (log 17). -/
def acceptStart (s : State) : State :=
  { s with
    done := false
    err := false
    ecode := 0
    cx := 0
    cy := 0
    win := emptyWindow
    phase := .dispatch
    launchMem := s.mem
    launches := s.launches + 1
    raced := [] }

/-- `raise Err(code)`, VTFIR's one way of taking an exception, in one engine step: `BUSY` falls, `ERR` and `ECODE` are
set, `DONE` stays 0, the window becomes invalid, the engine is idle. Nothing is saved, no mode or mask changes, control
goes nowhere (60_exceptions.md R212, R214). -/
def raiseErr (e : ErrCause) (s : State) : State :=
  { s with
    phase := .idle
    err := true
    ecode := errCode e
    done := false
    win := emptyWindow }

/-- The completion step: `BUSY` falls, `DONE` is set, the window becomes invalid, the engine is idle; no other register
changes (40_dispatch.md R131). The cursor keeps its value (log 18). -/
def completeCommand (s : State) : State :=
  { s with
    phase := .idle
    done := true
    win := emptyWindow }

/-- Leaving the error state: there is no return operation; the host's write of 1 to `STATUS.ERR` and `STATUS.DONE`
clears them (60_exceptions.md R218; `ACK` of 30_encoding.md R102 writes 0x6). -/
def acknowledge (s : State) : State := clearStatus 6 s

end Sys2Proof.Machine
end

