-- ==== Sys2Proof/Machine/Arith.lean ====
section
/-! DEFINITION. VTFIR's whole arithmetic: multiply-accumulate in the 40-bit accumulator, the rounding shift, the clamp
(43_round_clamp.md R190 to R200). -/

namespace Sys2Proof.Machine

open Sys2Proof

/-- `roundShift(x, s)`: `x` for `s` = 0, else `floor((x + 2^(s-1)) / 2^s)`, half going toward plus infinity
(43_round_clamp.md R194). Division by a positive number rounds toward minus infinity. -/
def roundShift (x : Int) (s : Nat) : Int :=
  if s = 0 then x else (x + 2 ^ (s - 1)) / 2 ^ s

/-- `clamp(v, lo, hi)` (00_scope.md R14, 43_round_clamp.md R196). -/
def clamp (v lo hi : Int) : Int :=
  if v < lo then lo else if hi < v then hi else v

/-- `maxv = 2^bd - 1` (30_encoding.md R94). -/
def maxSample (bd : Nat) : Int := 2 ^ bd - 1

/-- One multiply-add: the signed 16-bit tap times the unsigned 16-bit sample, added to the 40-bit accumulator
(43_round_clamp.md R191, R192). -/
def macStep (acc : Acc) (t : Coeff) (x : Sample) : Acc := acc + t.signExtend 40 * x.zeroExtend 40

/-- `ACC <- 0`, then one multiply-add per tap, the oldest sample with `TAP[0]` (43_round_clamp.md R192). -/
def macSum (taps : List Coeff) (xs : List Sample) : Acc :=
  (taps.zip xs).foldl (fun acc p => macStep acc p.1 p.2) 0

/-- The value of an output from the exact sum: one rounding shift by `FBITS` in a vertical command
(41_vertical.md R151), two, by `ROUND0` and by `FBITS - ROUND0`, in a horizontal one with no clamp between
(42_horizontal.md R171); then the clamp to `[0, 2^bd - 1]`. -/
def roundAndClamp (c : Command) (sum : Int) : Int :=
  match c.dir with
  | .vertical => clamp (roundShift sum c.fbits) 0 (maxSample c.bd)
  | .horizontal => clamp (roundShift (roundShift sum c.round0) (c.fbits - c.round0)) 0 (maxSample c.bd)

/-- The sample an output is written as: the rounded and clamped value in its 16-bit container. -/
def outputSample (c : Command) (sum : Int) : Sample := BitVec.ofInt 16 (roundAndClamp c sum)

end Sys2Proof.Machine
end

