-- ==== Sys2Proof/Machine/Operands.lean ====
section
/-! DEFINITION. The operands a command derives from the descriptor, the legality checks, the tile shapes, the addresses
and the footprints (30_encoding.md R94, 40_dispatch.md R122 to R129, 20_memory.md R66 to R71). -/

namespace Sys2Proof.Machine

open Sys2Proof

/-! ### The command and its operands -/

/-- `taps` = 6, 8 or 12 (30_encoding.md R92). -/
def tapNumber : TapCount → Nat
  | .six => 6
  | .eight => 8
  | .twelve => 12

/-- The command a decoded word stands for (30_encoding.md R96). -/
def commandOf : Instr → Command
  | .vfilt6 bd fbits round0 => ⟨.vertical, .six, bd, fbits, round0⟩
  | .vfilt8 bd fbits round0 => ⟨.vertical, .eight, bd, fbits, round0⟩
  | .vfilt12 bd fbits round0 => ⟨.vertical, .twelve, bd, fbits, round0⟩
  | .hfilt6 bd fbits round0 => ⟨.horizontal, .six, bd, fbits, round0⟩
  | .hfilt8 bd fbits round0 => ⟨.horizontal, .eight, bd, fbits, round0⟩
  | .hfilt12 bd fbits round0 => ⟨.horizontal, .twelve, bd, fbits, round0⟩

/-- The number of taps of a command. -/
def tapsOf (c : Command) : Nat := tapNumber c.tapCount

/-- The centring offset `off = taps/2 - 1`: 2, 3, 5 (30_encoding.md R94). -/
def offsetOf (c : Command) : Nat := tapsOf c / 2 - 1

/-- The instruction the command word register holds, if it is one. -/
def State.decoded (s : State) : Except DecodeError Instr := decode (s.cmd.zeroExtend 32)

/-- `W = SIZE[15:0]` (10_state.md R35). -/
def State.width (s : State) : Nat := (s.size.extractLsb' 0 16).toNat

/-- `H = SIZE[31:16]` (10_state.md R35). -/
def State.height (s : State) : Nat := (s.size.extractLsb' 16 16).toNat

/-- `TAP[0..taps-1]`; a longer kernel's remaining taps are ignored (10_state.md R22). -/
def kernel (c : Command) (s : State) : List Coeff := s.taps.toList.take (tapsOf c)

/-! ### The dispatch step's checks and shapes -/

/-- The legality checks that remain after the opcode's, in their order; the first failing one decides
(40_dispatch.md R122, 60_exceptions.md R213). -/
def firstError (c : Command) (s : State) : Option ErrCause :=
  if c.bd < 8 ∨ 16 < c.bd then some .bd
  else if c.dir = .horizontal ∧ c.fbits < c.round0 then some .shift
  else if ¬(s.width ≤ 4 ∨ s.width % 8 = 0) then some .width
  else if s.spitch.toNat < s.width ∨ s.dpitch.toNat < s.width then some .pitch
  else if s.src.getLsbD 0 ∨ s.dst.getLsbD 0 then some .align
  else none

/-- The narrow path, `W ≤ 4`; otherwise the wide one (40_dispatch.md R124). -/
def State.narrow (s : State) : Bool := s.width ≤ 4

/-- `sw`: the columns of a vertical strip (40_dispatch.md R124). -/
def stripWidth (s : State) : Nat := if s.narrow then s.width else 8

/-- `th`: the rows of a vertical tile, 4 or the rows that remain (40_dispatch.md R128). -/
def tileHeight (s : State) : Nat :=
  if s.cy.toNat + 4 ≤ s.height then 4 else s.height - s.cy.toNat

/-- `sh`: the rows of a horizontal strip, 2 in the narrow path (1 if one row remains), 1 in the wide one
(40_dispatch.md R129, 42_horizontal.md R173). -/
def stripHeight (s : State) : Nat :=
  if s.narrow then min 2 (s.height - s.cy.toNat) else 1

/-- `tw`: the columns of a horizontal tile (42_horizontal.md R173). -/
def tileWidth (s : State) : Nat := if s.narrow then s.width else 8

/-! ### Addresses -/

/-- The window base `WB`: the centring offset applied to `SRC`, rows in a vertical command, columns in a horizontal
one, modulo 2^32 (40_dispatch.md R127). -/
def windowBase (c : Command) (s : State) : Word :=
  match c.dir with
  | .vertical => s.src - 2 * BitVec.ofNat 32 (offsetOf c) * s.spitch
  | .horizontal => s.src - 2 * BitVec.ofNat 32 (offsetOf c)

/-- A plane of samples: row `r` starts at `base + 2*r*pitch`, of `rows` rows of `cols` samples (00_scope.md R17). -/
structure Plane where
  base : Word
  pitch : Word
  rows : Nat
  cols : Nat
  deriving DecidableEq, Repr

/-- The address of the plane's sample `(r, c)`: `base + 2*(r*pitch + c)` modulo 2^32 (20_memory.md R66). -/
def Plane.addr (p : Plane) (r c : Nat) : Word :=
  p.base + 2 * (BitVec.ofNat 32 r * p.pitch + BitVec.ofNat 32 c)

/-- The rows of the plane that hold byte address `a`: those from whose start `a` lies less than `2*cols` bytes on. -/
def Plane.rowsAt (p : Plane) (a : Word) : List Nat :=
  (List.range p.rows).filter fun r => (a - p.addr r 0).toNat < 2 * p.cols

/-- Byte address `a` lies in the plane. -/
def Plane.holds (p : Plane) (a : Word) : Bool := !(p.rowsAt a).isEmpty

/-- The source footprint in window coordinates: `H + taps - 1` rows of `W` samples for a vertical command, `H` rows of
`W + taps - 1` for a horizontal one, nothing where `W` or `H` is 0 (20_memory.md R69). -/
def sourcePlane (c : Command) (s : State) : Plane :=
  if s.width = 0 ∨ s.height = 0 then ⟨windowBase c s, s.spitch, 0, 0⟩
  else match c.dir with
    | .vertical => ⟨windowBase c s, s.spitch, s.height + tapsOf c - 1, s.width⟩
    | .horizontal => ⟨windowBase c s, s.spitch, s.height, s.width + tapsOf c - 1⟩

/-- The destination footprint: `H` rows of `W` samples (20_memory.md R71). -/
def destPlane (s : State) : Plane := ⟨s.dst, s.dpitch, s.height, s.width⟩

/-- The address of window sample `S(i, j)` (20_memory.md R66). -/
def sourceAddr (c : Command) (s : State) (i j : Nat) : Word := (sourcePlane c s).addr i j

/-- The address of output sample `(r, c)` (20_memory.md R66). -/
def destAddr (s : State) (r c : Nat) : Word := (destPlane s).addr r c

/-- The coordinates of the source footprint (20_memory.md R69). -/
def sourceCoords (c : Command) (s : State) : List (Nat × Nat) :=
  (List.range (sourcePlane c s).rows).flatMap fun i => (List.range (sourcePlane c s).cols).map fun j => (i, j)

/-- The coordinates of the destination footprint, in raster order (20_memory.md R71). -/
def destCoords (s : State) : List (Nat × Nat) :=
  (List.range s.height).flatMap fun r => (List.range s.width).map fun c => (r, c)

/-- A byte of one of the footprints is no ordinary memory: a launch that a model should refuse (20_memory.md R73, U10). -/
def touchesDevice (c : Command) (s : State) : Bool :=
  let touched := fun a => s.device a || s.device (a + 1)
  !s.devices.isEmpty && ((sourceCoords c s).any (fun p => touched (sourceAddr c s p.1 p.2)) ||
    (destCoords s).any fun p => touched (destAddr s p.1 p.2))

/-! ### Accesses -/

/-- The byte at `a` as the engine's steps see it: what the memory holds, or, where the command's own destination or a
write of the host lies over it, what it held at `START`; what such a race gives is settled when the command ends
(20_memory.md R79; log 6, log 9). -/
def State.startByte (s : State) (a : Word) : Byte :=
  if s.raced.any (fun w => w.covers a) || (destPlane s).holds a then Memory.readByte s.launchMem a.toNat
  else Memory.readByte s.mem a.toNat

/-- The sample at `a` as the engine's steps see it, little-endian (20_memory.md R62, R64). -/
def State.startSample (s : State) (a : Word) : Sample := s.startByte (a + 1) ++ s.startByte a

/-- The engine's `MemRead` of window sample `S(i, j)`: `none` is a bus error (20_memory.md R62, 60_exceptions.md R216). -/
def fetchSample (c : Command) (s : State) (i j : Nat) : Option Sample :=
  if s.mapped (sourceAddr c s i j) then some (s.startSample (sourceAddr c s i j)) else none

/-! ### The reference value of an output -/

/-- `S(i, j)` in the memory `M` at the accepted `START` (40_dispatch.md R136). -/
def launchSample (c : Command) (s : State) (i j : Nat) : Sample := Memory.readSample s.launchMem (sourceAddr c s i j)

/-- `sum_{k} TAP[k] * s[k]`, exact (43_round_clamp.md R192, R193). -/
def exactSum (taps : List Coeff) (xs : List Sample) : Int :=
  ((taps.zip xs).map fun p => p.1.toInt * (p.2.toNat : Int)).sum

/-- The window coordinates output `(r, c)` is computed from: `(r+k, c)` in a vertical command, `(r, c+k)` in a horizontal
one, k = 0..taps-1 (41_vertical.md R151, 42_horizontal.md R171). -/
def supportCoords (c : Command) (r col : Nat) : List (Nat × Nat) :=
  (List.range (tapsOf c)).map fun k =>
    match c.dir with
    | .vertical => (r + k, col)
    | .horizontal => (r, col + k)

/-- Output `(r, c)` from the samples that its `MemRead`s got (43_round_clamp.md R192 to R197). -/
def outputFrom (c : Command) (s : State) (got : Nat → Nat → Sample) (r col : Nat) : Sample :=
  outputSample c (exactSum (kernel c s) ((supportCoords c r col).map fun p => got p.1 p.2))

/-- `REFV(r, c)` and `REFH(r, c)` (40_dispatch.md R136). -/
def referenceSample (c : Command) (s : State) (r col : Nat) : Sample := outputFrom c s (launchSample c s) r col

/-! ### What the accesses of a command leave, made in a given order -/

/-- When output `(r, c)` is written: after the reads of its support (20_memory.md R77). -/
def writeTick (c : Command) (o : AccessOrder) (r col : Nat) : Nat :=
  ((supportCoords c r col).map fun p => o.readTick p.1 p.2).foldl max 0 + 1 + o.writeDelay r col

/-- When the host makes its `k`-th access to the footprints: not before the one before. -/
def hostTick (o : AccessOrder) : Nat → Nat
  | 0 => o.hostGap 0
  | k + 1 => hostTick o k + o.hostGap (k + 1)

/-- What the accesses made so far have left: the memory, and the samples that the `MemRead`s got. -/
structure Progress where
  mem : Memory
  got : Nat → Nat → Sample

/-- The `MemWrite`s of tick `n`, of the outputs that `written` names. -/
def writeOutputsAt (c : Command) (s : State) (o : AccessOrder) (written : Nat → Nat → Bool) (n : Nat)
    (got : Nat → Nat → Sample) (m : Memory) : Memory :=
  (destCoords s).foldl (fun m p =>
    if written p.1 p.2 && writeTick c o p.1 p.2 == n then
      m.writeSample (destAddr s p.1 p.2) (outputFrom c s got p.1 p.2)
    else m) m

/-- The host's accesses of tick `n`. -/
def hostAccessesAt (s : State) (o : AccessOrder) (n : Nat) (m : Memory) : Memory :=
  s.raced.zipIdx.foldl (fun m w => if hostTick o w.2 == n then w.1.apply m else m) m

/-- One tick: writes, then the host's accesses, then reads, each of which gets the whole sample the memory holds at that
moment (20_memory.md R62, R63, R68, R79). -/
def tick (c : Command) (s : State) (o : AccessOrder) (written : Nat → Nat → Bool) (n : Nat) (p : Progress) : Progress :=
  let m := hostAccessesAt s o n (writeOutputsAt c s o written n p.got p.mem)
  { mem := m
    got := fun i j => if o.readTick i j = n then Memory.readSample m (sourceAddr c s i j) else p.got i j }

/-- What the accesses of the ticks below `n` leave of the memory at `START`: "each `MemRead` returns whatever the memory
holds at the moment it is performed, [...] and the results follow from the values read" (20_memory.md R79). -/
def progressAt (c : Command) (s : State) (o : AccessOrder) (written : Nat → Nat → Bool) : Nat → Progress
  | 0 => ⟨s.launchMem, fun _ _ => 0⟩
  | n + 1 => tick c s o written n (progressAt c s o written n)

/-- A tick after the last write and the last access of the host. -/
def lastTick (c : Command) (s : State) (o : AccessOrder) : Nat :=
  (((destCoords s).map fun p => writeTick c o p.1 p.2) ++ (List.range s.raced.length).map (hostTick o)).foldl max 0 + 1

/-- The memory after all accesses of a command that writes the outputs `written` names. -/
def orderedMemory (c : Command) (s : State) (o : AccessOrder) (written : Nat → Nat → Bool) : Memory :=
  (progressAt c s o written (lastTick c s o)).mem

/-! ### The destination at the end of a command -/

/-- The memory with every sample of the destination as in `final`. -/
def settledMemory (s : State) (final : Memory) : Memory :=
  (destCoords s).foldl (fun m p => m.writeSample (destAddr s p.1 p.2) (final.readSample (destAddr s p.1 p.2))) s.mem

/-- The order of accesses can show: the host has written into a footprint, the footprints share an address, or outputs
share one (20_memory.md R67, R79). -/
def contested (c : Command) (s : State) : Bool :=
  s.raced.any HostAccess.writes ||
    (sourceCoords c s).any (fun p => (destPlane s).holds (sourceAddr c s p.1 p.2)) ||
    !decide ((destCoords s).map fun p => destAddr s p.1 p.2).Nodup

/-- The end of a pass: where the order of the accesses shows, the destination holds what they leave in the command's
order (log 6, log 8, log 9); otherwise it stands as the tiles wrote it. -/
def settleOutputs (c : Command) (s : State) : State :=
  if contested c s then
    { s with mem := settledMemory s (orderedMemory c s (Config.accessOrder s.launches) fun _ _ => true) }
  else s

/-- The sample memory when a running command is stopped by a bus error or cut by reset: of each output it is free
whether it has been written, and nothing outside the destination changes (60_exceptions.md R217,
70_reset_and_hazards.md R241, U11; log 7, log 20). -/
def stoppedMemory (c : Command) (s : State) : Memory :=
  settledMemory s (orderedMemory c s (Config.accessOrder s.launches) fun r col =>
    s.mapped (destAddr s r col) && Config.writtenAtStop s.launches r col)

/-- The sample memory as the host sees it at its next access to the destination of a running command: after those of the
command's accesses that come before (20_memory.md R79, 70_reset_and_hazards.md R250, U3; log 9). -/
def memoryMeanwhile (c : Command) (s : State) : Memory :=
  (progressAt c s (Config.accessOrder s.launches) (fun r col => s.mapped (destAddr s r col))
    (hostTick (Config.accessOrder s.launches) s.raced.length + 1)).mem

end Sys2Proof.Machine
end

