-- ==== Sys2Proof/Machine/Access.lean ====
section
/-! DEFINITION. The accesses of a prime or tile step: loading the window from memory, computing and writing outputs
(41_vertical.md R152, R153; 42_horizontal.md R172, R173; 60_exceptions.md R216). -/

namespace Sys2Proof.Machine

open Sys2Proof

/-- One load: `WIN[entry][lane] <- MemRead` of window sample `S(row, col)`. -/
structure Load where
  entry : Nat
  lane : Fin 8
  row : Nat
  col : Nat
  deriving DecidableEq, Repr

/-- One output: `(row, col)` from the `taps` samples of `lane` that start at entry `first`. -/
structure Output where
  first : Nat
  lane : Fin 8
  row : Nat
  col : Nat
  deriving DecidableEq, Repr

/-- Why the accesses of a step end early. -/
inductive Stop where
  /-- The memory port answered with a bus error (60_exceptions.md R216). -/
  | busError
  /-- A lane marked invalid was to be read (log 16). -/
  | invalidLane
  deriving DecidableEq, Repr

/-- The lanes `0..n-1` (40_dispatch.md R134). -/
def lanesBelow (n : Nat) : List (Fin 8) := (List.finRange 8).take n

/-- The loads of a step, in order, up to the first bus error (`none`). -/
def loadWindow (c : Command) (s : State) : List Load → Window → Option Window
  | [], w => some w
  | ld :: rest, w =>
    match fetchSample c s ld.row ld.col with
    | none => none
    | some v => loadWindow c s rest (setWindowLane w ld.entry ld.lane v)

/-- The samples of `lane` in the `n` entries from `first` on; `none` where one is invalid. -/
def gatherSamples (w : Window) (lane : Fin 8) : Nat → Nat → Option (List Sample)
  | 0, _ => some []
  | n + 1, first =>
    match windowLane w first lane, gatherSamples w lane n (first + 1) with
    | some x, some xs => some (x :: xs)
    | _, _ => none

/-- `MemWrite` of an output to address `a` (20_memory.md R63). -/
def storeOutput (s : State) (a : Word) (v : Sample) : State := { s with mem := Memory.writeSample s.mem a v }

/-- One output: the lane's accumulator takes the sum, its value is rounded, shifted, clamped and written out, and the
accumulator holds no value again (10_state.md R48, 41_vertical.md R151, 42_horizontal.md R171). -/
def writeOutput (c : Command) (s : State) (o : Output) : Except Stop State :=
  match gatherSamples s.win o.lane (tapsOf c) o.first with
  | none => .error .invalidLane
  | some xs =>
    let held := setAcc s o.lane (some (macSum (kernel c s) xs))
    match held.acc[o.lane] with
    | none => .error .invalidLane
    | some sum =>
      let a := destAddr s o.row o.col
      if !s.mapped a then .error .busError
      else .ok (setAcc (storeOutput held a (outputSample c sum.toInt)) o.lane none)

/-- The outputs of a step, in order, up to the first bus error. -/
def writeOutputs (c : Command) : List Output → State → Except Stop State
  | [], s => .ok s
  | o :: rest, s =>
    match writeOutput c s o with
    | .error e => .error e
    | .ok t => writeOutputs c rest t

end Sys2Proof.Machine
end

