-- ==== Sys2Proof/Machine/HorizontalPass.lean ====
section
/-! DEFINITION. The horizontal pass: what a prime and a tile step read and write, and where the cursor goes
(42_horizontal.md R170 to R174). -/

namespace Sys2Proof.Machine

open Sys2Proof

/-- The loads of the prime of a strip: window columns 0..taps-2, leftmost first (42_horizontal.md R172). -/
def horizontalPrimeLoads (c : Command) (s : State) : List Load :=
  (List.range (tapsOf c - 1)).flatMap fun e =>
    (lanesBelow (stripHeight s)).map fun l => ⟨e, l, s.cy.toNat + l, e⟩

/-- The loads of a tile: only the newly required columns (42_horizontal.md R173). -/
def horizontalTileLoads (c : Command) (s : State) : List Load :=
  (List.range (tileWidth s)).flatMap fun t =>
    (lanesBelow (stripHeight s)).map fun l =>
      ⟨tapsOf c - 1 + t, l, s.cy.toNat + l, s.cx.toNat + (tapsOf c - 1) + t⟩

/-- The outputs of a tile, raster order inside the tile (42_horizontal.md R173). -/
def horizontalOutputs (s : State) : List Output :=
  (lanesBelow (stripHeight s)).flatMap fun l =>
    (List.range (tileWidth s)).map fun t => ⟨t, l, s.cy.toNat + l, s.cx.toNat + t⟩

/-- The cursor after a tile of `tw` columns: along the strip; at its end the next strip `sh` rows on, to be primed, or
the completion (42_horizontal.md R173). -/
def horizontalAdvance (tw sh : Nat) (s : State) : State :=
  let cx := s.cx + BitVec.ofNat 16 tw
  let cy := s.cy + BitVec.ofNat 16 sh
  if cx.toNat < s.width then { s with cx := cx }
  else if cy.toNat < s.height then { s with cx := cx, cy := cy, phase := .prime }
  else { s with cx := cx, cy := cy, phase := .complete }

end Sys2Proof.Machine
end

