-- ==== Sys2Proof/Machine/VerticalPass.lean ====
section
/-! DEFINITION. The vertical pass: what a prime and a tile step read and write, and where the cursor goes
(41_vertical.md R150 to R154). -/

namespace Sys2Proof.Machine

open Sys2Proof

/-- The loads of the prime of a strip: window rows 0..taps-2, oldest first (41_vertical.md R152). -/
def verticalPrimeLoads (c : Command) (s : State) : List Load :=
  (List.range (tapsOf c - 1)).flatMap fun e =>
    (lanesBelow (stripWidth s)).map fun l => ⟨e, l, e, s.cx.toNat + l⟩

/-- The loads of a tile: only the newly required rows (41_vertical.md R153). -/
def verticalTileLoads (c : Command) (s : State) : List Load :=
  (List.range (tileHeight s)).flatMap fun t =>
    (lanesBelow (stripWidth s)).map fun l =>
      ⟨tapsOf c - 1 + t, l, s.cy.toNat + (tapsOf c - 1) + t, s.cx.toNat + l⟩

/-- The outputs of a tile, raster order inside the tile (41_vertical.md R153). -/
def verticalOutputs (s : State) : List Output :=
  (List.range (tileHeight s)).flatMap fun t =>
    (lanesBelow (stripWidth s)).map fun l => ⟨t, l, s.cy.toNat + t, s.cx.toNat + l⟩

/-- The cursor after a tile of `th` rows: down the strip; at its end the next strip 8 columns on, to be primed, or the
completion (41_vertical.md R153). -/
def verticalAdvance (th : Nat) (s : State) : State :=
  let cy := s.cy + BitVec.ofNat 16 th
  let cx := s.cx + 8
  if cy.toNat < s.height then { s with cy := cy }
  else if s.narrow then { s with cy := cy, phase := .complete }
  else if cx.toNat < s.width then { s with cy := cy, cx := cx, phase := .prime }
  else { s with cy := cy, cx := cx, phase := .complete }

end Sys2Proof.Machine
end

