-- ==== Sys2Proof/Machine/Engine.lean ====
section
/-! DEFINITION. The engine: the dispatch step, the prime and tile steps, the completion step, and a whole command
(40_dispatch.md R121 to R131, 10_state.md R49). -/

namespace Sys2Proof.Machine

open Sys2Proof

/-- What a step's accesses leave, as an outcome: a bus error is the error stop of 60_exceptions.md R216 with the
destination of R217; an invalid lane stops the model (log 16). -/
def afterAccesses (c : Command) (s : State) : Except Stop State → Host.Outcome State Fault Refusal
  | .ok t => .next t
  | .error .busError => .next (raiseErr .bus { s with mem := stoppedMemory c s })
  | .error .invalidLane => .fault .invalidLane

/-- The engine's first step: the legality checks, the zero-dimension test, then the pass (40_dispatch.md R121, R122,
R125). It makes no memory access. -/
def dispatchStep (c : Command) (s : State) : State :=
  match firstError c s with
  | some e => raiseErr e s
  | none =>
    if s.width = 0 ∨ s.height = 0 then completeCommand s else { s with phase := .prime }

/-- A legal command one of whose footprints is no ordinary memory (20_memory.md R73, U10; log 13). -/
def launchesAtDevice (c : Command) (s : State) : Bool := (firstError c s).isNone && touchesDevice c s

/-- The state a strip is primed in: every entry invalid, the cursor at the strip's start (10_state.md R43,
41_vertical.md R152, 42_horizontal.md R172). -/
def stripStart (c : Command) (s : State) : State :=
  match c.dir with
  | .vertical => { s with win := emptyWindow, cy := 0 }
  | .horizontal => { s with win := emptyWindow, cx := 0 }

/-- The loads of a prime. -/
def primeLoads (c : Command) (s : State) : List Load :=
  match c.dir with
  | .vertical => verticalPrimeLoads c s
  | .horizontal => horizontalPrimeLoads c s

/-- The loads of a tile. -/
def tileLoads (c : Command) (s : State) : List Load :=
  match c.dir with
  | .vertical => verticalTileLoads c s
  | .horizontal => horizontalTileLoads c s

/-- The outputs of a tile. -/
def tileOutputs (c : Command) (s : State) : List Output :=
  match c.dir with
  | .vertical => verticalOutputs s
  | .horizontal => horizontalOutputs s

/-- How far the window slides after a tile: `th` rows or `tw` columns (40_dispatch.md R124). -/
def slideBy (c : Command) (s : State) : Nat :=
  match c.dir with
  | .vertical => tileHeight s
  | .horizontal => tileWidth s

/-- The cursor and phase after a tile of the shape that `s` gives it. -/
def advance (c : Command) (s t : State) : State :=
  match c.dir with
  | .vertical => verticalAdvance (tileHeight s) t
  | .horizontal => horizontalAdvance (tileWidth s) (stripHeight s) t

/-- The prime of a strip (41_vertical.md R152, 42_horizontal.md R172). -/
def primeStep (c : Command) (s : State) : Except Stop State :=
  let start := stripStart c s
  match loadWindow c start (primeLoads c start) start.win with
  | none => .error .busError
  | some w => .ok { start with win := w, phase := .tile }

/-- The tile step: load, compute and write, slide, advance (41_vertical.md R153, 42_horizontal.md R173). -/
def tileStep (c : Command) (s : State) : Except Stop State :=
  match loadWindow c s (tileLoads c s) s.win with
  | none => .error .busError
  | some w =>
    match writeOutputs c (tileOutputs c s) { s with win := w } with
    | .error e => .error e
    | .ok t => .ok (advance c s { t with win := slideWindow t.win (tapsOf c) (slideBy c s) })

/-- One engine step of command `c` (92_eei_decisions.md D1). Idle, the engine does nothing. A launch at a device is refused
before any access (20_memory.md R73). -/
def engineStep (c : Command) (s : State) : Host.Outcome State Fault Refusal :=
  match s.phase with
  | .idle => .next s
  | .dispatch => if launchesAtDevice c s then .refused .deviceLaunch else .next (dispatchStep c s)
  | .prime => afterAccesses c s (primeStep c s)
  | .tile => afterAccesses c s (tileStep c s)
  | .complete => .next (completeCommand (settleOutputs c s))

/-- At most `n` engine steps, until the engine is idle. -/
def runEngine (c : Command) : Nat → State → Host.Outcome State Fault Refusal
  | 0, s => .next s
  | n + 1, s =>
    if s.phase = .idle then .next s
    else match engineStep c s with
      | .next t => runEngine c n t
      | .fault f => .fault f
      | .refused r => .refused r

/-- More engine steps than any command of these dimensions has (40_dispatch.md R132). -/
def stepBound (s : State) : Nat := (s.width + 2) * (s.height + 2)

/-- What a command does in one step of the machine: with an `engine` event waiting, one engine step; otherwise no agent
can act in between and it runs to its end (20_memory.md R77 lets a model take a command as one step; log 3). -/
def runCommand (c : Command) (s : State) : Host.Outcome State Fault Refusal :=
  match s.inbox with
  | .engine :: rest => engineStep c { s with inbox := rest }
  | _ => runEngine c (stepBound s) s

end Sys2Proof.Machine
end

