-- ==== Sys2Proof/Machine/Horizontal.lean ====
section
/-! DEFINITION. The meanings of the horizontal commands (42_horizontal.md R175 to R177). -/

namespace Sys2Proof.Machine

open Sys2Proof

/-- `HFILT6`, the horizontal 6-tap filter (42_horizontal.md R175). -/
def execHfilt6 (bd fbits round0 : Nat) (s : State) : Host.Outcome State Fault Refusal :=
  runCommand ⟨.horizontal, .six, bd, fbits, round0⟩ s

/-- `HFILT8`, the horizontal 8-tap filter (42_horizontal.md R176). -/
def execHfilt8 (bd fbits round0 : Nat) (s : State) : Host.Outcome State Fault Refusal :=
  runCommand ⟨.horizontal, .eight, bd, fbits, round0⟩ s

/-- `HFILT12`, the horizontal 12-tap filter (42_horizontal.md R177). -/
def execHfilt12 (bd fbits round0 : Nat) (s : State) : Host.Outcome State Fault Refusal :=
  runCommand ⟨.horizontal, .twelve, bd, fbits, round0⟩ s

end Sys2Proof.Machine
end

