-- ==== Sys2Proof/Machine/Vertical.lean ====
section
/-! DEFINITION. The meanings of the vertical commands (41_vertical.md R155 to R157). -/

namespace Sys2Proof.Machine

open Sys2Proof

/-- `VFILT6`, the vertical 6-tap filter (41_vertical.md R155). -/
def execVfilt6 (bd fbits round0 : Nat) (s : State) : Host.Outcome State Fault Refusal :=
  runCommand ⟨.vertical, .six, bd, fbits, round0⟩ s

/-- `VFILT8`, the vertical 8-tap filter (41_vertical.md R156). -/
def execVfilt8 (bd fbits round0 : Nat) (s : State) : Host.Outcome State Fault Refusal :=
  runCommand ⟨.vertical, .eight, bd, fbits, round0⟩ s

/-- `VFILT12`, the vertical 12-tap filter (41_vertical.md R157). -/
def execVfilt12 (bd fbits round0 : Nat) (s : State) : Host.Outcome State Fault Refusal :=
  runCommand ⟨.vertical, .twelve, bd, fbits, round0⟩ s

end Sys2Proof.Machine
end

