-- ==== Sys2Proof/Machine/Dispatch.lean ====
section
/-! DEFINITION. The meaning of each instruction, one arm per constructor. -/

namespace Sys2Proof.Machine

def exec (i : Instr) (s : State) : Host.Outcome State Fault Refusal :=
  match i with
  | .vfilt6 bd fbits round0 => Sys2Proof.Machine.execVfilt6 bd fbits round0 s
  | .vfilt8 bd fbits round0 => Sys2Proof.Machine.execVfilt8 bd fbits round0 s
  | .vfilt12 bd fbits round0 => Sys2Proof.Machine.execVfilt12 bd fbits round0 s
  | .hfilt6 bd fbits round0 => Sys2Proof.Machine.execHfilt6 bd fbits round0 s
  | .hfilt8 bd fbits round0 => Sys2Proof.Machine.execHfilt8 bd fbits round0 s
  | .hfilt12 bd fbits round0 => Sys2Proof.Machine.execHfilt12 bd fbits round0 s

end Sys2Proof.Machine
end

