-- ==== Sys2Proof/Machine/RegPort.lean ====
section
/-! DEFINITION. The register port: `RegRead` and `RegWrite` at every offset of the 256-byte window (10_state.md R21 to
R36, 40_dispatch.md R120). -/

namespace Sys2Proof.Machine

open Sys2Proof

/-- What `ID` reads: "VT", command set 1.0 (10_state.md R27). -/
def identity : Word := 0x56540100

/-- The offsets the register port defines: multiples of 4 in 0x00 to 0xFC (10_state.md R21). -/
def portOffset (off : Nat) : Bool := off % 4 == 0 && off ≤ 0xFC

/-- The tap register at an offset: `TAPk` at 0x40 + 4k, k = 0..11 (10_state.md R36). -/
def tapIndex (off : Nat) : Option (Fin 12) :=
  if h : 0x40 ≤ off ∧ off ≤ 0x6C then some ⟨(off - 0x40) / 4, by omega⟩ else none

/-- What a defined offset reads; a reserved offset reads 0, no read has a side effect (10_state.md R24, R26). -/
def registerWord (s : State) (off : Nat) : Word :=
  if off = 0x00 then identity
  else if off = 0x04 then ctrlWord s
  else if off = 0x08 then statusWord s
  else if off = 0x0C then s.cmd.zeroExtend 32
  else if off = 0x10 then s.src
  else if off = 0x14 then s.spitch
  else if off = 0x18 then s.dst
  else if off = 0x1C then s.dpitch
  else if off = 0x20 then s.size
  else match tapIndex off with
    | some k => s.taps[k].signExtend 32
    | none => 0

/-- A write to `CTRL`: `IE` takes bit 1 first; a 1 in bit 0 starts a command if `BUSY` = 0 (10_state.md R28,
40_dispatch.md R120). -/
def writeCtrl (v : Word) (s : State) : State :=
  let t := { s with ie := v.getLsbD 1 }
  if v.getLsbD 0 && !s.busy then acceptStart t else t

/-- A write to a descriptor or tap register while `BUSY` = 0; a reserved offset ignores the write (10_state.md R24,
R30 to R36). -/
def writeDescriptor (off : Nat) (v : Word) (s : State) : State :=
  if off = 0x0C then { s with cmd := v.extractLsb' 0 16 }
  else if off = 0x10 then { s with src := v }
  else if off = 0x14 then { s with spitch := v }
  else if off = 0x18 then { s with dst := v }
  else if off = 0x1C then { s with dpitch := v }
  else if off = 0x20 then { s with size := v }
  else match tapIndex off with
    | some k => { s with taps := s.taps.set k (v.extractLsb' 0 16) }
    | none => s

/-- `RegWrite(off, v)` at a defined offset. `ID` ignores writes (10_state.md R27); `CTRL` and the W1C bits of `STATUS`
act at any time; a descriptor or tap write while `BUSY` = 1 is dropped (10_state.md R25). While `RESET` is asserted the
state stays the reset state, so a write has no effect (70_reset_and_hazards.md R240, log 19). -/
def writeRegister (off : Nat) (v : Word) (s : State) : State :=
  if s.resetLine then s
  else if off = 0x04 then writeCtrl v s
  else if off = 0x08 then clearStatus v s
  else if s.busy then s
  else writeDescriptor off v s

end Sys2Proof.Machine
end

