-- ==== Sys2Proof/Machine/HostActs.lean ====
section
/-! DEFINITION. What the host does between engine steps: register accesses, its own memory accesses, `RESET`
(10_state.md R20, R21; 20_memory.md R78, R79; 70_reset_and_hazards.md R240, R241, R246). -/

namespace Sys2Proof.Machine

open Sys2Proof

/-- The command whose memory accesses are under way or to come: the decoded command word while `BUSY` = 1, if its
descriptor is legal. A command that stops at dispatch has no footprint (60_exceptions.md R215; log 24). -/
def runningCommand (s : State) : Option Command :=
  match s.decoded with
  | .error _ => none
  | .ok i =>
    if s.busy && (firstError (commandOf i) s).isNone then some (commandOf i) else none

/-- Byte address `a` lies in a footprint of the running command: no agent but the engine may write it while `BUSY` = 1
(20_memory.md R79). -/
def inFootprints (s : State) (a : Word) : Bool :=
  match runningCommand s with
  | none => false
  | some c => (destPlane s).holds a || (sourcePlane c s).holds a

/-- The host writes memory by its own means, the bytes at `as`. Nothing is detected (20_memory.md R79): the memory holds
what it wrote; in a footprint of the running command the write is a race, noted so that the command's accesses may come
before or after it (log 9). -/
def hostWrite (as : List Word) (w : HostAccess) (s : State) : State :=
  { s with mem := w.apply s.mem, raced := if as.any (inFootprints s) then s.raced ++ [w] else s.raced }

/-- The running command whose destination holds one of the bytes at `as`. -/
def commandWriting (s : State) (as : List Word) : Option Command :=
  (runningCommand s).filter fun _ => as.any (destPlane s).holds

/-- The host reads memory by its own means, the bytes at `as`, `look` being what it makes of them: what the memory holds;
in the destination of a running command it looks at the accesses the command has made so far, and the read is noted
(20_memory.md R79, 70_reset_and_hazards.md R250, U3; log 9). -/
def hostRead (as : List Word) (look : Memory → Word) (s : State) : State :=
  match commandWriting s as with
  | some c => { s with rdata := look (memoryMeanwhile c s), raced := s.raced ++ [.look] }
  | none => { s with rdata := look s.mem }

/-- An access of the host to the bytes at `as` goes on, unless one of them is a device's: the spec says nothing of devices
(20_memory.md R73; log 13). -/
def atOrdinaryMemory (as : List Word) (s t : State) : Host.Outcome State Fault Refusal :=
  match as.find? s.device with
  | some a => .refused (.deviceAccess a)
  | none => .next t

/-- The byte address of sample index `i`. -/
def sampleAddr (i : BitVec 31) : Word := i ++ 0#1

/-- The memory that `RESET` leaves: unchanged, except for the destination of a command it cuts short in its `RUN`
phase (70_reset_and_hazards.md R240, R241; log 7). -/
def memoryAtReset (s : State) : Memory :=
  match s.phase with
  | .idle => s.mem
  | .dispatch => s.mem
  | .prime | .tile | .complete =>
    match s.decoded with
    | .ok i => stoppedMemory (commandOf i) s
    | .error _ => s.mem

/-- `RESET` is asserted: the reset state of 10_state.md R52; the sample memory, the platform and the model's own fields
are not VTFIR's to reset (70_reset_and_hazards.md R240). -/
def assertReset (s : State) : State :=
  { State.reset with
    mem := memoryAtReset s
    resetLine := true
    unmapped := s.unmapped
    devices := s.devices
    launchMem := s.launchMem
    launches := s.launches
    rdata := s.rdata
    raced := s.raced
    inbox := s.inbox }

/-- One act of the host, one atomic step (10_state.md R21). -/
def hostAct (op : HostOp) (s : State) : Host.Outcome State Fault Refusal :=
  match op with
  | .regRead off =>
    if portOffset off then .next { s with rdata := registerWord s off }
    else .refused (.undefinedPortAccess off)
  | .regWrite off v =>
    if portOffset off then .next (writeRegister off v s) else .refused (.undefinedPortAccess off)
  | .memRead a =>
    atOrdinaryMemory [a] s (hostRead [a] (fun m => (m.readByte a.toNat).zeroExtend 32) s)
  | .memWrite a b => atOrdinaryMemory [a] s (hostWrite [a] (.byte a b) s)
  | .sampleRead i =>
    let a := sampleAddr i
    atOrdinaryMemory [a, a + 1] s (hostRead [a, a + 1] (fun m => (m.readSample a).zeroExtend 32) s)
  | .sampleWrite i v =>
    let a := sampleAddr i
    atOrdinaryMemory [a, a + 1] s (hostWrite [a, a + 1] (.sample a v) s)
  | .assertReset => .next (assertReset s)
  | .releaseReset => .next { s with resetLine := false }

end Sys2Proof.Machine
end

