-- ==== Sys2Proof/Machine/Turn.lean ====
section
/-! DEFINITION. Whose turn it is, and what the engine's turn does with the command word (10_state.md R20, R25, R90;
log 2, log 3). -/

namespace Sys2Proof.Machine

open Sys2Proof

/-- The waiting `engine` event, if there is one, is used up. -/
def dropEngineEvent (s : State) : State :=
  match s.inbox with
  | .engine :: rest => { s with inbox := rest }
  | _ => s

/-- The engine's turn: idle, it does nothing; a reserved opcode stops at dispatch with `ERR_OPCODE`, the first of the
checks (40_dispatch.md R122); otherwise the decoded command does its step. -/
def engineTurn (s : State) : Host.Outcome State Fault Refusal :=
  if s.phase = .idle then .next (dropEngineEvent s)
  else match s.decoded with
    | .ok i => exec i s
    | .error _ => .next (raiseErr .opcode (dropEngineEvent s))

/-- One turn of `WAIT`: while `BUSY` = 1 the engine moves; at `BUSY` = 0 the host's last read of `STATUS` ends the poll
(30_encoding.md R102; log 23). -/
def waitTurn (rest : List Event) (s : State) : Host.Outcome State Fault Refusal :=
  if s.busy then engineTurn s else .next { s with rdata := statusWord s, inbox := rest }

/-- One step of the machine: the next event's agent moves; with no event waiting, the engine. -/
def takeTurn (s : State) : Host.Outcome State Fault Refusal :=
  match s.inbox with
  | .host op :: rest => hostAct op { s with inbox := rest }
  | .wait :: rest => waitTurn rest s
  | .engine :: _ => engineTurn s
  | [] => engineTurn s

/-- The host's writes of a command word and of `START`, done for it: `CMD` holds the word's 16 existing bits, the start
is accepted, `RESET` is released, no event waits (log 5). -/
def loadCommand (w : Word) (s : State) : State :=
  acceptStart { s with cmd := w.extractLsb' 0 16, resetLine := false, inbox := [] }

end Sys2Proof.Machine
end

