-- ==== Sys2Proof/Machine/Step.lean ====
section
/-! DEFINITION. The machine's step, and how an instruction word is put where the next step runs it. -/

namespace Sys2Proof.Machine

/-- One step of VTFIR and its surroundings. -/
def step (s : State) : Host.Outcome State Fault Refusal := takeTurn s

/-- The state `s` with the command of an opcode-table word loaded and started (log 5). -/
def State.withFetchWord (s : State) (nbits w : Nat) : State := loadCommand (tableWord nbits w) s

end Sys2Proof.Machine
end

