-- ==== Sys2Proof/Machine/Asm.lean ====
section
/-! DEFINITION. The spec's assembler: command lines, directives and pseudo-instructions, each expanding to the host's
acts (30_encoding.md R101, R102; 70_reset_and_hazards.md R243). -/

namespace Sys2Proof.Machine

open Sys2Proof

/-- A line of source text. Operands are in the order of the spec's syntax. -/
inductive AsmLine where
  /-- `TAPS t0, .., t(n-1)`, n of 6, 8, 12. -/
  | taps (ts : List Int)
  /-- `VFILTn bd, fbits, src, spitch, dst, dpitch, w, h`. -/
  | vfilt (n : TapCount) (bd fbits src spitch dst dpitch w h : Nat)
  /-- `HFILTn bd, fbits, round0, src, spitch, dst, dpitch, w, h`. -/
  | hfilt (n : TapCount) (bd fbits round0 src spitch dst dpitch w h : Nat)
  | wait
  | ack
  | irqOn
  | irqOff
  | start
  /-- `filterVertical(src, spitch, dst, dpitch, w, h, kernel(t.., fbits), bd)`. -/
  | filterVertical (src spitch dst dpitch w h : Nat) (ts : List Int) (fbits bd : Nat)
  /-- `filterHorizontal(src, spitch, dst, dpitch, w, h, kernel(t.., fbits), round_0, bd)`. -/
  | filterHorizontal (src spitch dst dpitch w h : Nat) (ts : List Int) (fbits round0 bd : Nat)
  /-- `VFILTn.W`, a width `8q + r` with q ≥ 1 and 1 ≤ r ≤ 4. -/
  | vfiltW (n : TapCount) (bd fbits src spitch dst dpitch w h : Nat)
  /-- `HFILTn.W`, likewise. -/
  | hfiltW (n : TapCount) (bd fbits round0 src spitch dst dpitch w h : Nat)
  deriving DecidableEq, Repr

/-- The host's act `RegWrite(off, v)`, with `v` taken modulo 2^32. -/
def regWriteEvent (off : Nat) (v : Int) : Event := .host (.regWrite off (BitVec.ofInt 32 v))

/-- The opcode `TAPS + 4*DIR` (30_encoding.md R96). -/
def opcodeOf (d : Dir) (n : TapCount) : Nat :=
  (match n with | .six => 0 | .eight => 1 | .twelve => 2) + (match d with | .vertical => 0 | .horizontal => 4)

/-- The kernel length as a tap count: 6, 8 or 12. -/
def tapCountOf (n : Nat) : Option TapCount :=
  if n = 6 then some .six else if n = 8 then some .eight else if n = 12 then some .twelve else none

/-- `START`: the write `1 + 2*ie` to `CTRL`. -/
def startEvent (ie : Bool) : Event := regWriteEvent 0x04 (1 + 2 * ie.toNat)

/-- The seven register writes of a command line, in order (30_encoding.md R101). -/
def commandEvents (ie : Bool) (d : Dir) (n : TapCount) (bd fbits round0 src spitch dst dpitch w h : Nat) :
    List Event :=
  [regWriteEvent 0x0C (opcodeOf d n + 8 * bd + 256 * fbits + 4096 * round0), regWriteEvent 0x10 src,
    regWriteEvent 0x14 spitch, regWriteEvent 0x18 dst, regWriteEvent 0x1C dpitch,
    regWriteEvent 0x20 (w + 65536 * h), startEvent ie]

/-- The tap writes from tap `k` on, ascending (30_encoding.md R102). -/
def tapEvents : Nat → List Int → List Event
  | _, [] => []
  | k, t :: ts => regWriteEvent (0x40 + 4 * k) t :: tapEvents (k + 1) ts

/-- The two commands of a `.W` line, each followed by `WAIT`; no line for another width (30_encoding.md R102). -/
def splitEvents (ie : Bool) (d : Dir) (n : TapCount) (bd fbits round0 src spitch dst dpitch w h : Nat) :
    Option (List Event) :=
  let q := w / 8
  let r := w % 8
  if 1 ≤ q ∧ 1 ≤ r ∧ r ≤ 4 then
    some (commandEvents ie d n bd fbits round0 src spitch dst dpitch (8 * q) h ++ [.wait] ++
      (commandEvents ie d n bd fbits round0 (src + 16 * q) spitch (dst + 16 * q) dpitch r h ++ [.wait]))
  else none

/-- The expansion of a line under the current interrupt-enable setting; `none` for a text that is no line of the
syntax (30_encoding.md R101, R102). -/
def lineEvents (ie : Bool) : AsmLine → Option (List Event)
  | .taps ts => (tapCountOf ts.length).map fun _ => tapEvents 0 ts
  | .vfilt n bd fbits src spitch dst dpitch w h =>
    some (commandEvents ie .vertical n bd fbits 0 src spitch dst dpitch w h)
  | .hfilt n bd fbits round0 src spitch dst dpitch w h =>
    some (commandEvents ie .horizontal n bd fbits round0 src spitch dst dpitch w h)
  | .wait => some [.wait]
  | .ack => some [regWriteEvent 0x08 0x6]
  | .irqOn => some [regWriteEvent 0x04 2]
  | .irqOff => some [regWriteEvent 0x04 0]
  | .start => some [startEvent ie]
  | .filterVertical src spitch dst dpitch w h ts fbits bd =>
    (tapCountOf ts.length).map fun n =>
      tapEvents 0 ts ++ commandEvents ie .vertical n bd fbits 0 src spitch dst dpitch w h ++ [.wait]
  | .filterHorizontal src spitch dst dpitch w h ts fbits round0 bd =>
    (tapCountOf ts.length).map fun n =>
      tapEvents 0 ts ++ commandEvents ie .horizontal n bd fbits round0 src spitch dst dpitch w h ++ [.wait]
  | .vfiltW n bd fbits src spitch dst dpitch w h =>
    splitEvents ie .vertical n bd fbits 0 src spitch dst dpitch w h
  | .hfiltW n bd fbits round0 src spitch dst dpitch w h =>
    splitEvents ie .horizontal n bd fbits round0 src spitch dst dpitch w h

/-- `IRQON` and `IRQOFF` set `ie` for the lines that follow (30_encoding.md R102). -/
def lineIe (ie : Bool) : AsmLine → Bool
  | .irqOn => true
  | .irqOff => false
  | _ => ie

/-- The host's acts for a source text. -/
def assemble : Bool → List AsmLine → Option (List Event)
  | _, [] => some []
  | ie, line :: rest =>
    match lineEvents ie line, assemble (lineIe ie line) rest with
    | some es, some more => some (es ++ more)
    | _, _ => none

end Sys2Proof.Machine
end

