-- ==== Sys2Proof/Safety.lean ====
section
/-! DEFINITION. The terms claims are made in: which states are legal, what a running command keeps, what a completed one
owes, and which accesses it makes. -/

namespace Sys2Proof.Machine

open Sys2Proof

/-! ### Launches -/

/-- The six checks of the dispatch step pass (40_dispatch.md R122). -/
def LegalDescriptor (c : Command) (s : State) : Prop := firstError c s = none

/-- Every address of both footprints answers without a bus error (60_exceptions.md R216). -/
def FootprintsMapped (c : Command) (s : State) : Prop :=
  (∀ i < (sourcePlane c s).rows, ∀ j < (sourcePlane c s).cols, s.mapped (sourceAddr c s i j) = true) ∧
    ∀ r < s.height, ∀ col < s.width, s.mapped (destAddr s r col) = true

/-- Distinct output coordinates have distinct addresses (20_memory.md R71). -/
def DestDistinct (s : State) : Prop :=
  ∀ r < s.height, ∀ col < s.width, ∀ r' < s.height, ∀ col' < s.width,
    destAddr s r col = destAddr s r' col' → r = r' ∧ col = col'

/-- The two footprints of the command share no address (20_memory.md R79, 70_reset_and_hazards.md R251). -/
def NoAlias (c : Command) (s : State) : Prop :=
  ∀ i < (sourcePlane c s).rows, ∀ j < (sourcePlane c s).cols, (destPlane s).holds (sourceAddr c s i j) = false

/-- Every byte of both footprints is ordinary memory, an access to which has no side effect (20_memory.md R73). -/
def OrdinaryMemory (c : Command) (s : State) : Prop :=
  ∀ a : Word, (sourcePlane c s).holds a = true ∨ (destPlane s).holds a = true → s.device a = false

/-- Since `START` the host has written no byte of either footprint (20_memory.md R79, 70_reset_and_hazards.md R249, R250). -/
def HostKeepsOff (s : State) : Prop := ∀ w ∈ s.raced, w.writes = false

/-- No order of the accesses that 20_memory.md R77 allows can show: the host keeps off, the footprints share no address,
nor do two outputs. -/
def Uncontested (c : Command) (s : State) : Prop := HostKeepsOff s ∧ NoAlias c s ∧ DestDistinct s

/-- No order of the accesses can show in output `(r, col)`: the host keeps off, and no other output lies on this one or on a
sample of its support. It may lie on its own support, which is read before it is written (20_memory.md R77). -/
def Undisturbed (c : Command) (s : State) (r col : Nat) : Prop :=
  HostKeepsOff s ∧ ∀ r' < s.height, ∀ col' < s.width, (r', col') ≠ (r, col) →
    destAddr s r' col' ≠ destAddr s r col ∧ ∀ p ∈ supportCoords c r col, destAddr s r' col' ≠ sourceAddr c s p.1 p.2

/-- An accepted `START` has put the engine into `DISPATCH` with instruction `i` in `CMD` and nothing has happened since
(40_dispatch.md R120). -/
structure JustStarted (i : Instr) (s : State) : Prop where
  decoded : s.decoded = .ok i
  phase : s.phase = .dispatch
  cx : s.cx = 0
  cy : s.cy = 0
  launchMem : s.launchMem = s.mem
  acc : s.acc = Vector.replicate 8 none
  noError : s.err = false ∧ s.ecode = 0
  raced : s.raced = []

/-- No `engine` event is waiting, so that a command runs to its end in one step (log 3). -/
def RunsToEnd (s : State) : Prop := s.inbox.head? ≠ some .engine

/-! ### What a step leaves alone -/

/-- Descriptor, taps, platform and the note of the launch are the same. -/
structure SameOperands (s t : State) : Prop where
  cmd : t.cmd = s.cmd
  src : t.src = s.src
  spitch : t.spitch = s.spitch
  dst : t.dst = s.dst
  dpitch : t.dpitch = s.dpitch
  size : t.size = s.size
  taps : t.taps = s.taps
  unmapped : t.unmapped = s.unmapped
  devices : t.devices = s.devices
  launchMem : t.launchMem = s.launchMem
  launches : t.launches = s.launches

/-- What no engine step changes: the operands, `IE`, the `RESET` input, what the host read last, the note of its races. -/
structure EngineFrame (s t : State) : Prop where
  operands : SameOperands s t
  ie : t.ie = s.ie
  resetLine : t.resetLine = s.resetLine
  rdata : t.rdata = s.rdata
  raced : t.raced = s.raced

/-- Every byte outside the destination footprint is the same (20_memory.md R71, R72). -/
def OutsideDestSame (s t : State) : Prop :=
  ∀ a : Word, (destPlane s).holds a = false → Memory.readByte t.mem a.toNat = Memory.readByte s.mem a.toNat

/-- The destination footprint holds what it holds in `m`. -/
def DestinationIs (s t : State) (m : Memory) : Prop :=
  ∀ a : Word, (destPlane s).holds a = true → Memory.readByte t.mem a.toNat = Memory.readByte m a.toNat

/-- What the sample memory may be when the host next accesses it: the `START` memory after those of the running command's
accesses that come before, in an order that 20_memory.md R77 allows (R79, 70_reset_and_hazards.md R250, U3). -/
def MaySee (c : Command) (s : State) (m : Memory) : Prop :=
  ∃ o : AccessOrder,
    m = (progressAt c s o (fun r col => s.mapped (destAddr s r col)) (hostTick o s.raced.length + 1)).mem

/-- What a write of the host at `a` adds to the note of its races: itself, if `a` lies in a footprint of a running legal
command, and otherwise nothing (20_memory.md R79; log 9, log 24). -/
def HostNotes (s t : State) (a : Word) (w : HostAccess) : Prop :=
  (∀ i, s.busy = true → s.decoded = .ok i → LegalDescriptor (commandOf i) s →
    ((destPlane s).holds a = true ∨ (sourcePlane (commandOf i) s).holds a = true → t.raced = s.raced ++ [w]) ∧
    ((destPlane s).holds a = false → (sourcePlane (commandOf i) s).holds a = false → t.raced = s.raced)) ∧
  (s.busy = false ∨ (∀ i, s.decoded = .ok i → ¬LegalDescriptor (commandOf i) s) → t.raced = s.raced)

/-- The memory `m` in which a read of the host looks at `a`: in the destination of a running legal command one that it may
see at that moment, and otherwise the sample memory (20_memory.md R79, 70_reset_and_hazards.md R250; log 9, log 24). -/
def HostSees (s : State) (a : Word) (m : Memory) : Prop :=
  (∀ i, s.busy = true → s.decoded = .ok i → LegalDescriptor (commandOf i) s → (destPlane s).holds a = true →
    MaySee (commandOf i) s m) ∧
  (s.busy = false ∨ (∀ i, s.decoded = .ok i → ¬LegalDescriptor (commandOf i) s) ∨ (destPlane s).holds a = false →
    m = s.mem)

/-! ### How a command ends -/

/-- Everything a completion owes besides the outputs (40_dispatch.md R131, R130): idle, `DONE`, no error, the window
invalid, no accumulator in use, no register changed, no byte outside the destination changed. The cursor may be
anything (log 18). -/
structure Completed (s t : State) : Prop where
  idle : t.phase = .idle
  done : t.done = true
  noError : t.err = false ∧ t.ecode = 0
  win : t.win = emptyWindow
  acc : t.acc = Vector.replicate 8 none
  frame : EngineFrame s t
  outside : OutsideDestSame s t

/-- Everything an error stop owes besides what it leaves of the destination (60_exceptions.md R212, R214). -/
structure StoppedWith (code : BitVec 4) (s t : State) : Prop where
  idle : t.phase = .idle
  notDone : t.done = false
  error : t.err = true ∧ t.ecode = code
  win : t.win = emptyWindow
  frame : EngineFrame s t
  outside : OutsideDestSame s t

/-- The host's next act, if any, is not due now: the engine moves in this step. -/
def EngineIsNext (s : State) : Prop := ∀ op rest, s.inbox ≠ .host op :: rest

/-- A command launched as the spec asks (70_reset_and_hazards.md R248 to R252) with a legal descriptor, to be run to its
end. -/
structure Launch (i : Instr) (s : State) : Prop where
  started : JustStarted i s
  alone : RunsToEnd s
  legal : LegalDescriptor (commandOf i) s
  mapped : FootprintsMapped (commandOf i) s
  ordinary : OrdinaryMemory (commandOf i) s
  noAlias : NoAlias (commandOf i) s
  distinct : DestDistinct s

/-- The code of the first of the six checks that fails, read from the bits of `CMD` and the other registers
(40_dispatch.md R122). -/
def dispatchCode (s : State) : Option (BitVec 4) :=
  let cmd := s.cmd.toNat
  let w := s.size.toNat % 65536
  if cmd % 4 = 3 then some 1
  else if cmd / 8 % 32 < 8 ∨ 16 < cmd / 8 % 32 then some 2
  else if cmd / 4 % 2 = 1 ∧ cmd / 256 % 16 < cmd / 4096 then some 3
  else if ¬(w ≤ 4 ∨ w % 8 = 0) then some 4
  else if s.spitch.toNat < w ∨ s.dpitch.toNat < w then some 5
  else if s.src.toNat % 2 = 1 ∨ s.dst.toNat % 2 = 1 then some 6
  else none

/-! ### The outputs of a command, in the rules' own formulas -/

/-- `TAP[k]`, the signed value of tap register `k` (10_state.md R22). -/
def tapValue (s : State) (k : Nat) : Int := (s.taps.toList.getD k 0).toInt

/-- The unsigned value of the sample at `base + 2*(i*pitch + j)` (20_memory.md R62, R66). -/
def sampleAt (m : Memory) (base pitch : Word) (i j : Nat) : Int :=
  ((Memory.readSample m (base + 2 * (BitVec.ofNat 32 i * pitch + BitVec.ofNat 32 j))).toNat : Int)

/-- The value of output `(r, col)` of a vertical command whose window base is `base`
(41_vertical.md R151, R155 to R157). -/
def verticalValue (taps bd fbits : Nat) (base : Word) (s : State) (r col : Nat) : Int :=
  clamp (roundShift (∑ k ∈ Finset.range taps, tapValue s k * sampleAt s.mem base s.spitch (r + k) col) fbits)
    0 (2 ^ bd - 1)

/-- The value of output `(r, col)` of a horizontal command whose window base is `base`
(42_horizontal.md R171, R175 to R177). -/
def horizontalValue (taps bd fbits round0 : Nat) (base : Word) (s : State) (r col : Nat) : Int :=
  clamp (roundShift (roundShift (∑ k ∈ Finset.range taps, tapValue s k * sampleAt s.mem base s.spitch r (col + k))
    round0) (fbits - round0)) 0 (2 ^ bd - 1)

/-- `REFV` and `REFH` (40_dispatch.md R136), with the window base of R127. -/
def commandValue (c : Command) (s : State) (r col : Nat) : Int :=
  match c.dir with
  | .vertical =>
    verticalValue (tapsOf c) c.bd c.fbits (s.src - 2 * BitVec.ofNat 32 (tapsOf c / 2 - 1) * s.spitch) s r col
  | .horizontal =>
    horizontalValue (tapsOf c) c.bd c.fbits c.round0 (s.src - 2 * BitVec.ofNat 32 (tapsOf c / 2 - 1)) s r col

/-- The memory of `t` holds `value r col` as output `(r, col)`, for every output of the command `s` starts. -/
def OutputsAre (s t : State) (value : Nat → Nat → Int) : Prop :=
  ∀ r < s.height, ∀ col < s.width, sampleAt t.mem s.dst s.dpitch r col = value r col

/-- What a register reads after the host wrote `v` to its offset, the engine idle and `v` no `START`: the stored bits,
sign-extended for a tap; reserved bits and reserved offsets 0; `ID` its constant (10_state.md R24, R27, R28, R30 to R36).
`STATUS` has a rule of its own. -/
def readBack (off : Nat) (v : Word) : Word :=
  if off = 0x00 then 0x56540100
  else if off = 0x04 then v &&& 2
  else if off = 0x0C then v &&& 0xFFFF
  else if 0x10 ≤ off ∧ off ≤ 0x20 then v
  else if 0x40 ≤ off ∧ off ≤ 0x6C then (v.extractLsb' 0 16).signExtend 32
  else 0

/-! ### What a running command keeps -/

/-- Where the cursor may stand in each phase of `RUN` (10_state.md R47, 40_dispatch.md R133). -/
def CursorFits (c : Command) (s : State) : Prop :=
  s.cx.toNat ≤ s.width ∧
    match c.dir with
    | .vertical =>
      (s.phase ≠ .complete → s.cx.toNat + stripWidth s ≤ s.width ∧ (s.narrow = true → s.cx = 0) ∧ s.cx.toNat % 8 = 0) ∧
        (s.phase = .tile → s.cy.toNat < s.height) ∧ s.cy.toNat ≤ s.height
    | .horizontal =>
      s.cy.toNat ≤ s.height ∧ (s.phase ≠ .complete → s.cy.toNat < s.height) ∧
        (s.phase = .tile → s.cx.toNat + tileWidth s ≤ s.width ∧ (s.narrow = true → s.cx = 0) ∧ s.cx.toNat % 8 = 0)

/-- How many lanes the current strip has: columns in a vertical command, rows in a horizontal one (40_dispatch.md R124). -/
def stripLanes (c : Command) (s : State) : Nat :=
  match c.dir with
  | .vertical => stripWidth s
  | .horizontal => stripHeight s

/-- The sample that lane `l` of window entry `e` stands for at the current cursor: `S(CY + e, CX + l)` in a vertical
command, `S(CY + l, CX + e)` in a horizontal one (10_state.md R41, R42). -/
def windowSample (c : Command) (s : State) (e : Nat) (l : Fin 8) : Sample :=
  match c.dir with
  | .vertical => launchSample c s (s.cy.toNat + e) (s.cx.toNat + l)
  | .horizontal => launchSample c s (s.cy.toNat + l) (s.cx.toNat + e)

/-- What the window holds between the prime and the end of a strip: in entries 0..taps-2 the carried rows (columns) of
`S`, in the lanes of the strip; every other lane invalid (10_state.md R41, R42). -/
def WindowHolds (c : Command) (s : State) : Prop :=
  ∀ (e : Nat) (l : Fin 8), windowLane s.win e l =
    if e + 1 < tapsOf c ∧ l.val < stripLanes c s then some (windowSample c s e l) else none

/-- Which outputs the cursor says are written (10_state.md R50). -/
def OutputWritten (c : Command) (s : State) (r col : Nat) : Prop :=
  match s.phase with
  | .idle | .dispatch => False
  | .complete => True
  | .prime =>
    match c.dir with
    | .vertical => col < s.cx.toNat
    | .horizontal => r < s.cy.toNat
  | .tile =>
    match c.dir with
    | .vertical => col < s.cx.toNat ∨ (col < s.cx.toNat + stripWidth s ∧ r < s.cy.toNat)
    | .horizontal => r < s.cy.toNat ∨ (r < s.cy.toNat + stripHeight s ∧ col < s.cx.toNat)

/-- The engine's steps see the source footprint as it was at the accepted `START` (20_memory.md R72, R79; log 6, log 9). -/
def SourceUntouched (c : Command) (s : State) : Prop :=
  ∀ a : Word, (sourcePlane c s).holds a = true → s.startByte a = Memory.readByte s.launchMem a.toNat

/-- What holds of a command in its `RUN` phase: it is legal, in ordinary memory and not empty, its cursor fits, its window
holds what the rules say of the samples of `START`, its source is untouched, and, where the host keeps off and outputs
share no address, every output behind the cursor has its reference value. -/
structure PassInv (c : Command) (s : State) : Prop where
  legal : LegalDescriptor c s
  ordinary : OrdinaryMemory c s
  width_pos : 0 < s.width
  height_pos : 0 < s.height
  cursor : CursorFits c s
  window : s.phase = .tile → WindowHolds c s
  source : SourceUntouched c s
  written : HostKeepsOff s → DestDistinct s → ∀ r < s.height, ∀ col < s.width, OutputWritten c s r col →
    Memory.readSample s.mem (destAddr s r col) = referenceSample c s r col

/-- The engine is in `RUN` (10_state.md R49). -/
def State.running (s : State) : Bool := s.phase == .prime || s.phase == .tile || s.phase == .complete

/-- The invariant of the machine: memories in canonical form; `DONE` and `ERR` never both, neither while busy, `ECODE`
a code of an error exactly while `ERR` is set (10_state.md R29, 60_exceptions.md R210); no accumulator holds a value
between steps (10_state.md R48); the window invalid while no tile can read it (10_state.md R46); the reset state while
`RESET` is asserted (70_reset_and_hazards.md R240); and `PassInv` in `RUN`. -/
structure Inv (s : State) : Prop where
  mem : Memory.wf s.mem = true
  launchMem : Memory.wf s.launchMem = true
  oneFlag : ¬(s.done = true ∧ s.err = true)
  busyFlags : s.busy = true → s.done = false ∧ s.err = false
  code : (s.err = true ↔ s.ecode ≠ 0) ∧ s.ecode.toNat ≤ 7
  acc : s.acc = Vector.replicate 8 none
  windowIdle : s.phase = .idle ∨ s.phase = .dispatch → s.win = emptyWindow
  atReset : s.resetLine = true → s = { State.reset with
    mem := s.mem, resetLine := true, unmapped := s.unmapped, devices := s.devices, launchMem := s.launchMem,
    launches := s.launches, rdata := s.rdata, raced := s.raced, inbox := s.inbox }
  started : s.phase = .dispatch → s.cx = 0 ∧ s.cy = 0 ∧
    ∀ i, s.decoded = .ok i → LegalDescriptor (commandOf i) s → SourceUntouched (commandOf i) s
  run : s.running = true → ∃ i, s.decoded = .ok i ∧ PassInv (commandOf i) s

/-- What a tile step of `rows` by `cols` outputs at the cursor owes whatever the direction (41_vertical.md R153,
42_horizontal.md R173): where no order of accesses can show the tile's outputs have their reference values, every other
byte is the same, the event that let the engine move is used up, no register and no flag changes. -/
structure TileDone (c : Command) (s t : State) (rest : List Event) (rows cols : Nat) : Prop where
  frame : EngineFrame s t
  inbox : t.inbox = rest
  flags : t.done = s.done ∧ t.err = s.err ∧ t.ecode = s.ecode
  acc : t.acc = s.acc
  written : Uncontested c s → ∀ r col, s.cy.toNat ≤ r → r < s.cy.toNat + rows → s.cx.toNat ≤ col →
    col < s.cx.toNat + cols → Memory.readSample t.mem (destAddr s r col) = referenceSample c s r col
  others : ∀ a : Word, (∀ r col, s.cy.toNat ≤ r → r < s.cy.toNat + rows → s.cx.toNat ≤ col → col < s.cx.toNat + cols →
    a ≠ destAddr s r col ∧ a ≠ destAddr s r col + 1) → Memory.readByte t.mem a.toNat = Memory.readByte s.mem a.toNat

/-- `n` steps of the machine, up to the first stop. -/
def runSteps : Nat → State → Host.Outcome State Fault Refusal
  | 0, s => .next s
  | n + 1, s =>
    match step s with
    | .next t => runSteps n t
    | .fault f => .fault f
    | .refused r => .refused r

/-! ### The accesses of a command -/

/-- The window coordinates an engine step reads, in order (41_vertical.md R152, R153; 42_horizontal.md R172, R173). -/
def stepReads (c : Command) (s : State) : List (Nat × Nat) :=
  match s.phase with
  | .prime => (primeLoads c (stripStart c s)).map fun ld => (ld.row, ld.col)
  | .tile => (tileLoads c s).map fun ld => (ld.row, ld.col)
  | _ => []

/-- The output coordinates an engine step writes, in order. -/
def stepWrites (c : Command) (s : State) : List (Nat × Nat) :=
  match s.phase with
  | .tile => (tileOutputs c s).map fun o => (o.row, o.col)
  | _ => []

/-- The coordinates that at most `n` engine steps read, in order, when no access fails. -/
def runReads (c : Command) : Nat → State → List (Nat × Nat)
  | 0, _ => []
  | n + 1, s =>
    match engineStep c s with
    | .next t => stepReads c s ++ runReads c n t
    | _ => []

/-- The output coordinates that at most `n` engine steps write, in order, when no access fails. -/
def runWrites (c : Command) : Nat → State → List (Nat × Nat)
  | 0, _ => []
  | n + 1, s =>
    match engineStep c s with
    | .next t => stepWrites c s ++ runWrites c n t
    | _ => []

end Sys2Proof.Machine
end

