-- ==== Sys2Proof/Certificates/Slice0/Obligations.lean ====
section
/-! DEFINITION. The statements about the model, for the provers. Each docstring names the rule of spec/ it formalises;
where a clause rests on a choice of the model it names the log entry. -/

open Sys2Proof Sys2Proof.Machine

/-! ### Encoding -/

/-- 30_encoding.md R91, R96, R101: encoding a well-formed instruction and decoding it gives it back, every field at every
value its bits admit. -/
def Obligations.DecodeUndoesEncode : Prop :=
  ∀ i : Instr, i.wellFormed = true → decode (encode i) = .ok i

/-- 30_encoding.md R91, R97: what the decoder reads is well-formed, and encoding it gives back the word's 16 existing
bits. -/
def Obligations.EncodeUndoesDecode : Prop :=
  ∀ (w : Word) (i : Instr), decode w = .ok i → i.wellFormed = true ∧ encode i = w &&& 0xFFFF

/-- 30_encoding.md R97: the decoder is total, masks bits 31:16, reads the five fields of R91 and returns one of the six
commands, or "reserved" exactly when `TAPS` = 0b11. -/
def Obligations.DecoderReadsFiveFields : Prop :=
  ∀ w : Word,
    let n := w.toNat % 65536
    let bd := n / 8 % 32
    let fbits := n / 256 % 16
    let round0 := n / 4096 % 16
    decode w = decode (w &&& 0xFFFF) ∧
      (n % 8 = 0 → decode w = .ok (.vfilt6 bd fbits round0)) ∧
      (n % 8 = 1 → decode w = .ok (.vfilt8 bd fbits round0)) ∧
      (n % 8 = 2 → decode w = .ok (.vfilt12 bd fbits round0)) ∧
      (n % 8 = 4 → decode w = .ok (.hfilt6 bd fbits round0)) ∧
      (n % 8 = 5 → decode w = .ok (.hfilt8 bd fbits round0)) ∧
      (n % 8 = 6 → decode w = .ok (.hfilt12 bd fbits round0)) ∧
      (n % 4 = 3 → decode w = .error (.reservedOpcode (n % 8)))

/-- 30_encoding.md R91, R96: six command words written out from the bit layout decode to their commands. -/
def Obligations.SampleWordsDecode : Prop :=
  decode 0b0000_0111_01010_000 = .ok (.vfilt6 10 7 0) ∧
    decode 0b0000_0111_01010_001 = .ok (.vfilt8 10 7 0) ∧
    decode 0b0000_0111_01100_010 = .ok (.vfilt12 12 7 0) ∧
    decode 0b0011_0111_01010_100 = .ok (.hfilt6 10 7 3) ∧
    decode 0b0111_0111_01000_101 = .ok (.hfilt8 8 7 7) ∧
    decode 0b0101_0111_01100_110 = .ok (.hfilt12 12 7 5)

/-! ### The step and the instruction -/

/-- 10_state.md R20, 30_encoding.md R90: when the engine is busy, it is its turn and `CMD` decodes to `i`, the machine's
step is the meaning of `i`; nothing is added around it. An idle engine starts nothing by itself and keeps all registers
(10_state.md R52, 60_exceptions.md R234, 70_reset_and_hazards.md R240): with no event waiting its step changes nothing, with
an `engine` event waiting it uses that up (log 2). A `WAIT` at `BUSY` = 0 ends with the host's read of `STATUS` and changes
nothing else (30_encoding.md R102, log 23). -/
def Obligations.StepRunsDecodedInstruction : Prop :=
  (∀ (i : Instr) (s : State), s.phase ≠ .idle → s.decoded = .ok i → EngineIsNext s → step s = exec i s) ∧
    ∀ s : State, s.phase = .idle →
      (s.inbox = [] → step s = .next s) ∧
      (∀ rest, s.inbox = .engine :: rest → step s = .next { s with inbox := rest }) ∧
      ∀ rest, s.inbox = .wait :: rest →
        ∃ v, step s = .next { s with rdata := v, inbox := rest } ∧ v.getLsbD 0 = false ∧ v.getLsbD 1 = s.done ∧
          v.getLsbD 2 = s.err ∧ v.getLsbD 3 = false ∧ v.extractLsb' 4 4 = s.ecode ∧ v.extractLsb' 8 24 = 0

/-- The model's choice of log 5 (a word of the opcode table is written to `CMD` and started): the next step runs the
decoded instruction, which has just been started. -/
def Obligations.LoadedWordRuns : Prop :=
  ∀ (s : State) (nbits w : Nat) (i : Instr), decode (tableWord nbits w) = .ok i →
    step (s.withFetchWord nbits w) = exec i (s.withFetchWord nbits w) ∧
      (s.acc = Vector.replicate 8 none → JustStarted i (s.withFetchWord nbits w)) ∧ RunsToEnd (s.withFetchWord nbits w)

/-- 30_encoding.md R98, 60_exceptions.md R214: a started command with `TAPS` = 0b11 stops with `ERR_OPCODE` = 1, memory
untouched. -/
def Obligations.ReservedOpcodeStops : Prop :=
  ∀ s : State, s.phase = .dispatch → s.cmd.getLsbD 0 = true → s.cmd.getLsbD 1 = true → EngineIsNext s →
    ∃ t, step s = .next t ∧ StoppedWith 1 s t ∧ t.mem = s.mem

/-- 20_memory.md R73 and U10 of 93_implementation_defined.md, read as log 13 says: a legal launch one of whose footprints
lies in memory with access side effects is refused at its dispatch step, and nothing else is. That no other launch is
refused, though the rules let a model refuse one that breaks a host obligation (R79, U4) or wraps round (R67), is the
model's choice (log 6, log 8). -/
def Obligations.OnlyDeviceLaunchesRefused : Prop :=
  ∀ (i : Instr) (s : State) (r : Refusal),
    exec i s = .refused r ↔
      r = .deviceLaunch ∧ s.phase = .dispatch ∧ LegalDescriptor (commandOf i) s ∧ ¬OrdinaryMemory (commandOf i) s

/-! ### Starting, checking and ending a command -/

/-- 40_dispatch.md R120: the write to `CTRL`: `IE` first; a 1 in bit 0 starts a command if `BUSY` = 0 (with `DONE` or
`ERR` set or not), and is ignored without any indication otherwise; and the worked example after reset. The clauses on
`launchMem`, `launches` and `raced` are the model's own note of the launch (log 17). -/
def Obligations.StartFollowsItsRule : Prop :=
  (∀ (s : State) (v : Word) (rest : List Event), s.inbox = .host (.regWrite 0x04 v) :: rest → s.resetLine = false →
    (v.getLsbD 0 = true → s.phase = .idle →
      step s = .next { s with
        inbox := rest, ie := v.getLsbD 1, done := false, err := false, ecode := 0, phase := .dispatch, cx := 0, cy := 0,
        win := emptyWindow, launchMem := s.mem, launches := s.launches + 1, raced := [] }) ∧
    (v.getLsbD 0 = true → s.phase ≠ .idle → step s = .next { s with inbox := rest, ie := v.getLsbD 1 }) ∧
    (v.getLsbD 0 = false → step s = .next { s with inbox := rest, ie := v.getLsbD 1 })) ∧
  ∃ t u, runSteps 1 { State.reset with inbox := [.host (.regWrite 0x04 1)] } = .next t ∧ statusWord t = 0x1 ∧
    runSteps 1 t = .next u ∧ statusWord u = 0x24

/-- 40_dispatch.md R122: the six checks on the descriptor, in order; the first that fails stops the command with its code,
memory untouched. `dispatchCode` reads the checks from the register bits. -/
def Obligations.LegalityChecksInOrder : Prop :=
  ∀ (s : State) (code : BitVec 4), s.phase = .dispatch → EngineIsNext s → dispatchCode s = some code →
    ∃ t, step s = .next t ∧ StoppedWith code s t ∧ t.mem = s.mem ∧ t.acc = s.acc ∧ t.cx = s.cx ∧ t.cy = s.cy

/-- 40_dispatch.md R122: where none of the six checks fails, `CMD` holds one of the six commands and its descriptor is
legal, and the other way round. -/
def Obligations.NoCheckFailsIffLegal : Prop :=
  ∀ s : State, dispatchCode s = none ↔ ∃ i, s.decoded = .ok i ∧ LegalDescriptor (commandOf i) s

/-- 40_dispatch.md R121: the dispatch step of a legal command with outputs, in ordinary memory (log 13), makes no access and
hands over to the pass. -/
def Obligations.DispatchHandsOver : Prop :=
  ∀ (i : Instr) (s : State) (rest : List Event), s.phase = .dispatch → s.inbox = .engine :: rest →
    LegalDescriptor (commandOf i) s → OrdinaryMemory (commandOf i) s → 0 < s.width → 0 < s.height →
    exec i s = .next { s with inbox := rest, phase := .prime }

/-- 40_dispatch.md R125: a legal command with `W` = 0 or `H` = 0 completes at once, with no memory access. -/
def Obligations.ZeroDimensionsComplete : Prop :=
  ∀ (i : Instr) (s : State), JustStarted i s → LegalDescriptor (commandOf i) s → s.width = 0 ∨ s.height = 0 →
    ∃ t, exec i s = .next t ∧ Completed s t ∧ t.mem = s.mem ∧ t.inbox = (dropEngineEvent s).inbox

/-- 40_dispatch.md R131: the completion step, of a command whose tiles are all produced, whatever happened between its
engine steps: idle, `DONE`, the window invalid, nothing else changed (the cursor kept, log 18). Every output in which no
order of the accesses can show has its reference value, the others what the accesses leave in some order (20_memory.md
R77, R79, U3, U4, read as log 6 and log 9 say). -/
def Obligations.CompletionStep : Prop :=
  ∀ (i : Instr) (s : State), Inv s → s.decoded = .ok i → s.phase = .complete →
    ∃ t, exec i s = .next t ∧
      t = { dropEngineEvent s with phase := .idle, done := true, win := emptyWindow, mem := t.mem } ∧
      OutsideDestSame s t ∧
      (Uncontested (commandOf i) s → t.mem = s.mem) ∧
      (∀ r < s.height, ∀ col < s.width, Undisturbed (commandOf i) s r col →
        Memory.readSample t.mem (destAddr s r col) = referenceSample (commandOf i) s r col) ∧
      ∃ o : AccessOrder, DestinationIs s t (orderedMemory (commandOf i) s o fun _ _ => true)

/-- 70_reset_and_hazards.md R257, 40_dispatch.md R132: a started command, legal or not, its addresses answering or not,
ends in one run with exactly one of `DONE` and `ERR`, `ECODE` saying which error. (A legal launch at a device is refused,
log 13.) -/
def Obligations.StartedCommandEnds : Prop :=
  ∀ (i : Instr) (s : State), JustStarted i s → RunsToEnd s →
    (LegalDescriptor (commandOf i) s → OrdinaryMemory (commandOf i) s) →
    ∃ t, exec i s = .next t ∧ t.phase = .idle ∧ EngineFrame s t ∧ OutsideDestSame s t ∧
      ((t.done = true ∧ t.err = false ∧ t.ecode = 0) ∨ (t.done = false ∧ t.err = true ∧ t.ecode ≠ 0))

/-- 60_exceptions.md R221: the engine's step in which `BUSY` falls leaves exactly one of `DONE` and `ERR` set. -/
def Obligations.LastStepSetsOneFlag : Prop :=
  ∀ s t : State, Inv s → s.busy = true → EngineIsNext s → step s = .next t → t.busy = false →
    (t.done = true ∧ t.err = false ∧ t.ecode = 0) ∨ (t.done = false ∧ t.err = true ∧ t.ecode ≠ 0)

/-! ### The commands -/

/-- 41_vertical.md R155 to R157: each vertical command, launched as the spec asks, completes, and output `(r, c)` is
`clamp(roundShift(sum TAP[k]*S(r+k, c), F), 0, 2^bd - 1)` over its 6, 8 or 12 taps, the window base `off` rows above
`SRC`; its frame is that of `Completed`. -/
def Obligations.VerticalCommandsComplete : Prop :=
  ∀ (bd fbits round0 : Nat) (s : State),
    (Launch (.vfilt6 bd fbits round0) s → ∃ t, exec (.vfilt6 bd fbits round0) s = .next t ∧ Completed s t ∧
      t.inbox = s.inbox ∧ OutputsAre s t (verticalValue 6 bd fbits (s.src - 4 * s.spitch) s)) ∧
    (Launch (.vfilt8 bd fbits round0) s → ∃ t, exec (.vfilt8 bd fbits round0) s = .next t ∧ Completed s t ∧
      t.inbox = s.inbox ∧ OutputsAre s t (verticalValue 8 bd fbits (s.src - 6 * s.spitch) s)) ∧
    (Launch (.vfilt12 bd fbits round0) s → ∃ t, exec (.vfilt12 bd fbits round0) s = .next t ∧ Completed s t ∧
      t.inbox = s.inbox ∧ OutputsAre s t (verticalValue 12 bd fbits (s.src - 10 * s.spitch) s))

/-- 42_horizontal.md R175 to R177: each horizontal command, launched as the spec asks, completes, and output `(r, c)` is
`clamp(roundShift(roundShift(sum TAP[k]*S(r, c+k), r0), F - r0), 0, 2^bd - 1)` over its 6, 8 or 12 taps, the window base
`off` columns left of `SRC`; its frame is that of `Completed`. -/
def Obligations.HorizontalCommandsComplete : Prop :=
  ∀ (bd fbits round0 : Nat) (s : State),
    (Launch (.hfilt6 bd fbits round0) s → ∃ t, exec (.hfilt6 bd fbits round0) s = .next t ∧ Completed s t ∧
      t.inbox = s.inbox ∧ OutputsAre s t (horizontalValue 6 bd fbits round0 (s.src - 4) s)) ∧
    (Launch (.hfilt8 bd fbits round0) s → ∃ t, exec (.hfilt8 bd fbits round0) s = .next t ∧ Completed s t ∧
      t.inbox = s.inbox ∧ OutputsAre s t (horizontalValue 8 bd fbits round0 (s.src - 6) s)) ∧
    (Launch (.hfilt12 bd fbits round0) s → ∃ t, exec (.hfilt12 bd fbits round0) s = .next t ∧ Completed s t ∧
      t.inbox = s.inbox ∧ OutputsAre s t (horizontalValue 12 bd fbits round0 (s.src - 10) s))

/-- 40_dispatch.md R136: a command that completes without error, its footprints disjoint and its outputs at distinct
addresses, leaves the sample memory equal to that of the `START` except that every output holds `REFV` or `REFH`. -/
def Obligations.MemoryMeetsReference : Prop :=
  ∀ (i : Instr) (s t : State), JustStarted i s → RunsToEnd s → NoAlias (commandOf i) s → DestDistinct s →
    exec i s = .next t → t.done = true →
    OutsideDestSame s t ∧ OutputsAre s t (commandValue (commandOf i) s)

/-- 20_memory.md R77, R79 and U4 of 93_implementation_defined.md, read as log 6 and log 8 say: a legal command in ordinary
memory whose addresses answer completes even where its footprints overlap or its outputs share addresses. What it leaves
follows from accesses in some order that R77 allows, each read returning what the memory holds at that moment; an output
on which no other output lies, nor on a sample of its support, has its reference value, in place or not. -/
def Obligations.OverlappingCommandCompletes : Prop :=
  ∀ (i : Instr) (s : State), JustStarted i s → RunsToEnd s → LegalDescriptor (commandOf i) s →
    FootprintsMapped (commandOf i) s → OrdinaryMemory (commandOf i) s →
    ∃ t, exec i s = .next t ∧ Completed s t ∧ t.inbox = s.inbox ∧
      (∃ o : AccessOrder, DestinationIs s t (orderedMemory (commandOf i) s o fun _ _ => true)) ∧
      ∀ r < s.height, ∀ col < s.width, Undisturbed (commandOf i) s r col →
        sampleAt t.mem s.dst s.dpitch r col = commandValue (commandOf i) s r col

/-- 60_exceptions.md R216: a legal command with outputs, in ordinary memory, one of whose addresses does not answer, ends
with `ERR_BUS` = 7, run to its end or engine step by engine step: the prime or tile step that accesses such an address is
the one that stops, whatever the host has done before it. -/
def Obligations.UnmappedAddressStops : Prop :=
  (∀ (i : Instr) (s : State), JustStarted i s → RunsToEnd s → LegalDescriptor (commandOf i) s →
    OrdinaryMemory (commandOf i) s → 0 < s.width → 0 < s.height → ¬FootprintsMapped (commandOf i) s →
    ∃ t, exec i s = .next t ∧ StoppedWith 7 s t) ∧
  ∀ (i : Instr) (s : State) (rest : List Event), Inv s → s.decoded = .ok i → s.running = true →
    s.inbox = .engine :: rest →
    (∃ p ∈ stepReads (commandOf i) s, s.mapped (sourceAddr (commandOf i) s p.1 p.2) = false) ∨
      (∃ p ∈ stepWrites (commandOf i) s, s.mapped (destAddr s p.1 p.2) = false) →
    ∃ t, exec i s = .next t ∧ StoppedWith 7 s t ∧ t.inbox = rest

/-- 60_exceptions.md R216, R217: after `ERR_BUS` the source footprint is unchanged and each output holds the value it had at
`START` or its reference value; which one is the free value of log 7. A write that fails changes no byte: an output whose
address does not answer holds the value it had. The same of a single engine step that stops so. Where the host has raced
with the command or its footprints overlap (log 6, log 9), the outputs hold what the accesses leave in some order, some of
the outputs whose addresses answer written. -/
def Obligations.BusErrorLeavesMixture : Prop :=
  (∀ (i : Instr) (s t : State), JustStarted i s → RunsToEnd s → exec i s = .next t → t.ecode = 7 →
    OutsideDestSame s t ∧
      (NoAlias (commandOf i) s → ∀ k < (sourcePlane (commandOf i) s).rows, ∀ j < (sourcePlane (commandOf i) s).cols,
        Memory.readSample t.mem (sourceAddr (commandOf i) s k j) =
          Memory.readSample s.mem (sourceAddr (commandOf i) s k j)) ∧
      (∀ r < s.height, ∀ col < s.width, Undisturbed (commandOf i) s r col →
        sampleAt t.mem s.dst s.dpitch r col = sampleAt s.mem s.dst s.dpitch r col ∨
          s.mapped (destAddr s r col) = true ∧
            sampleAt t.mem s.dst s.dpitch r col = commandValue (commandOf i) s r col) ∧
      ∃ (o : AccessOrder) (written : Nat → Nat → Bool),
        (∀ r col, written r col = true → s.mapped (destAddr s r col) = true) ∧
          DestinationIs s t (orderedMemory (commandOf i) s o written)) ∧
  ∀ (i : Instr) (s t : State) (rest : List Event), Inv s → s.decoded = .ok i → s.running = true →
    s.inbox = .engine :: rest → exec i s = .next t → t.ecode = 7 →
    OutsideDestSame s t ∧
      (NoAlias (commandOf i) s → ∀ k < (sourcePlane (commandOf i) s).rows, ∀ j < (sourcePlane (commandOf i) s).cols,
        Memory.readSample t.mem (sourceAddr (commandOf i) s k j) =
          Memory.readSample s.mem (sourceAddr (commandOf i) s k j)) ∧
      (∀ r < s.height, ∀ col < s.width, Undisturbed (commandOf i) s r col →
        Memory.readSample t.mem (destAddr s r col) = Memory.readSample s.launchMem (destAddr s r col) ∨
          s.mapped (destAddr s r col) = true ∧
            Memory.readSample t.mem (destAddr s r col) = referenceSample (commandOf i) s r col) ∧
      ∃ (o : AccessOrder) (written : Nat → Nat → Bool),
        (∀ r col, written r col = true → s.mapped (destAddr s r col) = true) ∧
          DestinationIs s t (orderedMemory (commandOf i) s o written)

/-- 43_round_clamp.md R197: every output of a command that completes lies in `[0, 2^bd - 1]`, whatever the taps and the
memory, its footprints overlapping or not. -/
def Obligations.OutputsInRange : Prop :=
  ∀ (i : Instr) (s t : State), JustStarted i s → RunsToEnd s → exec i s = .next t → t.done = true →
    ∀ r < s.height, ∀ col < s.width,
      0 ≤ sampleAt t.mem s.dst s.dpitch r col ∧ sampleAt t.mem s.dst s.dpitch r col ≤ 2 ^ (commandOf i).bd - 1

/-- 41_vertical.md R159 (a), 42_horizontal.md R181 (a): with `TAP[off] = 2^F`, the other taps 0 and every source sample at
most `maxv`, each output is the co-sited source sample, of every command and every legal `round_0`. -/
def Obligations.IdentityKernelCopies : Prop :=
  ∀ (i : Instr) (s : State), Launch i s →
    (∀ k < tapsOf (commandOf i), tapValue s k =
      if k = tapsOf (commandOf i) / 2 - 1 then 2 ^ (commandOf i).fbits else 0) →
    (∀ k < (sourcePlane (commandOf i) s).rows, ∀ j < (sourcePlane (commandOf i) s).cols,
      ((Memory.readSample s.mem (sourceAddr (commandOf i) s k j)).toNat : Int) ≤ 2 ^ (commandOf i).bd - 1) →
    ∃ t, exec i s = .next t ∧ Completed s t ∧ OutputsAre s t (sampleAt s.mem s.src s.spitch)

/-- 41_vertical.md R159 (b), 42_horizontal.md R181 (b): an all-zero source gives an all-zero output, for any kernel. -/
def Obligations.ZeroSourceGivesZero : Prop :=
  ∀ (i : Instr) (s : State), Launch i s →
    (∀ k < (sourcePlane (commandOf i) s).rows, ∀ j < (sourcePlane (commandOf i) s).cols,
      Memory.readSample s.mem (sourceAddr (commandOf i) s k j) = 0) →
    ∃ t, exec i s = .next t ∧ Completed s t ∧ OutputsAre s t (fun _ _ => 0)

/-- 30_encoding.md R99: in a vertical command `ROUND0` is ignored whatever its value. -/
def Obligations.VerticalIgnoresRound0 : Prop :=
  ∀ (bd fbits r r' : Nat) (s : State),
    exec (.vfilt6 bd fbits r) s = exec (.vfilt6 bd fbits r') s ∧
      exec (.vfilt8 bd fbits r) s = exec (.vfilt8 bd fbits r') s ∧
      exec (.vfilt12 bd fbits r) s = exec (.vfilt12 bd fbits r') s

/-- 10_state.md R22, 30_encoding.md R99: the taps from `TAP[taps]` on are ignored and kept: two launches that differ only
in them give the same memory, each with its own taps. -/
def Obligations.UnusedTapsIgnored : Prop :=
  ∀ (i : Instr) (s : State) (taps' : Vector Coeff 12), Launch i s →
    (∀ k : Fin 12, k.val < tapsOf (commandOf i) → taps'[k] = s.taps[k]) →
    ∃ t t', exec i s = .next t ∧ exec i { s with taps := taps' } = .next t' ∧ t.done = true ∧ t'.done = true ∧
      t.taps = s.taps ∧ t'.taps = taps' ∧
      ∀ a : Word, Memory.readByte t'.mem a.toNat = Memory.readByte t.mem a.toNat

/-! ### What every engine step leaves alone -/

/-- 20_memory.md R82, 10_state.md R22: no command in any state writes a register other than `STATUS`: descriptor, taps and
`IE` keep their values, and so do the `RESET` input, the platform and what the host read last. -/
def Obligations.EngineWritesNoRegister : Prop :=
  ∀ (i : Instr) (s t : State), exec i s = .next t → EngineFrame s t

/-- 20_memory.md R72, 40_dispatch.md R130: no engine step writes a byte outside the destination footprint. -/
def Obligations.EngineWritesOnlyDestination : Prop :=
  ∀ s t : State, Inv s → EngineIsNext s → step s = .next t → OutsideDestSame s t

/-! ### The engine steps of a pass -/

/-- 41_vertical.md R152, 42_horizontal.md R172: the prime of a strip loads the carried entries of the window and changes
nothing else; the cursor is at the strip's start. (What samples a race gives is settled at the
command's end, log 6.) -/
def Obligations.PrimeFillsWindow : Prop :=
  ∀ (i : Instr) (s : State) (rest : List Event), Inv s → s.decoded = .ok i → s.phase = .prime →
    s.inbox = .engine :: rest → FootprintsMapped (commandOf i) s →
    ∃ t, exec i s = .next t ∧ t.phase = .tile ∧ (Uncontested (commandOf i) s → WindowHolds (commandOf i) t) ∧
      t.mem = s.mem ∧ t.acc = s.acc ∧ t.inbox = rest ∧ EngineFrame s t ∧ t.done = s.done ∧ t.err = s.err ∧
      t.ecode = s.ecode ∧
      match (commandOf i).dir with
      | .vertical => t.cx = s.cx ∧ t.cy = 0
      | .horizontal => t.cx = 0 ∧ t.cy = s.cy

/-- 41_vertical.md R153, 40_dispatch.md R128, R133: a vertical tile step writes `min(4, H - CY)` rows of the strip and
nothing else (what samples a race gives is settled at the command's end, log 6); the window slides; `CY` advances; at the
strip's end the next strip is primed 8 columns on, or the command is complete. -/
def Obligations.VerticalTileStep : Prop :=
  ∀ (i : Instr) (s : State) (rest : List Event), Inv s → s.decoded = .ok i → (commandOf i).dir = .vertical →
    s.phase = .tile → s.inbox = .engine :: rest → FootprintsMapped (commandOf i) s →
    let th := min 4 (s.height - s.cy.toNat)
    ∃ t, exec i s = .next t ∧ TileDone (commandOf i) s t rest th (if s.width ≤ 4 then s.width else 8) ∧
      t.cy.toNat = s.cy.toNat + th ∧
      (s.cy.toNat + th < s.height → t.phase = .tile ∧ t.cx = s.cx ∧
        (Uncontested (commandOf i) s → WindowHolds (commandOf i) t)) ∧
      (s.cy.toNat + th = s.height → 4 < s.width → s.cx.toNat + 8 < s.width →
        t.phase = .prime ∧ t.cx.toNat = s.cx.toNat + 8) ∧
      (s.cy.toNat + th = s.height → s.width ≤ 4 ∨ s.cx.toNat + 8 = s.width → t.phase = .complete)

/-- 42_horizontal.md R173, 40_dispatch.md R129, R133: a horizontal tile step writes `tw` columns of the strip's rows and
nothing else (what samples a race gives is settled at the command's end, log 6); the window slides; `CX` advances; at the
strip's end the next strip is primed `sh` rows on, or the command is complete. -/
def Obligations.HorizontalTileStep : Prop :=
  ∀ (i : Instr) (s : State) (rest : List Event), Inv s → s.decoded = .ok i → (commandOf i).dir = .horizontal →
    s.phase = .tile → s.inbox = .engine :: rest → FootprintsMapped (commandOf i) s →
    let tw := if s.width ≤ 4 then s.width else 8
    let sh := if s.width ≤ 4 then min 2 (s.height - s.cy.toNat) else 1
    ∃ t, exec i s = .next t ∧ TileDone (commandOf i) s t rest sh tw ∧ t.cx.toNat = s.cx.toNat + tw ∧
      (s.cx.toNat + tw < s.width → t.phase = .tile ∧ t.cy = s.cy ∧
        (Uncontested (commandOf i) s → WindowHolds (commandOf i) t)) ∧
      (s.cx.toNat + tw = s.width → s.cy.toNat + sh < s.height →
        t.phase = .prime ∧ t.cy.toNat = s.cy.toNat + sh) ∧
      (s.cx.toNat + tw = s.width → s.cy.toNat + sh = s.height → t.phase = .complete)

/-- 20_memory.md R70: a command that completes reads each coordinate of its source footprint exactly once, and no other. -/
def Obligations.SourceReadOnce : Prop :=
  ∀ (i : Instr) (s : State), JustStarted i s → LegalDescriptor (commandOf i) s → FootprintsMapped (commandOf i) s →
    OrdinaryMemory (commandOf i) s →
    (runReads (commandOf i) (stepBound s) s).Nodup ∧
      ∀ p, p ∈ runReads (commandOf i) (stepBound s) s ↔
        p.1 < (sourcePlane (commandOf i) s).rows ∧ p.2 < (sourcePlane (commandOf i) s).cols

/-- 20_memory.md R71: a command that completes writes each coordinate of its destination footprint exactly once, and no
other. -/
def Obligations.DestinationWrittenOnce : Prop :=
  ∀ (i : Instr) (s : State), JustStarted i s → LegalDescriptor (commandOf i) s → FootprintsMapped (commandOf i) s →
    OrdinaryMemory (commandOf i) s →
    (runWrites (commandOf i) (stepBound s) s).Nodup ∧
      ∀ p, p ∈ runWrites (commandOf i) (stepBound s) s ↔ p.1 < s.height ∧ p.2 < s.width

/-! ### Arithmetic -/

/-- 43_round_clamp.md R194: `roundShift` is `floor((x + 2^(s-1)) / 2^s)`, the integer nearest to `x / 2^s` with an exact
half going up, and `x` itself for `s` = 0; the rule's five examples. -/
def Obligations.RoundShiftHalfUp : Prop :=
  (∀ x : Int, roundShift x 0 = x) ∧
    (∀ (x : Int) (s : Nat), 1 ≤ s →
      roundShift x s = Int.fdiv (x + 2 ^ (s - 1)) (2 ^ s) ∧
        -(2 ^ (s - 1)) ≤ x - 2 ^ s * roundShift x s ∧ x - 2 ^ s * roundShift x s < 2 ^ (s - 1)) ∧
    roundShift 64 7 = 1 ∧ roundShift (-64) 7 = 0 ∧ roundShift (-65) 7 = -1 ∧ roundShift 192 7 = 2 ∧
    roundShift (-192) 7 = -1

/-- 43_round_clamp.md R195: the laws of `roundShift`: monotone, sign, exact on multiples, zero, and when two shifts are
one. -/
def Obligations.RoundShiftLaws : Prop :=
  (∀ (x y : Int) (s : Nat), x ≤ y → roundShift x s ≤ roundShift y s) ∧
    (∀ (x : Int) (s : Nat), (0 ≤ x → 0 ≤ roundShift x s) ∧ (x < 0 → roundShift x s ≤ 0)) ∧
    (∀ (m : Int) (s : Nat), roundShift (m * 2 ^ s) s = m) ∧
    (∀ s : Nat, roundShift 0 s = 0) ∧
    (∀ (x : Int) (a b : Nat), a = 0 ∨ b = 0 ∨ (2 ^ (a + b) : Int) ∣ x →
      roundShift (roundShift x a) b = roundShift x (a + b)) ∧
    ∃ (x : Int) (a b : Nat), roundShift (roundShift x a) b ≠ roundShift x (a + b)

/-- 43_round_clamp.md R196: the clamp returns 0 below 0, `maxv` above `maxv`, else the value; `maxv` for the nine bit
depths. -/
def Obligations.ClampSaturates : Prop :=
  (∀ (v : Int) (bd : Nat), (v < 0 → clamp v 0 (maxSample bd) = 0) ∧
    (maxSample bd < v → clamp v 0 (maxSample bd) = maxSample bd) ∧
    (0 ≤ v → v ≤ maxSample bd → clamp v 0 (maxSample bd) = v)) ∧
    [8, 9, 10, 11, 12, 13, 14, 15, 16].map maxSample = [255, 511, 1023, 2047, 4095, 8191, 16383, 32767, 65535]

/-- 43_round_clamp.md R192, R193: the 40-bit accumulator holds the exact sum of the products, of at most 12 taps and of
any part of them, at most 25769410560 in magnitude, and the rounding constant keeps it under `2^36`. -/
def Obligations.AccumulatorNeverOverflows : Prop :=
  ∀ (taps : List Coeff) (xs : List Sample), taps.length ≤ 12 →
    (macSum taps xs).toInt = exactSum taps xs ∧ |exactSum taps xs| ≤ 25769410560 ∧
      ∀ s ≤ 15, |exactSum taps xs + 2 ^ (s - 1)| < 2 ^ 36

/-- 42_horizontal.md R179: the two shifts of a horizontal command can differ from one (60 with `F` = 7, `r0` = 3 gives 1,
not 0), never by more than one; with `r0` = 0 or `r0` = `F` they are one, and the output is the vertical one. -/
def Obligations.TwoShiftsAreNotOne : Prop :=
  roundShift (roundShift 60 3) 4 = 1 ∧ roundShift 60 7 = 0 ∧
    (∀ (x : Int) (a b : Nat), |roundShift (roundShift x a) b - roundShift x (a + b)| ≤ 1) ∧
    ∀ (n : TapCount) (bd fbits round0 : Nat) (sum : Int), round0 = 0 ∨ round0 = fbits →
      roundAndClamp ⟨.horizontal, n, bd, fbits, round0⟩ sum = roundAndClamp ⟨.vertical, n, bd, fbits, 0⟩ sum

/-! ### Memory and addresses -/

/-- 20_memory.md R62 to R64: a sample is read and written little-endian, and a write changes its two bytes alone. -/
def Obligations.SamplesLittleEndian : Prop :=
  ∀ (m : Memory) (a : Word) (v : Sample),
    (Memory.readSample m a).toNat = (Memory.readByte m a.toNat).toNat + 256 * (Memory.readByte m (a + 1).toNat).toNat ∧
      (Memory.readByte (Memory.writeSample m a v) a.toNat).toNat = v.toNat % 256 ∧
      (Memory.readByte (Memory.writeSample m a v) (a + 1).toNat).toNat = v.toNat / 256 ∧
      ∀ x : Word, x ≠ a → x ≠ a + 1 →
        Memory.readByte (Memory.writeSample m a v) x.toNat = Memory.readByte m x.toNat

/-- 20_memory.md R66: the window base and the addresses of source and output samples, modulo 2^32. -/
def Obligations.AddressesAsStated : Prop :=
  ∀ (c : Command) (s : State) (i j : Nat),
    let off : Word := BitVec.ofNat 32 (tapsOf c / 2 - 1)
    (c.dir = .vertical → windowBase c s = s.src - 2 * off * s.spitch) ∧
      (c.dir = .horizontal → windowBase c s = s.src - 2 * off) ∧
      sourceAddr c s i j = windowBase c s + 2 * (BitVec.ofNat 32 i * s.spitch + BitVec.ofNat 32 j) ∧
      destAddr s i j = s.dst + 2 * (BitVec.ofNat 32 i * s.dpitch + BitVec.ofNat 32 j)

/-- 40_dispatch.md R127: the kernel is centred: the tap with index `off` multiplies the sample co-sited with the output.
The window coordinate of that tap has the co-sited address, and where that is the only tap that is not 0 the sum of the
output is the tap times the co-sited sample of the memory at `START`. -/
def Obligations.KernelIsCentred : Prop :=
  ∀ (c : Command) (s : State) (r col : Nat),
    (c.dir = .vertical → sourceAddr c s (r + offsetOf c) col =
      s.src + 2 * (BitVec.ofNat 32 r * s.spitch + BitVec.ofNat 32 col)) ∧
    (c.dir = .horizontal → sourceAddr c s r (col + offsetOf c) =
      s.src + 2 * (BitVec.ofNat 32 r * s.spitch + BitVec.ofNat 32 col)) ∧
    ∀ x : Int, (∀ k < tapsOf c, tapValue s k = if k = tapsOf c / 2 - 1 then x else 0) →
      exactSum (kernel c s) ((supportCoords c r col).map fun p => launchSample c s p.1 p.2) =
        x * sampleAt s.launchMem s.src s.spitch r col

/-- 20_memory.md R69: the source footprint, empty where `W` or `H` is 0. -/
def Obligations.SourceFootprint : Prop :=
  ∀ (c : Command) (s : State),
    (0 < s.width → 0 < s.height → c.dir = .vertical →
      (sourcePlane c s).rows = s.height + tapsOf c - 1 ∧ (sourcePlane c s).cols = s.width) ∧
    (0 < s.width → 0 < s.height → c.dir = .horizontal →
      (sourcePlane c s).rows = s.height ∧ (sourcePlane c s).cols = s.width + tapsOf c - 1) ∧
    (s.width = 0 ∨ s.height = 0 → (sourcePlane c s).rows = 0 ∧ (sourcePlane c s).cols = 0)

/-- 20_memory.md R65: every address a legal command forms is even. -/
def Obligations.AccessesAligned : Prop :=
  ∀ (c : Command) (s : State), LegalDescriptor c s → ∀ i j : Nat,
    (sourceAddr c s i j).toNat % 2 = 0 ∧ (destAddr s i j).toNat % 2 = 0

/-- 20_memory.md R71: with `DPITCH ≥ W` and no wrap-around distinct outputs have distinct addresses. -/
def Obligations.OutputsAtDistinctAddresses : Prop :=
  ∀ s : State, s.width ≤ s.dpitch.toNat →
    s.dst.toNat + 2 * ((s.height - 1) * s.dpitch.toNat + s.width) ≤ 2 ^ 32 → DestDistinct s

/-- 40_dispatch.md R126: the second command of a split block, `SRC` and `DST` `8q` columns on, reads and writes at `(r, c)`
the addresses of `(r, 8q + c)` of the whole block. -/
def Obligations.SplitBlockSameAddresses : Prop :=
  ∀ (c : Command) (s : State) (q i j : Nat),
    let t := { s with src := s.src + BitVec.ofNat 32 (16 * q), dst := s.dst + BitVec.ofNat 32 (16 * q) }
    sourceAddr c t i j = sourceAddr c s i (8 * q + j) ∧ destAddr t i j = destAddr s i (8 * q + j)

/-! ### The register port -/

/-- 10_state.md R24, R26 to R36: a register read returns the value of the rule and changes nothing but what the host has
read; reserved offsets and bits read 0, a tap reads sign-extended. -/
def Obligations.RegisterReadsArePure : Prop :=
  ∀ (s : State) (off : Nat) (rest : List Event), s.inbox = .host (.regRead off) :: rest → off % 4 = 0 → off ≤ 0xFC →
    ∃ v, step s = .next { s with rdata := v, inbox := rest } ∧
      (off = 0x00 → v = 0x56540100) ∧
      (off = 0x04 → v = if s.ie then 2 else 0) ∧
      (off = 0x08 → v.getLsbD 0 = s.busy ∧ v.getLsbD 1 = s.done ∧ v.getLsbD 2 = s.err ∧ v.getLsbD 3 = false ∧
        v.extractLsb' 4 4 = s.ecode ∧ v.extractLsb' 8 24 = 0) ∧
      (off = 0x0C → v = s.cmd.zeroExtend 32) ∧ (off = 0x10 → v = s.src) ∧ (off = 0x14 → v = s.spitch) ∧
      (off = 0x18 → v = s.dst) ∧ (off = 0x1C → v = s.dpitch) ∧ (off = 0x20 → v = s.size) ∧
      (∀ k : Fin 12, off = 0x40 + 4 * k.val → v = (s.taps[k]).signExtend 32) ∧
      (0x24 ≤ off ∧ off ≤ 0x3C ∨ 0x70 ≤ off → v = 0)

/-- 10_state.md R24, R26, R27, R28, R30 to R36: with the engine idle and `RESET` released, a write that starts nothing
followed by a read at the same offset returns the stored bits; every other defined offset reads as before, and no state
but the registers of the port and what the host has read changes. -/
def Obligations.RegistersReadBack : Prop :=
  ∀ (s : State) (off : Nat) (v : Word) (rest : List Event),
    s.inbox = .host (.regWrite off v) :: .host (.regRead off) :: rest → s.phase = .idle → s.resetLine = false →
    off % 4 = 0 → off ≤ 0xFC → off ≠ 0x08 → (off = 0x04 → v.getLsbD 0 = false) →
    ∃ t, runSteps 2 s = .next t ∧ t.rdata = readBack off v ∧
      (∀ off' : Nat, off' % 4 = 0 → off' ≤ 0xFC → off' ≠ off → registerWord t off' = registerWord s off') ∧
      t = { s with
        ie := t.ie, cmd := t.cmd, src := t.src, spitch := t.spitch, dst := t.dst, dpitch := t.dpitch, size := t.size,
        taps := t.taps, rdata := t.rdata, inbox := rest }

/-- 10_state.md R24, R25, R27: while `BUSY` = 1 a write to `CMD`, to an operand register, to a tap, to `ID` or to a reserved
offset changes nothing, and a write to `CTRL`, with a 1 for `START` or not, sets `IE` alone. -/
def Obligations.BusyGateDropsWrites : Prop :=
  ∀ (s : State) (off : Nat) (v : Word) (rest : List Event), s.inbox = .host (.regWrite off v) :: rest →
    s.busy = true → s.resetLine = false → off % 4 = 0 → off ≤ 0xFC →
    (off ≠ 0x04 → off ≠ 0x08 → step s = .next { s with inbox := rest }) ∧
      (off = 0x04 → step s = .next { s with ie := v.getLsbD 1, inbox := rest })

/-- 10_state.md R29, 60_exceptions.md R218: a write to `STATUS` clears `DONE` by a 1 in bit 1, `ERR` and `ECODE` by a 1 in
bit 2, at any time, and does nothing else. -/
def Obligations.StatusWriteOneToClear : Prop :=
  ∀ (s : State) (v : Word) (rest : List Event), s.inbox = .host (.regWrite 0x08 v) :: rest → s.resetLine = false →
    step s = .next { s with
      inbox := rest
      done := if v.getLsbD 1 then false else s.done
      err := if v.getLsbD 2 then false else s.err
      ecode := if v.getLsbD 2 then 0 else s.ecode }

/-- 60_exceptions.md R220: `IRQ` is `IE and (DONE or ERR)`: masked by `IE` = 0; low while a command runs, after an accepted
`START` and after both `STATUS` bits are cleared; and when the engine's last step of a command has been made, whether it
completed or stopped on an error, high exactly with `IE` = 1: so after a failed check of the dispatch step, and after a
completed launch. -/
def Obligations.InterruptFollowsStatus : Prop :=
  ∀ s : State,
    s.irq = (s.ie && (s.done || s.err)) ∧
      (s.ie = false → s.irq = false) ∧
      (Inv s → s.busy = true → s.irq = false) ∧
      (∀ rest, s.inbox = .host (.regWrite 0x08 6) :: rest → s.resetLine = false →
        ∃ t, step s = .next t ∧ t.irq = false) ∧
      (∀ v rest, s.inbox = .host (.regWrite 0x04 v) :: rest → s.resetLine = false → v.getLsbD 0 = true →
        s.phase = .idle → ∃ t, step s = .next t ∧ t.busy = true ∧ t.irq = false) ∧
      (∀ t, Inv s → s.busy = true → EngineIsNext s → step s = .next t → t.busy = false → t.irq = s.ie) ∧
      (∀ code, s.phase = .dispatch → EngineIsNext s → dispatchCode s = some code →
        ∃ t, step s = .next t ∧ t.err = true ∧ t.ecode = code ∧ t.irq = s.ie) ∧
      (∀ i, Launch i s → ∃ t, exec i s = .next t ∧ t.done = true ∧ t.irq = s.ie)

/-- 10_state.md R21 and U9 of 93_implementation_defined.md, read as log 10 says: a register-port access off the defined
offsets is refused, every other register access goes on. -/
def Obligations.OnlyUndefinedOffsetsRefused : Prop :=
  ∀ (s : State) (off : Nat) (v : Word) (rest : List Event),
    (s.inbox = .host (.regRead off) :: rest ∨ s.inbox = .host (.regWrite off v) :: rest →
      (off % 4 ≠ 0 ∨ 0xFC < off → step s = .refused (.undefinedPortAccess off)) ∧
      (off % 4 = 0 → off ≤ 0xFC → ∃ t, step s = .next t))

/-- 20_memory.md R68, R79, 70_reset_and_hazards.md R249, R250 and U3 of 93_implementation_defined.md, read as log 9 and
log 22 say: no access of the host to ordinary memory, of a byte or atomically of a sample, is refused or detected. A write
stores what it writes, and inside the footprints of a running legal command it is noted as a race (a command that stops at
dispatch has none, log 24); a read inside the destination of one returns what the accesses that come before it leave
there, in some order, no output written whose address does not answer (60_exceptions.md R216);
every other read what is in memory. An access to a device is refused (R73, log 13). -/
def Obligations.HostRacesAct : Prop :=
  ∀ (s : State) (rest : List Event),
    (∀ (a : Word) (b : Byte), s.inbox = .host (.memWrite a b) :: rest →
      (s.device a = true → step s = .refused (.deviceAccess a)) ∧
      (s.device a = false → ∃ t, step s = .next t ∧
        t = { s with inbox := rest, mem := Memory.writeByte s.mem a.toNat b, raced := t.raced } ∧
        HostNotes s t a (.byte a b))) ∧
    (∀ (i : BitVec 31) (v : Sample), s.inbox = .host (.sampleWrite i v) :: rest →
      (s.device (sampleAddr i) = true → step s = .refused (.deviceAccess (sampleAddr i))) ∧
      (s.device (sampleAddr i) = false → s.device (sampleAddr i + 1) = true →
        step s = .refused (.deviceAccess (sampleAddr i + 1))) ∧
      (s.device (sampleAddr i) = false → s.device (sampleAddr i + 1) = false → ∃ t, step s = .next t ∧
        t = { s with inbox := rest, mem := Memory.writeSample s.mem (sampleAddr i) v, raced := t.raced } ∧
        HostNotes s t (sampleAddr i) (.sample (sampleAddr i) v))) ∧
    (∀ a : Word, s.inbox = .host (.memRead a) :: rest →
      (s.device a = true → step s = .refused (.deviceAccess a)) ∧
      (s.device a = false → ∃ m, HostSees s a m ∧ ∃ t, step s = .next t ∧
        t = { s with inbox := rest, rdata := (Memory.readByte m a.toNat).zeroExtend 32, raced := t.raced })) ∧
    (∀ i : BitVec 31, s.inbox = .host (.sampleRead i) :: rest →
      (s.device (sampleAddr i) = true → step s = .refused (.deviceAccess (sampleAddr i))) ∧
      (s.device (sampleAddr i) = false → s.device (sampleAddr i + 1) = true →
        step s = .refused (.deviceAccess (sampleAddr i + 1))) ∧
      (s.device (sampleAddr i) = false → s.device (sampleAddr i + 1) = false →
        ∃ m, HostSees s (sampleAddr i) m ∧ ∃ t, step s = .next t ∧
          t = { s with inbox := rest, rdata := (Memory.readSample m (sampleAddr i)).zeroExtend 32, raced := t.raced })) ∧
    ∀ (i : Instr) (m : Memory), LegalDescriptor (commandOf i) s → MaySee (commandOf i) s m →
      ∀ r < s.height, ∀ col < s.width, Undisturbed (commandOf i) s r col →
        Memory.readSample m (destAddr s r col) = Memory.readSample s.launchMem (destAddr s r col) ∨
          s.mapped (destAddr s r col) = true ∧
            Memory.readSample m (destAddr s r col) = referenceSample (commandOf i) s r col

/-- 30_encoding.md R101: a command line's seven writes, given to an idle engine, leave the operands in their registers and
the command started; operands are numbers that fit their registers (log 25 speaks of others), and `launchMem` is the
model's note of the memory at `START` (log 17). -/
def Obligations.CommandLineStarts : Prop :=
  ∀ (ie : Bool) (d : Dir) (n : TapCount) (bd fbits round0 src spitch dst dpitch w h : Nat) (s : State)
    (rest : List Event), s.phase = .idle → s.resetLine = false →
    s.inbox = commandEvents ie d n bd fbits round0 src spitch dst dpitch w h ++ rest → bd < 32 → fbits < 16 →
    round0 < 16 → w < 65536 → h < 65536 → src < 2 ^ 32 → spitch < 2 ^ 32 → dst < 2 ^ 32 → dpitch < 2 ^ 32 →
    ∃ t i, runSteps 7 s = .next t ∧ t.decoded = .ok i ∧ commandOf i = ⟨d, n, bd, fbits, round0⟩ ∧
      t.src.toNat = src ∧ t.spitch.toNat = spitch ∧ t.dst.toNat = dst ∧ t.dpitch.toNat = dpitch ∧
      t.width = w ∧ t.height = h ∧ t.taps = s.taps ∧ t.ie = ie ∧
      t.phase = .dispatch ∧ t.done = false ∧ t.err = false ∧ t.ecode = 0 ∧ t.cx = 0 ∧ t.cy = 0 ∧ t.mem = s.mem ∧
      t.launchMem = s.mem ∧ t.inbox = rest

/-! ### Reset -/

/-- 10_state.md R52: the reset state, register by register as the host and the engine see it. -/
def Obligations.ResetStateAsStated : Prop :=
  let s := State.reset
  registerWord s 0x00 = 0x56540100 ∧ s.ie = false ∧ s.busy = false ∧ s.done = false ∧ s.err = false ∧ s.ecode = 0 ∧
    registerWord s 0x0C = 0 ∧ s.src = 0 ∧ s.spitch = 0 ∧ s.dst = 0 ∧ s.dpitch = 0 ∧ s.width = 0 ∧ s.height = 0 ∧
    (∀ k : Fin 12, s.taps[k] = 0) ∧ (∀ (e : Fin 19) (l : Fin 8), windowLane s.win e l = none) ∧ s.cx = 0 ∧ s.cy = 0 ∧
    (∀ l : Fin 8, s.acc[l] = none) ∧ s.phase = .idle ∧ s.irq = false

/-- 70_reset_and_hazards.md R240: asserting `RESET` with no access of a command under way, the engine idle or in its
dispatch step, gives the reset state and changes no byte of memory. That a register write while it is asserted changes
nothing, that its release is an act of its own which changes nothing else, and that a command in its dispatch step has
written nothing is log 19 (DEDUCED); that `launchMem`, `launches`, `rdata` and `raced` are kept is log 17. -/
def Obligations.ResetGivesResetState : Prop :=
  ∀ (s : State) (rest : List Event),
    (s.inbox = .host .assertReset :: rest → s.phase = .idle ∨ s.phase = .dispatch →
      step s = .next { State.reset with
        mem := s.mem, resetLine := true, unmapped := s.unmapped, devices := s.devices, launchMem := s.launchMem,
        launches := s.launches, rdata := s.rdata, raced := s.raced, inbox := rest }) ∧
    (∀ (off : Nat) (v : Word), s.inbox = .host (.regWrite off v) :: rest → s.resetLine = true → off % 4 = 0 →
      off ≤ 0xFC → step s = .next { s with inbox := rest }) ∧
    (s.inbox = .host .releaseReset :: rest → step s = .next { s with inbox := rest, resetLine := false })

/-- 70_reset_and_hazards.md R241: `RESET` during a command's pass abandons it: the descriptor, the taps, `IE`, the window
and the cursor are lost, every field of the block being as after reset; no `DONE`, `ERR` or `IRQ`, no byte outside the
destination changes, and each output holds its value at `START` or its reference value (the free choice of log 7); where
the host has raced with the command or its footprints overlap (log 6, log 9) the outputs hold what the accesses leave in
some order, some of the outputs written. No output is written whose address does not answer (60_exceptions.md R216). The
fields that are kept are the platform's and the model's own (log 11, log 13, log 17). -/
def Obligations.ResetAbandonsCommand : Prop :=
  ∀ (i : Instr) (s : State) (rest : List Event), Inv s → s.running = true → s.decoded = .ok i →
    s.inbox = .host .assertReset :: rest →
    ∃ t, step s = .next t ∧
      t = { State.reset with
        mem := t.mem, resetLine := true, unmapped := s.unmapped, devices := s.devices, launchMem := s.launchMem,
        launches := s.launches, rdata := s.rdata, raced := s.raced, inbox := rest } ∧
      t.busy = false ∧ t.done = false ∧ t.err = false ∧ t.irq = false ∧ OutsideDestSame s t ∧
      (∀ r < s.height, ∀ col < s.width, Undisturbed (commandOf i) s r col →
        Memory.readSample t.mem (destAddr s r col) = Memory.readSample s.launchMem (destAddr s r col) ∨
          s.mapped (destAddr s r col) = true ∧
            Memory.readSample t.mem (destAddr s r col) = referenceSample (commandOf i) s r col) ∧
      ∃ (o : AccessOrder) (written : Nat → Nat → Bool),
        (∀ r col, written r col = true → s.mapped (destAddr s r col) = true) ∧
          DestinationIs s t (orderedMemory (commandOf i) s o written)

/-! ### The invariant -/

/-- The reset state has the invariant (10_state.md R52). -/
def Obligations.ResetHasInvariant : Prop := Inv State.reset

/-- Every step of every agent, from every state with the invariant, keeps it (10_state.md R29, R41, R42, R46 to R48,
60_exceptions.md R210, 70_reset_and_hazards.md R240, 40_dispatch.md R136). -/
def Obligations.EveryStepKeepsInvariant : Prop :=
  ∀ s t : State, Inv s → step s = .next t → Inv t

/-- From a state with the invariant no step faults: no tile reads an invalid lane (log 16). -/
def Obligations.InvariantStatesNeverFault : Prop :=
  ∀ (s : State) (f : Fault), Inv s → step s ≠ .fault f
end

