-- ==== Sys2Proof/Laws/Arith.lean ====
section
/-! SUPPORT. The laws of the arithmetic: the accumulator never overflows, the rounding shift, the clamp, the range of an
output. -/

namespace Sys2Proof.Machine

open Sys2Proof

/-! ### The rounding shift and the clamp -/

@[simp] theorem roundShift_zero_shift (x : Int) : roundShift x 0 = x := rfl

theorem roundShift_pos (x : Int) {s : Nat} (h : s ≠ 0) : roundShift x s = (x + 2 ^ (s - 1)) / 2 ^ s := by
  simp [roundShift, h]

/-- `clamp` stays between its bounds. -/
theorem clamp_bounds (v : Int) {lo hi : Int} (h : lo ≤ hi) : lo ≤ clamp v lo hi ∧ clamp v lo hi ≤ hi := by
  unfold clamp
  split
  · omega
  · split <;> omega

theorem roundAndClamp_bounds (c : Command) (sum : Int) :
    0 ≤ roundAndClamp c sum ∧ roundAndClamp c sum ≤ maxSample c.bd := by
  have h : (0 : Int) ≤ maxSample c.bd := by
    have : (1 : Int) ≤ 2 ^ c.bd := one_le_pow₀ (by decide)
    unfold maxSample
    omega
  unfold roundAndClamp
  split <;> exact clamp_bounds _ h

/-- The container of an output holds exactly the clamped value, for every legal bit depth. -/
theorem outputSample_toNat (c : Command) (sum : Int) (hbd : c.bd ≤ 16) :
    ((outputSample c sum).toNat : Int) = roundAndClamp c sum := by
  obtain ⟨h0, h1⟩ := roundAndClamp_bounds c sum
  have hp : (2 : Int) ^ c.bd ≤ 2 ^ 16 := pow_le_pow_right₀ (by decide) hbd
  unfold maxSample at h1
  unfold outputSample
  rw [BitVec.toNat_ofInt]
  omega

/-! ### The accumulator -/

theorem coeff_bounds (t : Coeff) : -32768 ≤ t.toInt ∧ t.toInt ≤ 32767 := by
  have h1 := BitVec.le_toInt t
  have h2 := BitVec.toInt_lt (x := t)
  omega

theorem product_bounds (t : Coeff) (x : Sample) :
    -2147450880 ≤ t.toInt * (x.toNat : Int) ∧ t.toInt * (x.toNat : Int) ≤ 2147385345 := by
  obtain ⟨h1, h2⟩ := coeff_bounds t
  have h3 : (x.toNat : Int) ≤ 65535 := by have := x.isLt; omega
  have h4 : (0 : Int) ≤ (x.toNat : Int) := by omega
  constructor <;> nlinarith

/-- One multiply-add is exact while the accumulator is within 40 bits. -/
theorem macStep_toInt (acc : Acc) (t : Coeff) (x : Sample)
    (h : -(2 ^ 38) ≤ acc.toInt ∧ acc.toInt ≤ 2 ^ 38) :
    (macStep acc t x).toInt = acc.toInt + t.toInt * (x.toNat : Int) := by
  have hp := product_bounds t x
  have hx : (x.zeroExtend 40).toInt = (x.toNat : Int) := by
    have hlt := x.isLt
    rw [BitVec.toInt_eq_toNat_of_lt]
    · simp only [BitVec.truncate_eq_setWidth, BitVec.toNat_setWidth]
      omega
    · simp only [BitVec.truncate_eq_setWidth, BitVec.toNat_setWidth]
      omega
  have ht : (t.signExtend 40).toInt = t.toInt := BitVec.toInt_signExtend_of_le (by decide)
  unfold macStep
  rw [BitVec.toInt_add, BitVec.toInt_mul, hx, ht]
  rw [Int.bmod_eq_of_le (n := t.toInt * (x.toNat : Int)) (by omega) (by omega)]
  exact Int.bmod_eq_of_le (by omega) (by omega)

theorem exactSum_cons (t : Coeff) (ts : List Coeff) (x : Sample) (xs : List Sample) :
    exactSum (t :: ts) (x :: xs) = t.toInt * (x.toNat : Int) + exactSum ts xs := by
  simp [exactSum]

theorem macFold_toInt (ps : List (Coeff × Sample)) (acc : Acc) (n : Nat) (hlen : ps.length + n ≤ 12)
    (h1 : -((n : Int) * 2147450880) ≤ acc.toInt) (h2 : acc.toInt ≤ (n : Int) * 2147450880) :
    (ps.foldl (fun acc p => macStep acc p.1 p.2) acc).toInt =
      acc.toInt + (ps.map fun p => p.1.toInt * (p.2.toNat : Int)).sum := by
  induction ps generalizing acc n with
  | nil => simp
  | cons p ps ih =>
    simp only [List.length_cons] at hlen
    have hs := macStep_toInt acc p.1 p.2 (by constructor <;> omega)
    have hp := product_bounds p.1 p.2
    have ih := ih (macStep acc p.1 p.2) (n + 1) (by omega) (by push_cast; omega) (by push_cast; omega)
    simp only [List.foldl_cons, List.map_cons, List.sum_cons]
    rw [ih, hs]
    omega

/-- For at most twelve taps the accumulator's value is the exact sum (43_round_clamp.md R193). -/
theorem macSum_toInt (taps : List Coeff) (xs : List Sample) (h : taps.length ≤ 12) :
    (macSum taps xs).toInt = exactSum taps xs := by
  have hl : (taps.zip xs).length ≤ 12 := by simp only [List.length_zip]; omega
  have := macFold_toInt (taps.zip xs) 0 0 (by omega) (by simp) (by simp)
  simpa [macSum, exactSum] using this

theorem tapsOf_cases (c : Command) : tapsOf c = 6 ∨ tapsOf c = 8 ∨ tapsOf c = 12 := by
  unfold tapsOf
  cases c.tapCount <;> simp [tapNumber]

theorem tapsOf_bounds (c : Command) : 6 ≤ tapsOf c ∧ tapsOf c ≤ 12 := by
  rcases tapsOf_cases c with h | h | h <;> omega

theorem kernel_length (c : Command) (s : State) : (kernel c s).length = tapsOf c := by
  have := tapsOf_bounds c
  simp [kernel]
  omega

end Sys2Proof.Machine
end

