-- ==== Sys2Proof/Laws/Memory.lean ====
section
/-! SUPPORT. The laws of the sample memory: read after write, the frame of a write, the canonical form. -/

namespace Sys2Proof.Machine

open Sys2Proof

theorem Memory.readByte_insertCell (m : Memory) (a x : Nat) (b : Byte) (h : ∀ c ∈ m, c.1 ≠ a) :
    Memory.readByte (Memory.insertCell a b m) x = if x = a then b else Memory.readByte m x := by
  induction m with
  | nil => rfl
  | cons c m ih =>
    obtain ⟨k, v⟩ := c
    have hk : k ≠ a := h (k, v) (by simp)
    have ih := ih (fun c hc => h c (by simp [hc]))
    unfold Memory.insertCell
    split
    · rfl
    · simp only [Memory.readByte, ih]
      by_cases hx : x = k
      · simp [hx, hk]
      · simp [hx]

theorem Memory.readByte_erase (m : Memory) (a x : Nat) :
    (m.erase a).readByte x = if x = a then Memory.unlisted else m.readByte x := by
  induction m with
  | nil => simp [Memory.erase, Memory.readByte]
  | cons c m ih =>
    obtain ⟨k, v⟩ := c
    by_cases hk : k = a
    · have he : Memory.erase ((k, v) :: m) a = Memory.erase m a := by simp [Memory.erase, hk]
      rw [he, ih]
      by_cases hx : x = a
      · simp [hx]
      · simp [hx, Memory.readByte, hk]
    · have he : Memory.erase ((k, v) :: m) a = (k, v) :: Memory.erase m a := by simp [Memory.erase, hk]
      rw [he]
      simp only [Memory.readByte, ih]
      by_cases hx : x = k
      · simp [hx, hk]
      · simp [hx]

/-- What a byte write does, once: the byte written reads back, every other byte is as before. -/
theorem Memory.readByte_writeByte (m : Memory) (a x : Nat) (b : Byte) :
    (m.writeByte a b).readByte x = if x = a then b else m.readByte x := by
  unfold Memory.writeByte
  split
  · next hb => rw [Memory.readByte_erase, hb]
  · rw [Memory.readByte_insertCell _ _ _ _ (by simp [Memory.erase]), Memory.readByte_erase]
    split <;> rfl

/-- The bytes of a sample write, once: the two bytes of the sample, every other byte as before. -/
theorem Memory.readByte_writeSample (m : Memory) (a : Word) (v : Sample) (x : Nat) :
    (m.writeSample a v).readByte x =
      if x = (a + 1).toNat then v.extractLsb' 8 8
      else if x = a.toNat then v.extractLsb' 0 8 else m.readByte x := by
  simp only [Memory.writeSample, Memory.readByte_writeByte]

theorem Memory.readSample_writeSample_same (m : Memory) (a : Word) (v : Sample) :
    (m.writeSample a v).readSample a = v := by
  have hne : a.toNat ≠ (a + 1).toNat := by
    intro h
    have := BitVec.eq_of_toNat_eq h
    revert this
    bv_omega
  simp only [Memory.readSample, Memory.readByte_writeSample, hne, if_true, if_false]
  ext i hi
  simp only [BitVec.getElem_append, BitVec.getElem_extractLsb']
  split
  · simpa using BitVec.getLsbD_eq_getElem (by omega)
  · next h => simpa [Nat.add_sub_cancel' (Nat.not_lt.mp h)] using BitVec.getLsbD_eq_getElem (by omega)

/-- Two memories whose two bytes agree hold the same sample. -/
theorem Memory.readSample_congr {m n : Memory} {a : Word}
    (h0 : m.readByte a.toNat = n.readByte a.toNat)
    (h1 : m.readByte (a + 1).toNat = n.readByte (a + 1).toNat) :
    m.readSample a = n.readSample a := by
  simp only [Memory.readSample, h0, h1]

/-- A byte that is neither byte of the sample is as before. -/
theorem Memory.readByte_writeSample_other {m : Memory} {a b : Word} {v : Sample} (h0 : a ≠ b) (h1 : a ≠ b + 1) :
    (m.writeSample b v).readByte a.toNat = m.readByte a.toNat := by
  rw [Memory.readByte_writeSample, if_neg fun he => h1 (BitVec.eq_of_toNat_eq he),
    if_neg fun he => h0 (BitVec.eq_of_toNat_eq he)]

/-- The sample of another even address is not changed by a sample write. -/
theorem Memory.readSample_writeSample_other {m : Memory} {a b : Word} (ha : a.toNat % 2 = 0) (hb : b.toNat % 2 = 0)
    (h : a ≠ b) (v : Sample) : (m.writeSample b v).readSample a = m.readSample a := by
  have h1 : a.toNat ≠ (b + 1).toNat := by bv_omega
  have h2 : a.toNat ≠ b.toNat := fun he => h (BitVec.eq_of_toNat_eq he)
  have h3 : (a + 1).toNat ≠ (b + 1).toNat := by bv_omega
  have h4 : (a + 1).toNat ≠ b.toNat := by bv_omega
  apply Memory.readSample_congr
  · rw [Memory.readByte_writeSample, if_neg h1, if_neg h2]
  · rw [Memory.readByte_writeSample, if_neg h3, if_neg h4]

/-- Two memories with the same sample at an address have the same two bytes there. -/
theorem Memory.bytes_of_readSample {m n : Memory} {a : Word} (h : Memory.readSample m a = Memory.readSample n a) :
    Memory.readByte m a.toNat = Memory.readByte n a.toNat ∧
      Memory.readByte m (a + 1).toNat = Memory.readByte n (a + 1).toNat := by
  unfold Memory.readSample at h
  have e1 := congrArg (fun x : BitVec 16 => x.extractLsb' 0 8) h
  have e2 := congrArg (fun x : BitVec 16 => x.extractLsb' 8 8) h
  simp only [BitVec.extractLsb'_append_eq_right, BitVec.extractLsb'_append_eq_left] at e1 e2
  exact ⟨e1, e2⟩

/-! ### The canonical form -/

/-- Strictly rising addresses above `lo`, no unlisted value, inside the address space: the form as a recursion. -/
def Memory.risingFrom (lo : Nat) : Memory → Prop
  | [] => True
  | (a, b) :: m => lo ≤ a ∧ a < 2 ^ 32 ∧ b ≠ Memory.unlisted ∧ Memory.risingFrom (a + 1) m

theorem Memory.wf_iff_risingFrom (m : Memory) : m.wf = true ↔ Memory.risingFrom 0 m := by
  have key : ∀ (m : Memory) (a : Nat) (b : Byte) (lo : Nat), lo ≤ a →
      (Memory.wf ((a, b) :: m) = true ↔ Memory.risingFrom lo ((a, b) :: m)) := by
    intro m
    induction m with
    | nil =>
      intro a b lo hlo
      simp [Memory.wf, Memory.risingFrom, hlo]
    | cons c m ih =>
      intro a b lo hlo
      obtain ⟨k, v⟩ := c
      have hs := ih k v
      constructor
      · intro h
        simp only [Memory.wf, Bool.and_eq_true, decide_eq_true_eq, bne_iff_ne] at h
        obtain ⟨⟨hak, hb⟩, hrest⟩ := h
        have hr := (hs (a + 1) hak).mp hrest
        refine ⟨hlo, ?_, hb, hr⟩
        have := hr.2.1
        omega
      · intro h
        obtain ⟨_, _, hb, hr⟩ := h
        simp only [Memory.wf, Bool.and_eq_true, decide_eq_true_eq, bne_iff_ne]
        exact ⟨⟨hr.1, hb⟩, (hs (a + 1) hr.1).mpr hr⟩
  cases m with
  | nil => simp [Memory.wf, Memory.risingFrom]
  | cons c m => exact key m c.1 c.2 0 (Nat.zero_le _)

theorem Memory.risingFrom_mono {lo lo' : Nat} (h : lo' ≤ lo) {m : Memory} (hm : Memory.risingFrom lo m) :
    Memory.risingFrom lo' m := by
  cases m with
  | nil => trivial
  | cons c m => exact ⟨Nat.le_trans h hm.1, hm.2⟩

theorem Memory.risingFrom_erase (a : Nat) : ∀ (m : Memory) (lo : Nat),
    Memory.risingFrom lo m → Memory.risingFrom lo (m.erase a)
  | [], _, _ => trivial
  | (k, v) :: m, lo, ⟨h1, h2, h3, h4⟩ => by
    have ih := Memory.risingFrom_erase a m (k + 1) h4
    by_cases hk : k = a
    · have he : Memory.erase ((k, v) :: m) a = Memory.erase m a := by simp [Memory.erase, hk]
      rw [he]
      exact Memory.risingFrom_mono (by omega) ih
    · have he : Memory.erase ((k, v) :: m) a = (k, v) :: Memory.erase m a := by simp [Memory.erase, hk]
      rw [he]
      exact ⟨h1, h2, h3, ih⟩

theorem Memory.risingFrom_insertCell (a : Nat) (b : Byte) (ha : a < 2 ^ 32) (hb : b ≠ Memory.unlisted) :
    ∀ (m : Memory) (lo : Nat), Memory.risingFrom lo m → lo ≤ a → (∀ c ∈ m, c.1 ≠ a) →
      Memory.risingFrom lo (Memory.insertCell a b m)
  | [], _, _, hlo, _ => ⟨hlo, ha, hb, trivial⟩
  | (k, v) :: m, lo, ⟨h1, h2, h3, h4⟩, hlo, hne => by
    have hk : k ≠ a := hne (k, v) (by simp)
    unfold Memory.insertCell
    split
    · exact ⟨hlo, ha, hb, by omega, h2, h3, h4⟩
    · exact ⟨h1, h2, h3,
        Memory.risingFrom_insertCell a b ha hb m (k + 1) h4 (by omega) (fun c hc => hne c (by simp [hc]))⟩

/-- A byte write at an address of the space keeps the canonical form. -/
theorem Memory.wf_writeByte (m : Memory) (a : Nat) (b : Byte) (ha : a < 2 ^ 32) (h : m.wf = true) :
    (m.writeByte a b).wf = true := by
  rw [Memory.wf_iff_risingFrom] at h ⊢
  have he := Memory.risingFrom_erase a m 0 h
  unfold Memory.writeByte
  split
  · exact he
  · next hb => exact Memory.risingFrom_insertCell a b ha hb _ 0 he (Nat.zero_le _) (by simp [Memory.erase])

/-- A sample write keeps the canonical form. -/
theorem Memory.wf_writeSample (m : Memory) (a : Word) (v : Sample) (h : m.wf = true) :
    (m.writeSample a v).wf = true :=
  Memory.wf_writeByte _ _ _ (a + 1).isLt (Memory.wf_writeByte _ _ _ a.isLt h)

end Sys2Proof.Machine
end

