-- ==== Sys2Proof/Laws/Planes.lean ====
section
/-! SUPPORT. The laws of footprints: which bytes a plane holds, and how its sample addresses lie. -/

namespace Sys2Proof.Machine

open Sys2Proof

theorem Plane.addr_col (p : Plane) (r c : Nat) : p.addr r c = p.addr r 0 + BitVec.ofNat 32 (2 * c) := by
  unfold Plane.addr
  generalize BitVec.ofNat 32 r * p.pitch = x
  bv_omega

/-- A plane holds a byte exactly if the byte lies less than `2*cols` bytes on from the start of one of its rows. -/
theorem Plane.holds_iff (p : Plane) (a : Word) :
    p.holds a = true ↔ ∃ r < p.rows, (a - p.addr r 0).toNat < 2 * p.cols := by
  simp only [Plane.holds, Plane.rowsAt, Bool.not_eq_true', List.isEmpty_eq_false_iff, ne_eq,
    List.filter_eq_nil_iff, List.mem_range, decide_eq_true_eq]
  push Not
  rfl

/-- Both bytes of every sample of a plane are held by it. -/
theorem Plane.holds_sample (p : Plane) {r c : Nat} (hr : r < p.rows) (hc : c < p.cols) (hs : 2 * p.cols ≤ 2 ^ 32) :
    p.holds (p.addr r c) = true ∧ p.holds (p.addr r c + 1) = true := by
  constructor
  · refine (p.holds_iff _).mpr ⟨r, hr, ?_⟩
    rw [p.addr_col]
    generalize p.addr r 0 = x
    bv_omega
  · refine (p.holds_iff _).mpr ⟨r, hr, ?_⟩
    rw [p.addr_col]
    generalize p.addr r 0 = x
    bv_omega

theorem Plane.addr_even (p : Plane) (hb : p.base.toNat % 2 = 0) (r c : Nat) : (p.addr r c).toNat % 2 = 0 := by
  unfold Plane.addr
  generalize BitVec.ofNat 32 r * p.pitch = x
  bv_omega

/-- At even addresses a byte and the next one lie in the same sample, so a plane holds both or none. -/
theorem Plane.holds_next (p : Plane) (hb : p.base.toNat % 2 = 0) {a : Word} (ha : a.toNat % 2 = 0) :
    p.holds (a + 1) = p.holds a := by
  rw [Bool.eq_iff_iff, p.holds_iff, p.holds_iff]
  have key : ∀ r, (a + 1 - p.addr r 0).toNat < 2 * p.cols ↔ (a - p.addr r 0).toNat < 2 * p.cols := by
    intro r
    have hx := p.addr_even hb r 0
    generalize p.addr r 0 = x at hx
    have h1 : (a - x).toNat % 2 = 0 := by bv_omega
    have h2 : (a + 1 - x).toNat = (a - x).toNat + 1 := by bv_omega
    omega
  simp only [key]

/-- A held even address is the address of one of the plane's samples. -/
theorem Plane.holds_even (p : Plane) (hb : p.base.toNat % 2 = 0) {a : Word} (ha : a.toNat % 2 = 0)
    (h : p.holds a = true) : ∃ r < p.rows, ∃ c < p.cols, a = p.addr r c := by
  obtain ⟨r, hr, hlt⟩ := (p.holds_iff a).mp h
  have hx := p.addr_even hb r 0
  refine ⟨r, hr, (a - p.addr r 0).toNat / 2, by omega, ?_⟩
  rw [p.addr_col]
  generalize p.addr r 0 = x at hx hlt ⊢
  have h1 : (a - x).toNat % 2 = 0 := by bv_omega
  have h2 : 2 * ((a - x).toNat / 2) = (a - x).toNat := by omega
  rw [h2]
  bv_omega

/-- A held byte is one of the two bytes of one of the plane's samples (20_memory.md R61). -/
theorem Plane.byte_of_sample (p : Plane) {a : Word} (ha : p.holds a = true) :
    ∃ r < p.rows, ∃ c < p.cols, a = p.addr r c ∨ a = p.addr r c + 1 := by
  obtain ⟨r, hr, hlt⟩ := (p.holds_iff a).mp ha
  refine ⟨r, hr, (a - p.addr r 0).toNat / 2, by omega, ?_⟩
  rw [p.addr_col]
  generalize p.addr r 0 = x at hlt ⊢
  rcases Nat.mod_two_eq_zero_or_one (a - x).toNat with hm | hm
  · left
    rw [show 2 * ((a - x).toNat / 2) = (a - x).toNat by omega]
    bv_omega
  · right
    rw [show 2 * ((a - x).toNat / 2) = (a - x).toNat - 1 by omega]
    bv_omega

theorem even_of_lsb {a : Word} (h : a.getLsbD 0 = false) : a.toNat % 2 = 0 := by
  have := BitVec.getLsbD_eq_getElem (x := a) (i := 0) (by decide)
  rw [BitVec.getLsbD, Nat.testBit_zero] at h
  simpa using h

end Sys2Proof.Machine
end

