-- ==== Sys2Proof/Laws/Operands.lean ====
section
/-! SUPPORT. The laws of operands: what depends on the descriptor alone is the same in states with the same operands;
addresses, footprints, and what a fetch returns. -/

namespace Sys2Proof.Machine

open Sys2Proof

/-- A state that differs in none of its operands has the same operands. -/
theorem sameOperands_of_eq {s t : State} {ie done err resetLine : Bool} {phase : Phase} {ecode : BitVec 4} {win : Window}
    {cx cy : BitVec 16} {acc : Vector (Option Acc) 8} {mem : List Host.Cell} {rdata : Word} {raced : List HostAccess}
    {inbox : List Event} (h : t = { s with
      ie := ie, phase := phase, done := done, err := err, ecode := ecode, win := win, cx := cx, cy := cy, acc := acc
      mem := mem, resetLine := resetLine, rdata := rdata, raced := raced, inbox := inbox }) : SameOperands s t := by
  rw [h]
  constructor <;> rfl

theorem SameOperands.refl (s : State) : SameOperands s s := sameOperands_of_eq rfl

theorem SameOperands.symm {s t : State} (h : SameOperands s t) : SameOperands t s := by
  cases h
  constructor <;> symm <;> assumption

theorem SameOperands.trans {s t u : State} (h : SameOperands s t) (k : SameOperands t u) : SameOperands s u := by
  constructor
  · exact k.cmd.trans h.cmd
  · exact k.src.trans h.src
  · exact k.spitch.trans h.spitch
  · exact k.dst.trans h.dst
  · exact k.dpitch.trans h.dpitch
  · exact k.size.trans h.size
  · exact k.taps.trans h.taps
  · exact k.unmapped.trans h.unmapped
  · exact k.devices.trans h.devices
  · exact k.launchMem.trans h.launchMem
  · exact k.launches.trans h.launches

theorem EngineFrame.refl (s : State) : EngineFrame s s := by
  constructor
  · exact SameOperands.refl s
  all_goals rfl

theorem EngineFrame.trans {s t u : State} (h : EngineFrame s t) (k : EngineFrame t u) : EngineFrame s u := by
  constructor
  · exact h.operands.trans k.operands
  · exact k.ie.trans h.ie
  · exact k.resetLine.trans h.resetLine
  · exact k.rdata.trans h.rdata
  · exact k.raced.trans h.raced

namespace SameOperands

variable {s t : State} (h : SameOperands s t) (c : Command)

include h

theorem decoded : t.decoded = s.decoded := by simp only [State.decoded, h.cmd]

theorem width : t.width = s.width := by simp only [State.width, h.size]

theorem height : t.height = s.height := by simp only [State.height, h.size]

theorem narrow : t.narrow = s.narrow := by simp only [State.narrow, h.width]

theorem stripWidth : stripWidth t = stripWidth s := by
  simp only [Sys2Proof.Machine.stripWidth, h.narrow, h.width]

theorem tileWidth : tileWidth t = tileWidth s := by
  simp only [Sys2Proof.Machine.tileWidth, h.narrow, h.width]

theorem kernel : kernel c t = kernel c s := by simp only [Sys2Proof.Machine.kernel, h.taps]

theorem firstError : firstError c t = firstError c s := by
  simp only [Sys2Proof.Machine.firstError, h.width, h.spitch, h.dpitch, h.src, h.dst]

theorem mapped (a : Word) : t.mapped a = s.mapped a := by simp only [State.mapped, h.unmapped]

theorem windowBase : windowBase c t = windowBase c s := by
  simp only [Sys2Proof.Machine.windowBase, h.src, h.spitch]

theorem sourcePlane : sourcePlane c t = sourcePlane c s := by
  simp only [Sys2Proof.Machine.sourcePlane, h.width, h.height, h.windowBase, h.spitch]

theorem destPlane : destPlane t = destPlane s := by
  simp only [Sys2Proof.Machine.destPlane, h.width, h.height, h.dst, h.dpitch]

theorem sourceAddr (i j : Nat) : sourceAddr c t i j = sourceAddr c s i j := by
  simp only [Sys2Proof.Machine.sourceAddr, h.sourcePlane]

theorem destAddr (r col : Nat) : destAddr t r col = destAddr s r col := by
  simp only [Sys2Proof.Machine.destAddr, h.destPlane]

theorem sourceCoords : sourceCoords c t = sourceCoords c s := by
  simp only [Sys2Proof.Machine.sourceCoords, h.sourcePlane]

theorem destCoords : destCoords t = destCoords s := by
  simp only [Sys2Proof.Machine.destCoords, h.width, h.height]

theorem device (a : Word) : t.device a = s.device a := by simp only [State.device, h.devices]

theorem touchesDevice : touchesDevice c t = touchesDevice c s := by
  simp only [Sys2Proof.Machine.touchesDevice, h.devices, h.device, h.sourceCoords, h.destCoords, h.sourceAddr, h.destAddr]

theorem ordinary : OrdinaryMemory c t ↔ OrdinaryMemory c s := by
  simp only [OrdinaryMemory, h.sourcePlane, h.destPlane, h.device]

theorem launchSample : launchSample c t = launchSample c s := by
  funext i j
  simp only [Sys2Proof.Machine.launchSample, h.sourceAddr, h.launchMem]

theorem outputFrom : outputFrom c t = outputFrom c s := by
  funext got r col
  simp only [Sys2Proof.Machine.outputFrom, h.kernel]

theorem referenceSample (r col : Nat) : referenceSample c t r col = referenceSample c s r col := by
  simp only [Sys2Proof.Machine.referenceSample, h.launchSample, h.outputFrom]

theorem destDistinct : DestDistinct t ↔ DestDistinct s := by
  simp only [DestDistinct, h.width, h.height, h.destAddr]

theorem noAlias : NoAlias c t ↔ NoAlias c s := by
  simp only [NoAlias, h.sourcePlane, h.sourceAddr, h.destPlane]

theorem legalDescriptor : LegalDescriptor c t ↔ LegalDescriptor c s := by
  simp only [LegalDescriptor, h.firstError]

theorem stepBound : stepBound t = stepBound s := by
  simp only [Sys2Proof.Machine.stepBound, h.width, h.height]

theorem footprintsMapped : FootprintsMapped c t ↔ FootprintsMapped c s := by
  simp only [FootprintsMapped, h.width, h.height, h.sourcePlane, h.sourceAddr, h.destAddr, h.mapped]

end SameOperands

/-! ### Legal descriptors -/

/-- What the six checks give: the bit depth, the shift, the width, the pitches, the alignment (40_dispatch.md R122). -/
theorem firstError_eq_none {c : Command} {s : State} :
    firstError c s = none ↔
      (8 ≤ c.bd ∧ c.bd ≤ 16) ∧ (c.dir = .horizontal → c.round0 ≤ c.fbits) ∧
        (s.width ≤ 4 ∨ s.width % 8 = 0) ∧ (s.width ≤ s.spitch.toNat ∧ s.width ≤ s.dpitch.toNat) ∧
          s.src.getLsbD 0 = false ∧ s.dst.getLsbD 0 = false := by
  unfold firstError
  constructor
  · intro h
    have pass : ∀ {p : Prop} [Decidable p] {e : ErrCause} {r : Option ErrCause},
        (if p then some e else r) = none → ¬p ∧ r = none := by
      intro p _ e r hp
      by_cases hq : p
      · rw [if_pos hq] at hp
        cases hp
      · exact ⟨hq, (if_neg hq).symm.trans hp⟩
    obtain ⟨hbd, h⟩ := pass h
    obtain ⟨hshift, h⟩ := pass h
    obtain ⟨hwidth, h⟩ := pass h
    obtain ⟨hpitch, h⟩ := pass h
    have halign := (pass h).1
    simp only [not_or, Bool.not_eq_true] at halign
    exact ⟨by omega, fun hd => Nat.le_of_not_lt fun hlt => hshift ⟨hd, hlt⟩, by omega, by omega, halign⟩
  · rintro ⟨h1, h2, h3, h4, h5, h6⟩
    rw [if_neg (by omega), if_neg (by rintro ⟨hd, hlt⟩; exact absurd (h2 hd) (by omega)), if_neg (by omega),
      if_neg (by omega), if_neg (by rw [h5, h6]; decide)]

theorem width_lt (s : State) : s.width < 65536 := (s.size.extractLsb' 0 16).isLt

theorem height_lt (s : State) : s.height < 65536 := (s.size.extractLsb' 16 16).isLt

theorem destPlane_span (s : State) : 2 * (destPlane s).cols ≤ 2 ^ 32 := by
  have := width_lt s
  simp only [destPlane]
  omega

theorem sourcePlane_span (c : Command) (s : State) : 2 * (sourcePlane c s).cols ≤ 2 ^ 32 := by
  have := width_lt s
  have := tapsOf_bounds c
  unfold sourcePlane
  split
  · simp
  · split <;> simp only <;> omega

theorem destPlane_even {c : Command} {s : State} (h : LegalDescriptor c s) : (destPlane s).base.toNat % 2 = 0 :=
  even_of_lsb (firstError_eq_none.mp h).2.2.2.2.2

theorem windowBase_even {c : Command} {s : State} (h : LegalDescriptor c s) : (windowBase c s).toNat % 2 = 0 := by
  have hs := even_of_lsb (firstError_eq_none.mp h).2.2.2.2.1
  unfold windowBase
  split
  · rw [BitVec.mul_assoc]
    generalize BitVec.ofNat 32 (offsetOf c) * s.spitch = x
    bv_omega
  · bv_omega

theorem sourcePlane_base (c : Command) (s : State) : (sourcePlane c s).base = windowBase c s := by
  unfold sourcePlane
  split
  · rfl
  · split <;> rfl

theorem sourcePlane_even {c : Command} {s : State} (h : LegalDescriptor c s) :
    (sourcePlane c s).base.toNat % 2 = 0 := by
  rw [sourcePlane_base]
  exact windowBase_even h

theorem sourceAddr_even {c : Command} {s : State} (h : LegalDescriptor c s) (i j : Nat) :
    (sourceAddr c s i j).toNat % 2 = 0 := Plane.addr_even _ (sourcePlane_even h) i j

theorem destAddr_even {c : Command} {s : State} (h : LegalDescriptor c s) (r col : Nat) :
    (destAddr s r col).toNat % 2 = 0 := Plane.addr_even _ (destPlane_even h) r col

/-- The shapes of the footprints of a non-empty command (20_memory.md R69). -/
theorem sourcePlane_shape (c : Command) (s : State) (hw : 0 < s.width) (hh : 0 < s.height) :
    (sourcePlane c s).rows = (match c.dir with | .vertical => s.height + tapsOf c - 1 | .horizontal => s.height) ∧
      (sourcePlane c s).cols = (match c.dir with | .vertical => s.width | .horizontal => s.width + tapsOf c - 1) := by
  unfold sourcePlane
  rw [if_neg (by omega)]
  cases c.dir <;> exact ⟨rfl, rfl⟩

/-! ### Destination addresses -/

/-- A byte outside the destination footprint is no byte of an output. -/
theorem ne_destAddr_of_not_holds {s : State} {a : Word} (ha : (destPlane s).holds a = false) {r col : Nat}
    (hr : r < s.height) (hc : col < s.width) : a ≠ destAddr s r col ∧ a ≠ destAddr s r col + 1 := by
  have h := Plane.holds_sample (destPlane s) (r := r) (c := col) hr hc (destPlane_span s)
  constructor
  · rintro rfl
    rw [destAddr, h.1] at ha
    cases ha
  · rintro rfl
    rw [destAddr, h.2] at ha
    cases ha

/-- An even address that the destination of a legal command holds is the address of an output. -/
theorem output_of_holds {c : Command} {s : State} (hl : LegalDescriptor c s) {a : Word} (ha : a.toNat % 2 = 0)
    (h : (destPlane s).holds a = true) : ∃ r < s.height, ∃ col < s.width, a = destAddr s r col :=
  Plane.holds_even _ (destPlane_even hl) ha h

theorem mem_sourceCoords {c : Command} {s : State} {p : Nat × Nat} :
    p ∈ sourceCoords c s ↔ p.1 < (sourcePlane c s).rows ∧ p.2 < (sourcePlane c s).cols := by
  obtain ⟨i, j⟩ := p
  simp [sourceCoords]

theorem mem_destCoords {s : State} {p : Nat × Nat} : p ∈ destCoords s ↔ p.1 < s.height ∧ p.2 < s.width := by
  obtain ⟨r, col⟩ := p
  simp [destCoords]

/-- The model's test for a launch at a device is the one of the claims. -/
theorem ordinaryMemory_iff {c : Command} {s : State} : OrdinaryMemory c s ↔ touchesDevice c s = false := by
  have hnone : s.devices.isEmpty = true → ∀ a, s.device a = false := by
    intro h a
    rw [State.device, List.isEmpty_iff.mp h]
    rfl
  constructor
  · intro h
    unfold touchesDevice
    rw [Bool.and_eq_false_iff, Bool.or_eq_false_iff]
    refine Or.inr ⟨?_, ?_⟩
    · rw [List.any_eq_false]
      intro p hp
      obtain ⟨h1, h2⟩ := mem_sourceCoords.mp hp
      have hheld := Plane.holds_sample _ h1 h2 (sourcePlane_span c s)
      have e0 : s.device (sourceAddr c s p.1 p.2) = false := h _ (Or.inl hheld.1)
      have e1 : s.device (sourceAddr c s p.1 p.2 + 1) = false := h _ (Or.inl hheld.2)
      simp only [e0, e1]
      decide
    · rw [List.any_eq_false]
      intro p hp
      obtain ⟨h1, h2⟩ := mem_destCoords.mp hp
      have hheld := Plane.holds_sample (destPlane s) h1 h2 (destPlane_span s)
      have e0 : s.device (destAddr s p.1 p.2) = false := h _ (Or.inr hheld.1)
      have e1 : s.device (destAddr s p.1 p.2 + 1) = false := h _ (Or.inr hheld.2)
      simp only [e0, e1]
      decide
  · intro h a ha
    unfold touchesDevice at h
    rw [Bool.and_eq_false_iff, Bool.or_eq_false_iff, Bool.not_eq_false', List.any_eq_false, List.any_eq_false] at h
    rcases h with h | ⟨hs, hd⟩
    · exact hnone h a
    · have clear : ∀ x : Word, ¬(s.device x || s.device (x + 1)) = true → a = x ∨ a = x + 1 → s.device a = false := by
        intro x hx ha
        rw [Bool.not_eq_true, Bool.or_eq_false_iff] at hx
        rcases ha with rfl | rfl
        · exact hx.1
        · exact hx.2
      rcases ha with ha | ha
      · obtain ⟨i, hi, j, hj, he⟩ := Plane.byte_of_sample _ ha
        exact clear _ (hs (i, j) (mem_sourceCoords.mpr ⟨hi, hj⟩)) he
      · obtain ⟨r, hr, col, hc, he⟩ := Plane.byte_of_sample _ ha
        exact clear _ (hd (r, col) (mem_destCoords.mpr ⟨hr, hc⟩)) he

/-- Without devices all memory is ordinary. -/
theorem ordinaryMemory_of_none {c : Command} {s : State} (h : s.devices = []) : OrdinaryMemory c s := by
  intro a _
  rw [State.device, h]
  rfl

/-- An empty command has no footprint, so it touches no device. -/
theorem ordinaryMemory_of_empty {c : Command} {s : State} (h : s.width = 0 ∨ s.height = 0) : OrdinaryMemory c s := by
  have hs : sourceCoords c s = [] := by simp [sourceCoords, sourcePlane, if_pos h]
  have hd : destCoords s = [] := by
    rcases h with h | h <;> simp [destCoords, h]
  rw [ordinaryMemory_iff]
  simp [touchesDevice, hs, hd]

/-! ### When the order of accesses can show -/

theorem destDistinct_iff {s : State} :
    DestDistinct s ↔ ((destCoords s).map fun p => destAddr s p.1 p.2).Nodup := by
  have hnd : (destCoords s).Nodup := by
    unfold destCoords
    rw [List.nodup_flatMap]
    refine ⟨fun a _ => List.nodup_range.map fun x y h => (Prod.mk.inj h).2, List.nodup_range.imp ?_⟩
    intro a b hne
    rw [Function.onFun, List.disjoint_left]
    intro p hp hq
    obtain ⟨x, _, rfl⟩ := List.mem_map.mp hp
    obtain ⟨y, _, hy⟩ := List.mem_map.mp hq
    exact hne (Prod.mk.inj hy).1.symm
  constructor
  · intro h
    refine List.Nodup.map_on (fun p hp q hq he => ?_) hnd
    obtain ⟨hp1, hp2⟩ := mem_destCoords.mp hp
    obtain ⟨hq1, hq2⟩ := mem_destCoords.mp hq
    exact Prod.ext_iff.mpr (h _ hp1 _ hp2 _ hq1 _ hq2 he)
  · intro h r hr col hc r' hr' col' hc' he
    have := List.inj_on_of_nodup_map h (mem_destCoords.mpr ⟨hr, hc⟩ : (r, col) ∈ destCoords s)
      (mem_destCoords.mpr ⟨hr', hc'⟩ : (r', col') ∈ destCoords s) he
    exact Prod.mk.inj this

/-- The model's test for a contested command is the one of the claims. -/
theorem contested_eq_false {c : Command} {s : State} : contested c s = false ↔ Uncontested c s := by
  unfold contested Uncontested HostKeepsOff NoAlias
  rw [Bool.or_eq_false_iff, Bool.or_eq_false_iff, destDistinct_iff, and_assoc]
  refine and_congr ?_ (and_congr ?_ ?_)
  · simp
  · simp only [List.any_eq_false, mem_sourceCoords, Prod.forall, Bool.not_eq_true]
    exact ⟨fun h i hi j hj => h i j ⟨hi, hj⟩, fun h i j hij => h i hij.1 j hij.2⟩
  · simp

/-! ### The support of an output -/

/-- What is read of the support, as a list over the taps. -/
theorem supportCoords_map (c : Command) (f : Nat → Nat → Sample) (r col : Nat) :
    ((supportCoords c r col).map fun p => f p.1 p.2) = (List.range (tapsOf c)).map fun k =>
      match c.dir with
      | .vertical => f (r + k) col
      | .horizontal => f r (col + k) := by
  unfold supportCoords
  rw [List.map_map]
  refine List.map_congr_left fun k _ => ?_
  rw [Function.comp]
  cases c.dir <;> rfl

/-- The support of an output lies in the source footprint. -/
theorem supportCoords_source {c : Command} {s : State} {r col : Nat} (hr : r < s.height) (hc : col < s.width)
    {p : Nat × Nat} (hp : p ∈ supportCoords c r col) :
    p.1 < (sourcePlane c s).rows ∧ p.2 < (sourcePlane c s).cols := by
  have hshape := sourcePlane_shape c s (by omega) (by omega)
  unfold supportCoords at hp
  obtain ⟨k, hk, rfl⟩ := List.mem_map.mp hp
  rw [List.mem_range] at hk
  rw [hshape.1, hshape.2]
  cases c.dir <;> simp only <;> omega

/-- Where no order of the command's accesses can show, it can show in none of its outputs. -/
theorem Uncontested.undisturbed {c : Command} {s : State} (h : Uncontested c s) {r col : Nat} (hr : r < s.height)
    (hc : col < s.width) : Undisturbed c s r col := by
  obtain ⟨hw, ha, hd⟩ := h
  refine ⟨hw, fun r' hr' col' hc' hne => ⟨fun he => hne ?_, fun p hp he => ?_⟩⟩
  · obtain ⟨h1, h2⟩ := hd r' hr' col' hc' r hr col hc he
    rw [h1, h2]
  · obtain ⟨h1, h2⟩ := supportCoords_source hr hc hp
    have hfree := ha _ h1 _ h2
    have hheld := (Plane.holds_sample (destPlane s) (r := r') (c := col') hr' hc' (destPlane_span s)).1
    rw [← he] at hfree
    exact absurd (hheld.symm.trans hfree) (by decide)

/-! ### Fetches -/

theorem startByte_congr {s t : State} {a : Word} (ho : SameOperands s t) (hr : t.raced = s.raced)
    (hm : (destPlane s).holds a = false → Memory.readByte t.mem a.toNat = Memory.readByte s.mem a.toNat) :
    t.startByte a = s.startByte a := by
  unfold State.startByte
  rw [hr, ho.launchMem, ho.destPlane]
  cases hd : (destPlane s).holds a
  · rw [hm hd]
  · simp

/-- What a fetch returns when it answers: the sample of the launch, while the source is untouched. -/
theorem fetchSample_eq {c : Command} {s : State} (hs : SourceUntouched c s) {i j : Nat}
    (hi : i < (sourcePlane c s).rows) (hj : j < (sourcePlane c s).cols) :
    fetchSample c s i j = if s.mapped (sourceAddr c s i j) then some (launchSample c s i j) else none := by
  have hheld := Plane.holds_sample (sourcePlane c s) hi hj (sourcePlane_span c s)
  have h0 : s.startByte (sourceAddr c s i j) = _ := hs _ hheld.1
  have h1 : s.startByte (sourceAddr c s i j + 1) = _ := hs _ hheld.2
  unfold fetchSample launchSample State.startSample
  rw [h0, h1]
  rfl

end Sys2Proof.Machine
end

