-- ==== Sys2Proof/Laws/Access.lean ====
section
/-! SUPPORT. The laws of a step's accesses: the window after loads and after a slide, the state after outputs. -/

namespace Sys2Proof.Machine

open Sys2Proof

/-! ### The window -/

theorem windowLane_past (w : Window) {e : Nat} (h : 19 ≤ e) (l : Fin 8) : windowLane w e l = none := by
  simp [windowLane, Nat.not_lt.mpr h]

@[simp] theorem windowLane_empty (e : Nat) (l : Fin 8) : windowLane emptyWindow e l = none := by
  unfold windowLane
  split
  · simp [emptyWindow]
  · rfl

theorem windowLane_set (w : Window) {e : Nat} (he : e < 19) (l : Fin 8) (v : Sample) (e' : Nat) (l' : Fin 8) :
    windowLane (setWindowLane w e l v) e' l' = if e = e' ∧ l = l' then some v else windowLane w e' l' := by
  unfold windowLane setWindowLane
  rw [dif_pos he]
  by_cases he' : e' < 19
  · simp only [dif_pos he']
    by_cases hee : e = e'
    · subst hee
      by_cases hl : l = l'
      · subst hl
        simp
      · have hv : l.val ≠ l'.val := fun h => hl (Fin.ext h)
        simp [hl, hv]
    · simp [hee]
  · have : e ≠ e' := by omega
    simp [he', this]

/-- The window after a slide (10_state.md R44). -/
theorem windowLane_slide (w : Window) {taps : Nat} (ht : taps ≤ 12) (n e : Nat) (l : Fin 8) :
    windowLane (slideWindow w taps n) e l = if e + 1 < taps then windowLane w (e + n) l else none := by
  by_cases he : e < 19
  · simp [windowLane, slideWindow, he]
  · rw [windowLane_past _ (by omega), if_neg (by omega)]

/-! ### Loads -/

/-- What the loads of a step do, once: if no access fails, every lane that is the target of a load holds the fetched
sample and every other lane is as before. -/
theorem loadWindow_ok {c : Command} {s : State} {g : Nat → Fin 8 → Sample} :
    ∀ {lds : List Load} {w w' : Window},
      loadWindow c s lds w = some w' →
      (∀ ld ∈ lds, ld.entry < 19 ∧ ∀ v, fetchSample c s ld.row ld.col = some v → v = g ld.entry ld.lane) →
      ∀ e l, windowLane w' e l =
        if (∃ ld ∈ lds, ld.entry = e ∧ ld.lane = l) then some (g e l) else windowLane w e l
  | [], w, w', h, _, e, l => by
    simp only [loadWindow, Option.some.injEq] at h
    simp [h]
  | ld :: rest, w, w', h, hg, e, l => by
    unfold loadWindow at h
    split at h
    · cases h
    next v hv =>
      have hld := hg ld (by simp)
      have ih := loadWindow_ok h (fun x hx => hg x (by simp [hx])) e l
      rw [ih, windowLane_set _ hld.1]
      by_cases hr : ∃ x ∈ rest, x.entry = e ∧ x.lane = l
      · rw [if_pos hr, if_pos]
        obtain ⟨x, hx, hxe⟩ := hr
        exact ⟨x, by simp [hx], hxe⟩
      · rw [if_neg hr]
        by_cases hh : ld.entry = e ∧ ld.lane = l
        · rw [if_pos hh, if_pos ⟨ld, by simp, hh⟩, hld.2 v hv, hh.1, hh.2]
        · rw [if_neg hh, if_neg]
          rintro ⟨x, hx, hxe⟩
          rcases List.mem_cons.mp hx with rfl | hx
          · exact hh hxe
          · exact hr ⟨x, hx, hxe⟩

/-- Loads from addresses that all answer do not fail. -/
theorem loadWindow_isSome {c : Command} {s : State} :
    ∀ {lds : List Load} {w : Window}, (∀ ld ∈ lds, s.mapped (sourceAddr c s ld.row ld.col) = true) →
      ∃ w', loadWindow c s lds w = some w'
  | [], w, _ => ⟨w, rfl⟩
  | ld :: rest, w, h => by
    have hm := h ld (by simp)
    have : ∃ v, fetchSample c s ld.row ld.col = some v := by
      unfold fetchSample
      rw [if_pos hm]
      exact ⟨_, rfl⟩
    obtain ⟨v, hv⟩ := this
    unfold loadWindow
    rw [hv]
    exact loadWindow_isSome (fun x hx => h x (by simp [hx]))

/-! ### Outputs -/

theorem gatherSamples_eq {w : Window} {l : Fin 8} {g : Nat → Sample} :
    ∀ {n first : Nat}, (∀ k < n, windowLane w (first + k) l = some (g k)) →
      gatherSamples w l n first = some ((List.range n).map g)
  | 0, _, _ => rfl
  | n + 1, first, h => by
    have h0 : windowLane w first l = some (g 0) := h 0 (by omega)
    have ih := gatherSamples_eq (w := w) (l := l) (g := fun k => g (k + 1)) (n := n) (first := first + 1)
      (fun k hk => by
        have := h (k + 1) (by omega)
        rw [show first + 1 + k = first + (k + 1) by omega]
        exact this)
    unfold gatherSamples
    rw [h0, ih, List.range_succ_eq_map]
    simp [List.map_map, Function.comp_def]

theorem setAcc_setAcc (s : State) (l : Fin 8) (u v : Option Acc) : setAcc (setAcc s l u) l v = setAcc s l v := by
  simp [setAcc, Vector.set_set]

/-- What one output does, once: it needs the lane's samples, it fails on an address that does not answer, and otherwise
only memory and the lane's accumulator change. -/
theorem writeOutput_eq {c : Command} {s : State} {o : Output} {xs : List Sample}
    (h : gatherSamples s.win o.lane (tapsOf c) o.first = some xs) :
    writeOutput c s o =
      if s.mapped (destAddr s o.row o.col) then
        .ok { s with
          mem := Memory.writeSample s.mem (destAddr s o.row o.col) (outputSample c (exactSum (kernel c s) xs))
          acc := s.acc.set o.lane none }
      else .error .busError := by
  have hk : (kernel c s).length ≤ 12 := by
    rw [kernel_length]
    exact (tapsOf_bounds c).2
  have hheld : (setAcc s o.lane (some (macSum (kernel c s) xs))).acc[o.lane] =
      some (macSum (kernel c s) xs) := by simp [setAcc]
  unfold writeOutput
  rw [h]
  simp only [hheld, macSum_toInt _ _ hk]
  cases s.mapped (destAddr s o.row o.col)
  · simp
  · simp only [Bool.not_true, Bool.false_eq_true, if_false, if_true, Except.ok.injEq]
    simp [storeOutput, setAcc, Vector.set_set]

/-- The memory after a list of outputs with their reference values. -/
def outputsMemory (c : Command) (s : State) (outs : List Output) (m : Memory) : Memory :=
  outs.foldl (fun m o => m.writeSample (destAddr s o.row o.col) (referenceSample c s o.row o.col)) m

/-- The samples of the launch an output of a step is computed from. -/
def outputSupport (c : Command) (s : State) (o : Output) : List Sample :=
  (supportCoords c o.row o.col).map fun p => launchSample c s p.1 p.2

theorem outputSupport_congr {c : Command} {s t : State} (h : SameOperands s t) (o : Output) :
    outputSupport c t o = outputSupport c s o := by
  unfold outputSupport
  rw [h.launchSample]

/-- What the outputs of a step do, once: where every lane holds the support of its output and the accumulators hold
nothing, the outputs write their reference values, or the first address that does not answer is a bus error. -/
theorem writeOutputs_eq {c : Command} : ∀ {outs : List Output} {s : State},
    s.acc = Vector.replicate 8 none →
    (∀ o ∈ outs, gatherSamples s.win o.lane (tapsOf c) o.first = some (outputSupport c s o)) →
    writeOutputs c outs s =
      if (∀ o ∈ outs, s.mapped (destAddr s o.row o.col) = true) then
        .ok { s with mem := outputsMemory c s outs s.mem }
      else .error .busError
  | [], s, _, _ => by simp [writeOutputs, outputsMemory]
  | o :: rest, s, hacc, h => by
    have ho := writeOutput_eq (h o (by simp))
    have hset : s.acc.set o.lane none = s.acc := by
      rw [hacc]
      ext i hi
      simp
    unfold writeOutputs
    rw [ho]
    by_cases hm : s.mapped (destAddr s o.row o.col) = true
    · rw [if_pos hm]
      simp only
      rw [hset]
      have hsame : SameOperands s { s with
          mem := Memory.writeSample s.mem (destAddr s o.row o.col) (outputSample c (exactSum (kernel c s) (outputSupport c s o))) } :=
        sameOperands_of_eq rfl
      rw [writeOutputs_eq (outs := rest) (by exact hacc) (fun x hx => by
        rw [outputSupport_congr hsame]
        exact h x (by simp [hx]))]
      have hiff : (∀ x ∈ rest, s.mapped (destAddr s x.row x.col) = true) ↔
          ∀ x ∈ o :: rest, s.mapped (destAddr s x.row x.col) = true := by simp [hm]
      have hmem : outputsMemory c { s with
          mem := Memory.writeSample s.mem (destAddr s o.row o.col) (outputSample c (exactSum (kernel c s) (outputSupport c s o))) } rest
            (Memory.writeSample s.mem (destAddr s o.row o.col) (outputSample c (exactSum (kernel c s) (outputSupport c s o)))) =
          outputsMemory c s (o :: rest) s.mem := rfl
      simp only [hmem]
      exact if_congr hiff rfl rfl
    · rw [if_neg hm, if_neg]
      intro hall
      exact hm (hall o (by simp))

/-- A byte of no output among the outputs is not written by them. -/
theorem readByte_outputsMemory_other {c : Command} {s : State} {a : Word} :
    ∀ {outs : List Output} {m : Memory},
      (∀ o ∈ outs, a ≠ destAddr s o.row o.col ∧ a ≠ destAddr s o.row o.col + 1) →
      Memory.readByte (outputsMemory c s outs m) a.toNat = Memory.readByte m a.toNat
  | [], _, _ => rfl
  | o :: rest, m, h => by
    obtain ⟨h0, h1⟩ := h o (by simp)
    have ih := readByte_outputsMemory_other (c := c) (outs := rest)
      (m := m.writeSample (destAddr s o.row o.col) (referenceSample c s o.row o.col)) (fun x hx => h x (by simp [hx]))
    refine Eq.trans ih ?_
    exact Memory.readByte_writeSample_other h0 h1

/-- A byte outside the destination is not written by outputs of the footprint. -/
theorem readByte_outputsMemory_outside {c : Command} {s : State} {a : Word} (ha : (destPlane s).holds a = false)
    {outs : List Output} {m : Memory} (h : ∀ o ∈ outs, o.row < s.height ∧ o.col < s.width) :
    Memory.readByte (outputsMemory c s outs m) a.toNat = Memory.readByte m a.toNat :=
  readByte_outputsMemory_other fun o ho => ne_destAddr_of_not_holds ha (h o ho).1 (h o ho).2

theorem wf_outputsMemory {c : Command} {s : State} : ∀ {outs : List Output} {m : Memory}, m.wf = true →
    (outputsMemory c s outs m).wf = true
  | [], _, h => h
  | _ :: rest, _, h => wf_outputsMemory (outs := rest) (Memory.wf_writeSample _ _ _ h)

/-- With distinct destination addresses an output reads back as its reference value if it is among the outputs, and as
before otherwise. -/
theorem readSample_outputsMemory {c : Command} {s : State} (hl : LegalDescriptor c s) (hd : DestDistinct s)
    {r col : Nat} (hr : r < s.height) (hc : col < s.width) :
    ∀ {outs : List Output} {m : Memory}, (∀ o ∈ outs, o.row < s.height ∧ o.col < s.width) →
      Memory.readSample (outputsMemory c s outs m) (destAddr s r col) =
        if (∃ o ∈ outs, o.row = r ∧ o.col = col) then referenceSample c s r col
        else Memory.readSample m (destAddr s r col)
  | [], _, _ => by simp [outputsMemory]
  | o :: rest, m, h => by
    obtain ⟨hor, hoc⟩ := h o (by simp)
    have ih := readSample_outputsMemory hl hd hr hc (outs := rest)
      (m := m.writeSample (destAddr s o.row o.col) (referenceSample c s o.row o.col)) (fun x hx => h x (by simp [hx]))
    have hstep : outputsMemory c s (o :: rest) m =
        outputsMemory c s rest (m.writeSample (destAddr s o.row o.col) (referenceSample c s o.row o.col)) := rfl
    rw [hstep, ih]
    by_cases hrest : ∃ x ∈ rest, x.row = r ∧ x.col = col
    · rw [if_pos hrest, if_pos]
      obtain ⟨x, hx, hxe⟩ := hrest
      exact ⟨x, by simp [hx], hxe⟩
    · rw [if_neg hrest]
      by_cases ho : o.row = r ∧ o.col = col
      · rw [if_pos ⟨o, by simp, ho⟩, ho.1, ho.2, Memory.readSample_writeSample_same]
      · rw [if_neg, Memory.readSample_writeSample_other (destAddr_even hl r col) (destAddr_even hl o.row o.col)]
        · intro he
          have := hd r hr col hc o.row hor o.col hoc he
          exact ho ⟨this.1.symm, this.2.symm⟩
        · rintro ⟨x, hx, hxe⟩
          rcases List.mem_cons.mp hx with rfl | hx
          · exact ho hxe
          · exact hrest ⟨x, hx, hxe⟩

end Sys2Proof.Machine
end

