-- ==== Sys2Proof/Laws/Ordered.lean ====
section
/-! SUPPORT. The laws of a command's accesses made in a given order: what they leave in an output on which nothing else
lies, and what every output they write is (20_memory.md R77, R79). -/

namespace Sys2Proof.Machine

open Sys2Proof

/-! ### Folds over memories -/

/-- What every element of a fold keeps, the fold keeps. -/
theorem foldl_keeps {α : Type} {g : Memory → α → Memory} {P : Memory → Prop} :
    ∀ {ps : List α} {m : Memory}, (∀ m, ∀ p ∈ ps, P m → P (g m p)) → P m → P (ps.foldl g m)
  | [], _, _, h => h
  | p :: ps, _, hg, h =>
    foldl_keeps (ps := ps) (fun m q hq => hg m q (List.mem_cons_of_mem p hq)) (hg _ p List.mem_cons_self h)

/-- What one element of a fold brings about and every element keeps holds after the fold. -/
theorem foldl_reaches {α : Type} {g : Memory → α → Memory} {P : Memory → Prop} {q : α} (hq : ∀ m, P (g m q)) :
    ∀ {ps : List α} {m : Memory}, (∀ m, ∀ p ∈ ps, P m → P (g m p)) → q ∈ ps → P (ps.foldl g m)
  | p :: ps, m, hg, h => by
    have hg' : ∀ m, ∀ x ∈ ps, P m → P (g m x) := fun m x hx => hg m x (List.mem_cons_of_mem p hx)
    rcases List.mem_cons.mp h with rfl | h
    · exact foldl_keeps (ps := ps) hg' (hq m)
    · exact foldl_reaches (ps := ps) hq hg' h

/-- A fold of writes of which one, at coordinate `q`, acts on the sample at `a` as `F`, and the others not at all. -/
theorem foldl_readSample {α : Type} [DecidableEq α] {g : Memory → α → Memory} {a : Word} {q : α}
    {F : Sample → Sample} (hF : ∀ x, F (F x) = F x) :
    ∀ {ps : List α} {m : Memory},
      (∀ m, ∀ p ∈ ps, p ≠ q → Memory.readSample (g m p) a = Memory.readSample m a) →
      (∀ m, Memory.readSample (g m q) a = F (Memory.readSample m a)) →
      Memory.readSample (ps.foldl g m) a = if q ∈ ps then F (Memory.readSample m a) else Memory.readSample m a
  | [], _, _, _ => by simp
  | p :: ps, m, hother, hsame => by
    have ih := foldl_readSample hF (ps := ps) (m := g m p) (fun m x hx => hother m x (by simp [hx])) hsame
    rw [List.foldl_cons, ih]
    by_cases hp : p = q
    · subst hp
      rw [hsame]
      by_cases hq : p ∈ ps
      · simp [hq, hF]
      · simp [hq]
    · rw [hother m p (by simp) hp]
      have : q ≠ p := fun h => hp h.symm
      simp [this]

theorem le_foldl_max : ∀ {l : List Nat} {b x : Nat}, x ≤ b ∨ x ∈ l → x ≤ l.foldl max b
  | [], b, x, h => by simpa using h
  | y :: l, b, x, h => by
    refine le_foldl_max (l := l) (b := max b y) ?_
    rcases h with h | h
    · exact Or.inl (by omega)
    · rcases List.mem_cons.mp h with rfl | h
      · exact Or.inl (by omega)
      · exact Or.inr h

/-! ### Ticks -/

/-- An output is written after every read of its support (20_memory.md R77). -/
theorem readTick_lt_writeTick {c : Command} {o : AccessOrder} {r col : Nat} {p : Nat × Nat}
    (hp : p ∈ supportCoords c r col) : o.readTick p.1 p.2 < writeTick c o r col := by
  have h := le_foldl_max (l := (supportCoords c r col).map fun p => o.readTick p.1 p.2) (b := 0)
    (x := o.readTick p.1 p.2) (Or.inr (List.mem_map.mpr ⟨p, hp, rfl⟩))
  unfold writeTick
  omega

theorem writeTick_lt_lastTick {c : Command} {s : State} {o : AccessOrder} {r col : Nat} (hr : r < s.height)
    (hc : col < s.width) : writeTick c o r col < lastTick c s o := by
  refine Nat.lt_succ_of_le (le_foldl_max (Or.inr (List.mem_append_left _ ?_)))
  exact List.mem_map.mpr ⟨(r, col), mem_destCoords.mpr ⟨hr, hc⟩, rfl⟩

/-! ### What one tick does -/

theorem HostAccess.apply_of_look {w : HostAccess} (h : w.writes = false) (m : Memory) : w.apply m = m := by
  cases w with
  | look => rfl
  | byte => cases h
  | sample => cases h

theorem HostAccess.wf_apply {m : Memory} (h : m.wf = true) (w : HostAccess) : Memory.wf (w.apply m) = true := by
  cases w with
  | look => exact h
  | byte a b => exact Memory.wf_writeByte _ _ _ a.isLt h
  | sample a v => exact Memory.wf_writeSample _ _ _ h

theorem hostAccessesAt_of_keepsOff {s : State} (h : HostKeepsOff s) (o : AccessOrder) (n : Nat) (m : Memory) :
    hostAccessesAt s o n m = m := by
  unfold hostAccessesAt
  refine foldl_keeps (P := (· = m)) (fun m' w hw hm => ?_) rfl
  have hw : w.1.writes = false := h _ (List.fst_mem_of_mem_zipIdx hw)
  subst hm
  simp only [HostAccess.apply_of_look hw, ite_self]

theorem wf_tick {c : Command} {s : State} {o : AccessOrder} {written : Nat → Nat → Bool} {n : Nat} {p : Progress}
    (h : p.mem.wf = true) : (tick c s o written n p).mem.wf = true := by
  refine foldl_keeps (P := fun m => Memory.wf m = true) (fun m w _ hm => ?_)
    (foldl_keeps (P := fun m => Memory.wf m = true) (fun m q _ hm => ?_) h)
  · split
    · exact HostAccess.wf_apply hm w.1
    · exact hm
  · split
    · exact Memory.wf_writeSample _ _ _ hm
    · exact hm

theorem wf_progressAt {c : Command} {s : State} {o : AccessOrder} {written : Nat → Nat → Bool}
    (h : Memory.wf s.launchMem = true) : ∀ n, (progressAt c s o written n).mem.wf = true
  | 0 => h
  | n + 1 => wf_tick (wf_progressAt h n)

/-- What the writes of a tick do to a sample on which one output alone can lie. -/
theorem readSample_writeOutputsAt {c : Command} {s : State} {o : AccessOrder} {written : Nat → Nat → Bool} {n : Nat}
    {got : Nat → Nat → Sample} {m : Memory} (hl : LegalDescriptor c s) {r col : Nat} (hr : r < s.height)
    (hc : col < s.width) {a : Word} (ha : a.toNat % 2 = 0)
    (hother : ∀ r' < s.height, ∀ col' < s.width, (r', col') ≠ (r, col) → destAddr s r' col' ≠ a) :
    Memory.readSample (writeOutputsAt c s o written n got m) a =
      if (written r col = true ∧ writeTick c o r col = n) ∧ destAddr s r col = a then outputFrom c s got r col
      else Memory.readSample m a := by
  unfold writeOutputsAt
  rw [foldl_readSample (q := (r, col)) (F := fun x =>
    if (written r col = true ∧ writeTick c o r col = n) ∧ destAddr s r col = a then outputFrom c s got r col else x)]
  · rw [if_pos (mem_destCoords.mpr ⟨hr, hc⟩)]
  · intro x
    split <;> rfl
  · intro m p hp hne
    obtain ⟨h1, h2⟩ := mem_destCoords.mp hp
    split
    · exact Memory.readSample_writeSample_other ha (destAddr_even hl p.1 p.2) (Ne.symm (hother _ h1 _ h2 hne)) _
    · rfl
  · intro m
    simp only [Bool.and_eq_true, beq_iff_eq]
    by_cases hnow : written r col = true ∧ writeTick c o r col = n
    · rw [if_pos hnow]
      by_cases hat : destAddr s r col = a
      · rw [if_pos ⟨hnow, hat⟩, ← hat, Memory.readSample_writeSample_same]
      · rw [if_neg fun h => hat h.2, Memory.readSample_writeSample_other ha (destAddr_even hl r col) (Ne.symm hat)]
    · rw [if_neg hnow, if_neg fun h => hnow h.1]

/-! ### An output that nothing disturbs -/

/-- What any order of the accesses makes of an output that nothing disturbs: its support is read as it was at `START`, and
it holds what it held then until it is written with its reference value. -/
structure OutputKept (c : Command) (s : State) (o : AccessOrder) (written : Nat → Nat → Bool) (r col n : Nat) : Prop where
  support : ∀ p ∈ supportCoords c r col, ¬(written r col = true ∧ writeTick c o r col < n) →
    Memory.readSample (progressAt c s o written n).mem (sourceAddr c s p.1 p.2) = launchSample c s p.1 p.2
  got : ∀ p ∈ supportCoords c r col, o.readTick p.1 p.2 < n →
    (progressAt c s o written n).got p.1 p.2 = launchSample c s p.1 p.2
  value : Memory.readSample (progressAt c s o written n).mem (destAddr s r col) =
    if written r col = true ∧ writeTick c o r col < n then referenceSample c s r col
    else Memory.readSample s.launchMem (destAddr s r col)

theorem outputKept {c : Command} {s : State} {o : AccessOrder} {written : Nat → Nat → Bool} (hl : LegalDescriptor c s)
    {r col : Nat} (hr : r < s.height) (hc : col < s.width) (hu : Undisturbed c s r col) :
    ∀ n, OutputKept c s o written r col n
  | 0 => ⟨fun _ _ _ => rfl, fun _ _ h => absurd h (Nat.not_lt_zero _), by
      rw [if_neg fun h => absurd h.2 (Nat.not_lt_zero _)]
      rfl⟩
  | n + 1 => by
    have ih := outputKept (o := o) (written := written) hl hr hc hu n
    have hmem : (progressAt c s o written (n + 1)).mem =
        writeOutputsAt c s o written n (progressAt c s o written n).got (progressAt c s o written n).mem :=
      hostAccessesAt_of_keepsOff hu.1 o n _
    have hsupport : ∀ p ∈ supportCoords c r col, ¬(written r col = true ∧ writeTick c o r col < n + 1) →
        Memory.readSample (progressAt c s o written (n + 1)).mem (sourceAddr c s p.1 p.2) = launchSample c s p.1 p.2 := by
      intro p hp hnot
      rw [hmem, readSample_writeOutputsAt hl hr hc (sourceAddr_even hl p.1 p.2)
        fun r' hr' col' hc' hne => (hu.2 r' hr' col' hc' hne).2 p hp, if_neg]
      · exact ih.support p hp fun h => hnot ⟨h.1, Nat.lt_succ_of_lt h.2⟩
      · exact fun h => hnot ⟨h.1.1, by omega⟩
    refine ⟨hsupport, fun p hp hlt => ?_, ?_⟩
    · show (if o.readTick p.1 p.2 = n then
        Memory.readSample (progressAt c s o written (n + 1)).mem (sourceAddr c s p.1 p.2) else _) = _
      split
      · exact hsupport p hp fun h => by have := readTick_lt_writeTick (o := o) hp; omega
      · exact ih.got p hp (by omega)
    · rw [hmem, readSample_writeOutputsAt hl hr hc (destAddr_even hl r col)
        fun r' hr' col' hc' hne => (hu.2 r' hr' col' hc' hne).1, ih.value]
      by_cases hnow : written r col = true ∧ writeTick c o r col = n
      · rw [if_pos ⟨hnow, rfl⟩, if_pos ⟨hnow.1, by omega⟩]
        unfold referenceSample outputFrom
        congr 2
        refine List.map_congr_left fun p hp => ih.got p hp ?_
        have := readTick_lt_writeTick (o := o) hp
        omega
      · rw [if_neg fun h => hnow h.1]
        refine if_congr ?_ rfl rfl
        constructor
        · exact fun h => ⟨h.1, by omega⟩
        · intro h
          have : writeTick c o r col ≠ n := fun he => hnow ⟨h.1, he⟩
          exact ⟨h.1, by omega⟩

/-- What a whole command leaves in an output that nothing disturbs. -/
theorem readSample_orderedMemory {c : Command} {s : State} (hl : LegalDescriptor c s) {r col : Nat} (hr : r < s.height)
    (hc : col < s.width) (hu : Undisturbed c s r col) (o : AccessOrder) (written : Nat → Nat → Bool) :
    Memory.readSample (orderedMemory c s o written) (destAddr s r col) =
      if written r col = true then referenceSample c s r col else Memory.readSample s.launchMem (destAddr s r col) := by
  refine (outputKept hl hr hc hu (lastTick c s o)).value.trans (if_congr ?_ rfl rfl)
  exact and_iff_left (writeTick_lt_lastTick hr hc)

/-- What the host may see of an output that nothing disturbs: its value at `START` or, if its address answers, its
reference value. -/
theorem MaySee.undisturbed {c : Command} {s : State} {m : Memory} (h : MaySee c s m) (hl : LegalDescriptor c s)
    {r col : Nat} (hr : r < s.height) (hc : col < s.width) (hu : Undisturbed c s r col) :
    Memory.readSample m (destAddr s r col) = Memory.readSample s.launchMem (destAddr s r col) ∨
      s.mapped (destAddr s r col) = true ∧ Memory.readSample m (destAddr s r col) = referenceSample c s r col := by
  obtain ⟨o, rfl⟩ := h
  rw [(outputKept hl hr hc hu _).value]
  split
  · next hw => exact Or.inr ⟨hw.1, rfl⟩
  · exact Or.inl rfl

/-! ### Any output -/

/-- Whatever the order of the accesses, and whatever outputs lie on an output or its support, it ends as the rounded and
clamped sum of some samples, unless the host has written over it. -/
theorem orderedMemory_isOutput {c : Command} {s : State} (hl : LegalDescriptor c s) (hk : HostKeepsOff s) {r col : Nat}
    (hr : r < s.height) (hc : col < s.width) (o : AccessOrder) :
    ∃ x, Memory.readSample (orderedMemory c s o fun _ _ => true) (destAddr s r col) = outputSample c x := by
  have later : ∀ n, writeTick c o r col < n →
      ∃ x, Memory.readSample (progressAt c s o (fun _ _ => true) n).mem (destAddr s r col) = outputSample c x := by
    intro n
    induction n with
    | zero => exact fun h => absurd h (Nat.not_lt_zero _)
    | succ n ih =>
      intro hlt
      have hmem : (progressAt c s o (fun _ _ => true) (n + 1)).mem =
          writeOutputsAt c s o (fun _ _ => true) n (progressAt c s o (fun _ _ => true) n).got
            (progressAt c s o (fun _ _ => true) n).mem := hostAccessesAt_of_keepsOff hk o n _
      rw [hmem]
      have keeps : ∀ (got : Nat → Nat → Sample) (m : Memory), ∀ p ∈ destCoords s,
          (∃ x, Memory.readSample m (destAddr s r col) = outputSample c x) →
          ∃ x, Memory.readSample (if (true && writeTick c o p.1 p.2 == n) = true then
            m.writeSample (destAddr s p.1 p.2) (outputFrom c s got p.1 p.2) else m) (destAddr s r col) =
              outputSample c x := by
        intro got m p _ hm
        split
        · by_cases he : destAddr s r col = destAddr s p.1 p.2
          · rw [he, Memory.readSample_writeSample_same]
            exact ⟨_, rfl⟩
          · rw [Memory.readSample_writeSample_other (destAddr_even hl r col) (destAddr_even hl p.1 p.2) he]
            exact hm
        · exact hm
      rcases Nat.lt_or_eq_of_le (Nat.le_of_lt_succ hlt) with hlt | heq
      · exact foldl_keeps (P := fun m => ∃ x, Memory.readSample m (destAddr s r col) = outputSample c x)
          (keeps _) (ih hlt)
      · refine foldl_reaches (P := fun m => ∃ x, Memory.readSample m (destAddr s r col) = outputSample c x)
          (q := (r, col)) (fun m => ?_) (keeps _) (mem_destCoords.mpr ⟨hr, hc⟩)
        rw [if_pos (by simp [heq]), Memory.readSample_writeSample_same]
        exact ⟨_, rfl⟩
  exact later _ (writeTick_lt_lastTick hr hc)

/-! ### What the accesses depend on -/

/-- The accesses depend on the operands, the note of the launch and the host's races alone. -/
theorem SameOperands.progressAt {s t : State} (h : SameOperands s t) (hr : t.raced = s.raced) (c : Command)
    (o : AccessOrder) (written : Nat → Nat → Bool) :
    ∀ n, Machine.progressAt c t o written n = Machine.progressAt c s o written n
  | 0 => by simp only [Machine.progressAt, h.launchMem]
  | n + 1 => by
    simp only [Machine.progressAt, h.progressAt hr c o written n, tick, hostAccessesAt, writeOutputsAt, hr, h.destCoords,
      h.destAddr, h.outputFrom, h.sourceAddr]

theorem SameOperands.orderedMemory {s t : State} (h : SameOperands s t) (hr : t.raced = s.raced) (c : Command)
    (o : AccessOrder) (written : Nat → Nat → Bool) :
    Machine.orderedMemory c t o written = Machine.orderedMemory c s o written := by
  simp only [Machine.orderedMemory, lastTick, h.destCoords, hr, h.progressAt hr]

theorem SameOperands.undisturbed {s t : State} (h : SameOperands s t) (hr : t.raced = s.raced) (c : Command)
    (r col : Nat) : Undisturbed c t r col ↔ Undisturbed c s r col := by
  simp only [Undisturbed, HostKeepsOff, hr, h.width, h.height, h.destAddr, h.sourceAddr]

theorem SameOperands.uncontested {s t : State} (h : SameOperands s t) (hr : t.raced = s.raced) (c : Command) :
    Uncontested c t ↔ Uncontested c s := by
  simp only [Uncontested, HostKeepsOff, hr, h.noAlias, h.destDistinct]

end Sys2Proof.Machine
end

