-- ==== Sys2Proof/Laws/Pass.lean ====
section
/-! SUPPORT. The laws of the passes: what a prime and a tile step do, and that they keep `PassInv`. -/

namespace Sys2Proof.Machine

open Sys2Proof

/-! ### The shapes -/

theorem mem_lanesBelow {n : Nat} {l : Fin 8} : l ∈ lanesBelow n ↔ l.val < n := by
  unfold lanesBelow
  rw [List.mem_iff_getElem]
  simp only [List.length_take, List.length_finRange, List.getElem_take, List.getElem_finRange]
  constructor
  · rintro ⟨i, hi, rfl⟩
    simp only [Fin.val_cast]
    omega
  · intro h
    exact ⟨l.val, by omega, by ext; simp⟩

theorem stripWidth_le (s : State) : stripWidth s ≤ 8 := by
  unfold stripWidth State.narrow
  split
  · next h => simp at h; omega
  · omega

theorem tileWidth_le (s : State) : tileWidth s ≤ 8 := by
  unfold tileWidth State.narrow
  split
  · next h => simp at h; omega
  · omega

theorem stripHeight_le (s : State) : stripHeight s ≤ 2 := by
  unfold stripHeight
  split <;> omega

theorem stripWidth_pos {s : State} (h : 0 < s.width) : 0 < stripWidth s := by
  unfold stripWidth
  split <;> omega

theorem tileWidth_pos {s : State} (h : 0 < s.width) : 0 < tileWidth s := by
  unfold tileWidth
  split <;> omega

theorem stripHeight_fits {s : State} (h : s.cy.toNat < s.height) :
    0 < stripHeight s ∧ s.cy.toNat + stripHeight s ≤ s.height := by
  unfold stripHeight
  split <;> omega

theorem tileHeight_fits (s : State) (h : s.cy.toNat ≤ s.height) :
    tileHeight s ≤ 4 ∧ s.cy.toNat + tileHeight s ≤ s.height ∧ (s.cy.toNat < s.height → 0 < tileHeight s) := by
  unfold tileHeight
  split <;> omega

theorem slideBy_le (c : Command) (s : State) : slideBy c s ≤ 8 := by
  unfold slideBy
  split
  · unfold tileHeight
    split <;> omega
  · exact tileWidth_le s

/-! ### The coordinates of the loads and outputs -/

/-- The lanes a prime loads: entries 0..taps-2 of the strip's lanes, each with the sample it stands for. -/
theorem primeLoads_lanes (c : Command) (s : State) (e : Nat) (l : Fin 8) :
    (∃ ld ∈ primeLoads c s, ld.entry = e ∧ ld.lane = l) ↔ e + 1 < tapsOf c ∧ l.val < stripLanes c s := by
  have ht := tapsOf_bounds c
  unfold primeLoads stripLanes
  cases c.dir <;>
    simp only [verticalPrimeLoads, horizontalPrimeLoads, List.mem_flatMap, List.mem_range, List.mem_map, mem_lanesBelow]
  all_goals
    constructor
    · rintro ⟨ld, ⟨e', he', l', hl', rfl⟩, rfl, rfl⟩
      exact ⟨by simp only; omega, hl'⟩
    · rintro ⟨he, hl⟩
      exact ⟨_, ⟨e, by omega, l, hl, rfl⟩, rfl, rfl⟩

/-- Each load of a prime has the coordinates its lane stands for, inside the source footprint. -/
theorem primeLoads_coords {c : Command} {s : State} (hl : 0 < s.width) (hh : 0 < s.height)
    (hv : c.dir = .vertical → s.cy = 0 ∧ s.cx.toNat + stripWidth s ≤ s.width)
    (hz : c.dir = .horizontal → s.cx = 0 ∧ s.cy.toNat + stripHeight s ≤ s.height) {ld : Load}
    (h : ld ∈ primeLoads c s) :
    ld.entry < 19 ∧ launchSample c s ld.row ld.col = windowSample c s ld.entry ld.lane ∧
      ld.row < (sourcePlane c s).rows ∧ ld.col < (sourcePlane c s).cols := by
  have ht := tapsOf_bounds c
  have hshape := sourcePlane_shape c s hl hh
  unfold primeLoads at h
  unfold windowSample
  cases hd : c.dir <;> rw [hd] at h hshape <;>
    simp only [verticalPrimeLoads, horizontalPrimeLoads, List.mem_flatMap, List.mem_range, List.mem_map,
      mem_lanesBelow] at h hshape ⊢
  · obtain ⟨e, he, l, hlt, rfl⟩ := h
    obtain ⟨hcy, hfit⟩ := hv hd
    refine ⟨by simp only; omega, by simp [hcy], ?_, ?_⟩
    · rw [hshape.1]; simp only; omega
    · rw [hshape.2]; simp only; omega
  · obtain ⟨e, he, l, hlt, rfl⟩ := h
    obtain ⟨hcx, hfit⟩ := hz hd
    refine ⟨by simp only; omega, by simp [hcx], ?_, ?_⟩
    · rw [hshape.1]; simp only; omega
    · rw [hshape.2]; simp only; omega

/-- The lanes a tile loads: the entries after the carried ones. -/
theorem tileLoads_lanes (c : Command) (s : State) (e : Nat) (l : Fin 8) :
    (∃ ld ∈ tileLoads c s, ld.entry = e ∧ ld.lane = l) ↔
      tapsOf c ≤ e + 1 ∧ e + 1 < tapsOf c + slideBy c s ∧ l.val < stripLanes c s := by
  have ht := tapsOf_bounds c
  unfold tileLoads stripLanes slideBy
  cases c.dir <;>
    simp only [verticalTileLoads, horizontalTileLoads, List.mem_flatMap, List.mem_range, List.mem_map, mem_lanesBelow]
  all_goals
    constructor
    · rintro ⟨ld, ⟨t, htt, l', hl', rfl⟩, rfl, rfl⟩
      exact ⟨by simp only; omega, by simp only; omega, hl'⟩
    · rintro ⟨he, he2, hl⟩
      exact ⟨_, ⟨e + 1 - tapsOf c, by omega, l, hl, rfl⟩, by simp only; omega, rfl⟩

/-- Where the current tile lies: its lanes and its extent stay inside the block (40_dispatch.md R130). -/
def TileFits (c : Command) (s : State) : Prop :=
  match c.dir with
  | .vertical => s.cx.toNat + stripWidth s ≤ s.width ∧ s.cy.toNat + tileHeight s ≤ s.height
  | .horizontal => s.cy.toNat + stripHeight s ≤ s.height ∧ s.cx.toNat + tileWidth s ≤ s.width

/-- Each load of a tile has the coordinates its lane stands for, inside the source footprint. -/
theorem tileLoads_coords {c : Command} {s : State} (hl : 0 < s.width) (hh : 0 < s.height) (hf : TileFits c s)
    {ld : Load} (h : ld ∈ tileLoads c s) :
    ld.entry < 19 ∧ launchSample c s ld.row ld.col = windowSample c s ld.entry ld.lane ∧
      ld.row < (sourcePlane c s).rows ∧ ld.col < (sourcePlane c s).cols := by
  have ht := tapsOf_bounds c
  have hsl := slideBy_le c s
  have hshape := sourcePlane_shape c s hl hh
  unfold tileLoads at h
  unfold slideBy at hsl
  unfold windowSample
  unfold TileFits at hf
  cases hd : c.dir <;> rw [hd] at h hshape hsl hf <;>
    simp only [verticalTileLoads, horizontalTileLoads, List.mem_flatMap, List.mem_range, List.mem_map,
      mem_lanesBelow] at h hshape hsl hf ⊢
  · obtain ⟨t, htt, l, hlt, rfl⟩ := h
    refine ⟨by simp only; omega, by simp only [Nat.add_assoc], ?_, ?_⟩
    · rw [hshape.1]; simp only; omega
    · rw [hshape.2]; simp only; omega
  · obtain ⟨t, htt, l, hlt, rfl⟩ := h
    refine ⟨by simp only; omega, by simp only [Nat.add_assoc], ?_, ?_⟩
    · rw [hshape.1]; simp only; omega
    · rw [hshape.2]; simp only; omega

/-- Each output of a tile lies in the destination footprint, and its support is what its lane's entries stand for. -/
theorem tileOutputs_coords {c : Command} {s : State} (hf : TileFits c s) {o : Output} (h : o ∈ tileOutputs c s) :
    o.first < slideBy c s ∧ o.lane.val < stripLanes c s ∧ o.row < s.height ∧ o.col < s.width ∧
      outputSupport c s o = (List.range (tapsOf c)).map fun k => windowSample c s (o.first + k) o.lane := by
  unfold tileOutputs at h
  unfold TileFits at hf
  unfold outputSupport
  rw [supportCoords_map c (launchSample c s)]
  unfold slideBy stripLanes windowSample
  cases hd : c.dir <;> rw [hd] at h hf <;>
    simp only [verticalOutputs, horizontalOutputs, List.mem_flatMap, List.mem_range, List.mem_map,
      mem_lanesBelow] at h hf ⊢
  · obtain ⟨t, htt, l, hlt, rfl⟩ := h
    exact ⟨htt, hlt, by simp only; omega, by simp only; omega, by simp only [Nat.add_assoc]⟩
  · obtain ⟨l, hlt, t, htt, rfl⟩ := h
    exact ⟨htt, hlt, by simp only; omega, by simp only; omega, by simp only [Nat.add_assoc]⟩

/-- The coordinates a tile writes: the tile's rectangle (20_memory.md R71, 40_dispatch.md R124). -/
theorem tileOutputs_mem (c : Command) (s : State) (r col : Nat) :
    (∃ o ∈ tileOutputs c s, o.row = r ∧ o.col = col) ↔
      match c.dir with
      | .vertical => (s.cy.toNat ≤ r ∧ r < s.cy.toNat + tileHeight s) ∧ s.cx.toNat ≤ col ∧ col < s.cx.toNat + stripWidth s
      | .horizontal => (s.cy.toNat ≤ r ∧ r < s.cy.toNat + stripHeight s) ∧ s.cx.toNat ≤ col ∧ col < s.cx.toNat + tileWidth s := by
  have hsw := stripWidth_le s
  have hsh := stripHeight_le s
  unfold tileOutputs
  cases c.dir <;>
    simp only [verticalOutputs, horizontalOutputs, List.mem_flatMap, List.mem_range, List.mem_map, mem_lanesBelow]
  · constructor
    · rintro ⟨o, ⟨t, htt, l, hlt, rfl⟩, rfl, rfl⟩
      simp only
      omega
    · rintro ⟨⟨h1, h2⟩, h3, h4⟩
      refine ⟨_, ⟨r - s.cy.toNat, by omega, ⟨col - s.cx.toNat, by omega⟩, by simp only; omega, rfl⟩, ?_, ?_⟩
      · simp only; omega
      · simp only; omega
  · constructor
    · rintro ⟨o, ⟨l, hlt, t, htt, rfl⟩, rfl, rfl⟩
      simp only
      omega
    · rintro ⟨⟨h1, h2⟩, h3, h4⟩
      refine ⟨_, ⟨⟨r - s.cy.toNat, by omega⟩, by simp only; omega, col - s.cx.toNat, by omega, rfl⟩, ?_, ?_⟩
      · simp only; omega
      · simp only; omega

theorem tileFits_of_passInv {c : Command} {s : State} (h : PassInv c s) (hp : s.phase = .tile) : TileFits c s := by
  have hc := h.cursor
  unfold CursorFits at hc
  unfold TileFits
  cases hd : c.dir <;> rw [hd] at hc <;> simp only at hc ⊢
  · exact ⟨(hc.2.1 (by rw [hp]; decide)).1, (tileHeight_fits s hc.2.2.2).2.1⟩
  · exact ⟨(stripHeight_fits (hc.2.2.1 (by rw [hp]; decide))).2, (hc.2.2.2 hp).1⟩

/-! ### The prime -/

theorem sameOperands_stripStart (c : Command) (s : State) : SameOperands s (stripStart c s) := by
  unfold stripStart
  split <;> exact sameOperands_of_eq rfl

theorem stripStart_mem (c : Command) (s : State) : (stripStart c s).mem = s.mem := by
  unfold stripStart
  split <;> rfl

theorem stripStart_raced (c : Command) (s : State) : (stripStart c s).raced = s.raced := by
  unfold stripStart
  split <;> rfl

theorem stripStart_win (c : Command) (s : State) : (stripStart c s).win = emptyWindow := by
  unfold stripStart
  split <;> rfl

theorem SourceUntouched.congr {c : Command} {s t : State} (ho : SameOperands s t) (hr : t.raced = s.raced)
    (h : SourceUntouched c s) (hm : OutsideDestSame s t) : SourceUntouched c t := by
  intro a hs
  rw [ho.sourcePlane] at hs
  rw [startByte_congr ho hr (hm a), ho.launchMem]
  exact h a hs

/-- The state after a prime that does not fail. -/
def primed (c : Command) (s : State) (w : Window) : State := { stripStart c s with win := w, phase := .tile }

theorem sameOperands_primed (c : Command) (s : State) (w : Window) : SameOperands s (primed c s w) := by
  unfold primed stripStart
  split <;> exact sameOperands_of_eq rfl

/-- At the start of a strip the cursor stands where the strip's rectangle fits into the block. -/
theorem stripStart_fits {c : Command} {s : State} (h : PassInv c s) (hp : s.phase = .prime) :
    (c.dir = .vertical → (stripStart c s).cy = 0 ∧
        (stripStart c s).cx.toNat + stripWidth (stripStart c s) ≤ (stripStart c s).width) ∧
      (c.dir = .horizontal → (stripStart c s).cx = 0 ∧
        (stripStart c s).cy.toNat + stripHeight (stripStart c s) ≤ (stripStart c s).height) := by
  have hop := sameOperands_stripStart c s
  have hcur := h.cursor
  unfold CursorFits at hcur
  constructor <;> intro hd <;> rw [hd] at hcur
  · have h1 := (hcur.2.1 (by rw [hp]; decide)).1
    rw [hop.stripWidth, hop.width]
    simp only [stripStart, hd]
    exact ⟨trivial, h1⟩
  · have hlt : (stripStart c s).cy.toNat < (stripStart c s).height := by
      have h1 := hcur.2.2.1 (by rw [hp]; decide)
      rw [hop.height]
      simpa only [stripStart, hd] using h1
    refine ⟨?_, (stripHeight_fits hlt).2⟩
    simp only [stripStart, hd]

/-- What a prime does, once: it fails on a bus error, or the engine stands at the strip's first tile with `PassInv`. -/
theorem primeStep_spec {c : Command} {s : State} (h : PassInv c s) (hp : s.phase = .prime) :
    primeStep c s = .error .busError ∨
      ∃ w, primeStep c s = .ok (primed c s w) ∧ PassInv c (primed c s w) := by
  have hop := sameOperands_stripStart c s
  have hsrc : SourceUntouched c (stripStart c s) := by
    refine SourceUntouched.congr hop (stripStart_raced c s) h.source ?_
    intro a _
    rw [stripStart_mem]
  have hw : 0 < (stripStart c s).width := by rw [hop.width]; exact h.width_pos
  have hh : 0 < (stripStart c s).height := by rw [hop.height]; exact h.height_pos
  have hcur := h.cursor
  unfold CursorFits at hcur
  obtain ⟨hv, hz⟩ := stripStart_fits h hp
  unfold primeStep
  simp only [stripStart_win]
  cases hload : loadWindow c (stripStart c s) (primeLoads c (stripStart c s)) emptyWindow with
  | none => exact Or.inl rfl
  | some w =>
    refine Or.inr ⟨w, rfl, ?_⟩
    have hlanes := loadWindow_ok (g := windowSample c (stripStart c s)) hload (fun ld hld => by
      obtain ⟨h1, h2, h3, h4⟩ := primeLoads_coords hw hh hv hz hld
      refine ⟨h1, fun v hv => ?_⟩
      rw [fetchSample_eq hsrc h3 h4] at hv
      split at hv
      · simp only [Option.some.injEq] at hv
        rw [← hv, h2]
      · cases hv)
    have hopt := sameOperands_primed c s w
    constructor
    · exact (hopt.legalDescriptor c).mpr h.legal
    · exact (hopt.ordinary c).mpr h.ordinary
    · rw [hopt.width]; exact h.width_pos
    · rw [hopt.height]; exact h.height_pos
    · unfold CursorFits
      rw [hopt.width, hopt.height, hopt.stripWidth, hopt.tileWidth, hopt.narrow]
      cases hd : c.dir <;> rw [hd] at hcur <;> simp only [primed, stripStart, hd] at hcur ⊢
      · have h1 := hcur.2.1 (by rw [hp]; decide)
        have := h.height_pos
        exact ⟨hcur.1, fun _ => h1, fun _ => by simpa using this, by simp⟩
      · have h1 := hcur.2.2.1 (by rw [hp]; decide)
        have htw : tileWidth s ≤ s.width := by
          unfold tileWidth State.narrow
          have hleg := (firstError_eq_none.mp h.legal).2.2.1
          have := h.width_pos
          split
          · omega
          · next hn => simp at hn; omega
        exact ⟨by simp, by omega, fun _ => h1, fun _ => ⟨by simpa using htw, fun _ => trivial, by simp⟩⟩
    · intro _ e l
      have hopw : SameOperands (stripStart c s) (primed c s w) := hop.symm.trans hopt
      have hl2 : stripLanes c (primed c s w) = stripLanes c (stripStart c s) := by
        unfold stripLanes
        cases hd : c.dir
        · exact hopw.stripWidth
        · simp only [stripHeight, hopw.narrow, hopw.height]
          rfl
      have hs2 : windowSample c (primed c s w) e l = windowSample c (stripStart c s) e l := by
        unfold windowSample
        rw [hopw.launchSample]
        cases hd : c.dir <;> rfl
      have h1 := hlanes e l
      rw [windowLane_empty] at h1
      rw [hl2, hs2]
      refine Eq.trans h1 ?_
      exact if_congr (primeLoads_lanes c (stripStart c s) e l) rfl rfl
    · refine SourceUntouched.congr hopt (stripStart_raced c s) h.source ?_
      intro a _
      rw [show (primed c s w).mem = s.mem from stripStart_mem c s]
    · intro hnr hdist r hr col hcol hwr
      have hnr : HostKeepsOff s := fun w hw => hnr w ((stripStart_raced c s).symm ▸ hw)
      rw [hopt.height] at hr
      rw [hopt.width] at hcol
      rw [hopt.destAddr, hopt.referenceSample]
      have hmem : (primed c s w).mem = s.mem := stripStart_mem c s
      rw [hmem]
      refine h.written hnr (hopt.destDistinct.mp hdist) r hr col hcol ?_
      unfold OutputWritten at hwr ⊢
      rw [hp]
      cases hd : c.dir <;> rw [hd] at hwr <;> simp only [primed, stripStart, hd] at hwr ⊢
      · rcases hwr with h1 | ⟨_, h1⟩
        · exact h1
        · simp at h1
      · rcases hwr with h1 | ⟨_, h1⟩
        · exact h1
        · simp at h1

/-- Where every address of the footprints answers, a prime does not fail. -/
theorem primeStep_mapped {c : Command} {s : State} (h : PassInv c s) (hp : s.phase = .prime)
    (hm : FootprintsMapped c s) : ∃ w, primeStep c s = .ok (primed c s w) ∧ PassInv c (primed c s w) := by
  rcases primeStep_spec h hp with he | h'
  · exfalso
    have hop := sameOperands_stripStart c s
    have hload : ∃ w', loadWindow c (stripStart c s) (primeLoads c (stripStart c s)) (stripStart c s).win = some w' := by
      apply loadWindow_isSome
      intro ld hld
      obtain ⟨_, _, h3, h4⟩ := primeLoads_coords (by rw [hop.width]; exact h.width_pos)
        (by rw [hop.height]; exact h.height_pos) (stripStart_fits h hp).1 (stripStart_fits h hp).2 hld
      rw [hop.sourcePlane] at h3 h4
      rw [hop.sourceAddr, hop.mapped]
      exact hm.1 _ h3 _ h4
    obtain ⟨w', hw'⟩ := hload
    unfold primeStep at he
    simp only [hw'] at he
    cases he
  · exact h'

/-! ### The tile -/

/-- The state after a tile that does not fail, `w` being the window after its loads. -/
def tiled (c : Command) (s : State) (w : Window) : State :=
  advance c s { s with
    win := slideWindow w (tapsOf c) (slideBy c s)
    mem := outputsMemory c s (tileOutputs c s) s.mem }

/-- The window during a tile: the carried entries and the tile's new ones hold what they stand for. -/
def TileWindow (c : Command) (s : State) (w : Window) : Prop :=
  ∀ (e : Nat) (l : Fin 8), windowLane w e l =
    if e + 1 < tapsOf c + slideBy c s ∧ l.val < stripLanes c s then some (windowSample c s e l) else none

/-- The loads of a tile fail on a bus error or complete the tile's window. -/
theorem tileLoads_spec {c : Command} {s : State} (h : PassInv c s) (hp : s.phase = .tile) :
    loadWindow c s (tileLoads c s) s.win = none ∨
      ∃ w, loadWindow c s (tileLoads c s) s.win = some w ∧ TileWindow c s w := by
  cases hload : loadWindow c s (tileLoads c s) s.win with
  | none => exact Or.inl rfl
  | some w =>
    refine Or.inr ⟨w, rfl, ?_⟩
    have hlanes := loadWindow_ok (g := windowSample c s) hload (fun ld hld => by
      obtain ⟨h1, h2, h3, h4⟩ := tileLoads_coords h.width_pos h.height_pos (tileFits_of_passInv h hp) hld
      refine ⟨h1, fun v hv => ?_⟩
      rw [fetchSample_eq h.source h3 h4] at hv
      split at hv
      · simp only [Option.some.injEq] at hv
        rw [← hv, h2]
      · cases hv)
    intro e l
    rw [hlanes e l, h.window hp e l]
    have hiff := tileLoads_lanes c s e l
    by_cases hnew : ∃ ld ∈ tileLoads c s, ld.entry = e ∧ ld.lane = l
    · rw [if_pos hnew, if_pos]
      have := hiff.mp hnew
      exact ⟨this.2.1, this.2.2⟩
    · rw [if_neg hnew]
      rw [hiff] at hnew
      refine if_congr ?_ rfl rfl
      constructor
      · rintro ⟨h1, h2⟩
        exact ⟨by omega, h2⟩
      · rintro ⟨h1, h2⟩
        refine ⟨?_, h2⟩
        by_contra hc
        exact hnew ⟨by omega, h1, h2⟩

/-- A tile step, its loads done: the outputs write the reference values of the tile, or a bus error ends it. -/
theorem tileStep_of_loaded {c : Command} {s : State} {w : Window} (hacc : s.acc = Vector.replicate 8 none)
    (hf : TileFits c s) (hload : loadWindow c s (tileLoads c s) s.win = some w) (hw : TileWindow c s w) :
    tileStep c s =
      if (∀ o ∈ tileOutputs c s, s.mapped (destAddr s o.row o.col) = true) then .ok (tiled c s w)
      else .error .busError := by
  have hgather : ∀ o ∈ tileOutputs c s,
      gatherSamples w o.lane (tapsOf c) o.first = some (outputSupport c s o) := by
    intro o ho
    obtain ⟨h1, h2, _, _, h5⟩ := tileOutputs_coords hf ho
    rw [h5]
    refine gatherSamples_eq (fun k hk => ?_)
    rw [hw, if_pos ⟨by omega, h2⟩]
  have hout := writeOutputs_eq (c := c) (outs := tileOutputs c s) (s := { s with win := w }) hacc hgather
  unfold tileStep
  rw [hload]
  simp only
  rw [hout]
  by_cases hm : ∀ o ∈ tileOutputs c s, s.mapped (destAddr s o.row o.col) = true
  · have hm' : ∀ o ∈ tileOutputs c s, State.mapped { s with win := w } (destAddr { s with win := w } o.row o.col) = true := hm
    rw [if_pos hm, if_pos hm']
    rfl
  · have hm' : ¬∀ o ∈ tileOutputs c s, State.mapped { s with win := w } (destAddr { s with win := w } o.row o.col) = true := hm
    rw [if_neg hm, if_neg hm']

/-- An advance moves the cursor and the phase alone. -/
theorem advance_eq (c : Command) (s t : State) : advance c s t = { t with
    cx := (advance c s t).cx, cy := (advance c s t).cy, phase := (advance c s t).phase } := by
  unfold advance verticalAdvance horizontalAdvance
  cases c.dir <;> simp only <;> repeat' split
  all_goals rfl

theorem sameOperands_advance (c : Command) (s t : State) : SameOperands t (advance c s t) :=
  sameOperands_of_eq (advance_eq c s t)

/-- A tile moves the cursor and the phase, slides the window and writes its outputs, and does nothing else. -/
theorem tiled_eq (c : Command) (s : State) (w : Window) : tiled c s w = { s with
    win := slideWindow w (tapsOf c) (slideBy c s)
    mem := outputsMemory c s (tileOutputs c s) s.mem
    cx := (tiled c s w).cx, cy := (tiled c s w).cy, phase := (tiled c s w).phase } :=
  advance_eq c s _

theorem sameOperands_tiled (c : Command) (s : State) (w : Window) : SameOperands s (tiled c s w) :=
  sameOperands_of_eq (tiled_eq c s w)

/-- Where the cursor goes after a tile, in numbers (40_dispatch.md R133). -/
def NextCursor (c : Command) (s t : State) : Prop :=
  match c.dir with
  | .vertical =>
    (s.cy.toNat + tileHeight s < s.height ∧ t.phase = .tile ∧ t.cx = s.cx ∧ t.cy.toNat = s.cy.toNat + tileHeight s) ∨
      (s.cy.toNat + tileHeight s = s.height ∧ t.phase = .prime ∧ s.narrow = false ∧
        t.cx.toNat = s.cx.toNat + 8 ∧ t.cx.toNat < s.width ∧ t.cy.toNat = s.height) ∨
      (s.cy.toNat + tileHeight s = s.height ∧ t.phase = .complete ∧ s.cx.toNat + stripWidth s = s.width ∧
        t.cx.toNat ≤ s.width ∧ t.cy.toNat = s.height)
  | .horizontal =>
    (s.cx.toNat + tileWidth s < s.width ∧ t.phase = .tile ∧ s.narrow = false ∧
        t.cx.toNat = s.cx.toNat + 8 ∧ t.cy = s.cy) ∨
      (s.cx.toNat + tileWidth s = s.width ∧ t.phase = .prime ∧ t.cx.toNat = s.width ∧
        t.cy.toNat = s.cy.toNat + stripHeight s ∧ t.cy.toNat < s.height) ∨
      (s.cx.toNat + tileWidth s = s.width ∧ t.phase = .complete ∧ t.cx.toNat = s.width ∧
        t.cy.toNat = s.height ∧ s.cy.toNat + stripHeight s = s.height)

theorem cursor_add {x : BitVec 16} {n m : Nat} (h : x.toNat + n ≤ m) (hm : m < 65536) :
    (x + BitVec.ofNat 16 n).toNat = x.toNat + n := by
  rw [BitVec.toNat_add, BitVec.toNat_ofNat]
  omega

theorem nextCursor_advance {c : Command} {s u : State} (h : PassInv c s) (hp : s.phase = .tile)
    (hop : SameOperands s u) (hux : u.cx = s.cx) (huy : u.cy = s.cy) (hup : u.phase = .tile) :
    NextCursor c s (advance c s u) := by
  have hcur := h.cursor
  have hf := tileFits_of_passInv h hp
  have hwl := width_lt s
  have hhl := height_lt s
  have hleg := (firstError_eq_none.mp h.legal).2.2.1
  unfold CursorFits at hcur
  unfold TileFits at hf
  unfold NextCursor advance
  cases hd : c.dir <;> rw [hd] at hcur hf <;> simp only at hcur hf ⊢
  · obtain ⟨hcx, hmul, hcy, _⟩ := hcur
    obtain ⟨_, hnar, h8⟩ := hmul (by rw [hp]; decide)
    obtain ⟨hfx, hfy⟩ := hf
    have hny := cursor_add hfy hhl
    unfold verticalAdvance
    simp only [hux, huy, hop.width, hop.height, hop.narrow]
    by_cases hlast : (s.cy + BitVec.ofNat 16 (tileHeight s)).toNat < s.height
    · rw [if_pos hlast]
      exact Or.inl ⟨by omega, hup, rfl, hny⟩
    · rw [if_neg hlast]
      have hend : s.cy.toNat + tileHeight s = s.height := by omega
      by_cases hn : s.narrow = true
      · rw [if_pos hn]
        have h0 := hnar hn
        refine Or.inr (Or.inr ⟨hend, rfl, ?_, ?_, ?_⟩)
        · simp [stripWidth, hn, h0]
        · exact hcx
        · exact hny.trans hend
      · have hn' : s.narrow = false := by simpa using hn
        rw [if_neg hn]
        have hw8 : s.width % 8 = 0 := by
          unfold State.narrow at hn'
          simp at hn'
          omega
        have hsw : stripWidth s = 8 := by simp [stripWidth, hn']
        rw [hsw] at hfx
        have hnx : (s.cx + 8).toNat = s.cx.toNat + 8 := cursor_add hfx hwl
        by_cases hmore : (s.cx + 8).toNat < s.width
        · rw [if_pos hmore]
          exact Or.inr (Or.inl ⟨hend, rfl, hn', hnx, hmore, hny.trans hend⟩)
        · rw [if_neg hmore]
          exact Or.inr (Or.inr ⟨hend, rfl, by omega, le_of_eq_of_le hnx hfx, hny.trans hend⟩)
  · obtain ⟨_, _, hcy, hmul⟩ := hcur
    obtain ⟨_, hnar, h8⟩ := hmul hp
    obtain ⟨hfy, hfx⟩ := hf
    have hnx := cursor_add hfx hwl
    have hny := cursor_add hfy hhl
    unfold horizontalAdvance
    simp only [hux, huy, hop.width, hop.height]
    by_cases hmore : (s.cx + BitVec.ofNat 16 (tileWidth s)).toNat < s.width
    · rw [if_pos hmore]
      have hn' : s.narrow = false := by
        by_contra hn
        simp only [Bool.not_eq_false] at hn
        have := hnar hn
        have htw : tileWidth s = s.width := by simp [tileWidth, hn]
        omega
      have htw : tileWidth s = 8 := by simp [tileWidth, hn']
      refine Or.inl ⟨by omega, hup, hn', ?_, rfl⟩
      rw [htw] at hnx ⊢
      exact hnx
    · rw [if_neg hmore]
      have hend : s.cx.toNat + tileWidth s = s.width := by omega
      by_cases hrow : (s.cy + BitVec.ofNat 16 (stripHeight s)).toNat < s.height
      · rw [if_pos hrow]
        exact Or.inr (Or.inl ⟨hend, rfl, hnx.trans hend, hny, hrow⟩)
      · rw [if_neg hrow]
        exact Or.inr (Or.inr ⟨hend, rfl, hnx.trans hend, hny.trans (by omega), by omega⟩)

theorem nextCursor_tiled {c : Command} {s : State} (h : PassInv c s) (hp : s.phase = .tile) (w : Window) :
    NextCursor c s (tiled c s w) :=
  nextCursor_advance h hp (sameOperands_of_eq rfl) rfl rfl hp

/-- After a tile the cursor fits again. -/
theorem cursorFits_of_next {c : Command} {s t : State} (h : PassInv c s) (hp : s.phase = .tile)
    (hop : SameOperands s t) (hn : NextCursor c s t) : CursorFits c t := by
  have hcur := h.cursor
  have hleg := (firstError_eq_none.mp h.legal).2.2.1
  unfold CursorFits at hcur ⊢
  unfold NextCursor at hn
  rw [hop.width, hop.height, hop.stripWidth, hop.tileWidth, hop.narrow]
  cases hd : c.dir <;> rw [hd] at hcur hn <;> simp only at hcur hn ⊢
  · obtain ⟨hcx, hmul, hcy, _⟩ := hcur
    obtain ⟨hfit, hnar, h8⟩ := hmul (by rw [hp]; decide)
    rcases hn with ⟨h1, h2, h3, h4⟩ | ⟨h1, h2, h3, h4, h5, h6⟩ | ⟨h1, h2, h3, h4, h5⟩
    · rw [h2, h3]
      exact ⟨hcx, fun _ => ⟨hfit, hnar, h8⟩, fun _ => by omega, by omega⟩
    · rw [h2]
      have hw8 : s.width % 8 = 0 := by
        unfold State.narrow at h3
        simp at h3
        omega
      have hsw : stripWidth s = 8 := by simp [stripWidth, h3]
      rw [hsw] at hfit ⊢
      refine ⟨by omega, fun _ => ⟨by omega, ?_, by omega⟩, by simp, by omega⟩
      intro hc
      rw [h3] at hc
      cases hc
    · rw [h2]
      exact ⟨h4, by simp, by simp, by omega⟩
  · obtain ⟨hcx, hcy, hlt, hmul⟩ := hcur
    obtain ⟨hfit, hnar, h8⟩ := hmul hp
    rcases hn with ⟨h1, h2, h3, h4, h5⟩ | ⟨h1, h2, h3, h4, h5⟩ | ⟨h1, h2, h3, h4, h5⟩
    · rw [h2, h5]
      have hw8 : s.width % 8 = 0 := by
        unfold State.narrow at h3
        simp at h3
        omega
      have htw : tileWidth s = 8 := by simp [tileWidth, h3]
      rw [htw] at h1 hfit ⊢
      refine ⟨by omega, hcy, fun _ => hlt (by rw [hp]; decide), fun _ => ⟨by omega, ?_, by omega⟩⟩
      intro hc
      rw [h3] at hc
      cases hc
    · rw [h2]
      exact ⟨by omega, by omega, fun _ => by omega, by simp⟩
    · rw [h2]
      exact ⟨by omega, by omega, by simp, by simp⟩

/-- What a tile step does, once: it fails on a bus error, or it goes on with `PassInv`, the outputs of the tile
written. -/
theorem tileStep_spec {c : Command} {s : State} (h : PassInv c s) (hp : s.phase = .tile)
    (hacc : s.acc = Vector.replicate 8 none) :
    tileStep c s = .error .busError ∨
      ∃ w, tileStep c s = .ok (tiled c s w) ∧ TileWindow c s w ∧ PassInv c (tiled c s w) := by
  have hf := tileFits_of_passInv h hp
  rcases tileLoads_spec h hp with hnone | ⟨w, hload, hw⟩
  · left
    unfold tileStep
    rw [hnone]
  · rw [tileStep_of_loaded hacc hf hload hw]
    split
    swap
    · exact Or.inl rfl
    refine Or.inr ⟨w, rfl, hw, ?_⟩
    have hop := sameOperands_tiled c s w
    have hnext := nextCursor_tiled h hp w
    have heq := tiled_eq c s w
    have hraced : (tiled c s w).raced = s.raced := by rw [heq]
    have hmem : (tiled c s w).mem = outputsMemory c s (tileOutputs c s) s.mem := by rw [heq]
    have hwin : (tiled c s w).win = slideWindow w (tapsOf c) (slideBy c s) := by rw [heq]
    clear heq
    have hin : ∀ o ∈ tileOutputs c s, o.row < s.height ∧ o.col < s.width := fun o ho =>
      ⟨(tileOutputs_coords hf ho).2.2.1, (tileOutputs_coords hf ho).2.2.2.1⟩
    generalize htt : tiled c s w = t at *
    clear htt
    constructor
    · exact (hop.legalDescriptor c).mpr h.legal
    · exact (hop.ordinary c).mpr h.ordinary
    · rw [hop.width]; exact h.width_pos
    · rw [hop.height]; exact h.height_pos
    · exact cursorFits_of_next h hp hop hnext
    · intro htp e l
      rw [hwin, windowLane_slide w (tapsOf_bounds c).2, hw]
      have hl : stripLanes c t = stripLanes c s := by
        unfold stripLanes
        unfold NextCursor at hnext
        cases hd : c.dir
        · exact hop.stripWidth
        · rw [hd] at hnext
          simp only [htp] at hnext
          rcases hnext with ⟨_, _, _, _, h5⟩ | ⟨_, h2, _⟩ | ⟨_, h2, _⟩
          · simp only [stripHeight, hop.narrow, hop.height, h5]
          · cases h2
          · cases h2
      rw [hl]
      by_cases hlow : e + 1 < tapsOf c
      · rw [if_pos hlow]
        have hsample : windowSample c t e l = windowSample c s (e + slideBy c s) l := by
          unfold windowSample slideBy
          unfold NextCursor at hnext
          cases hd : c.dir <;> rw [hd] at hnext <;> simp only [htp] at hnext ⊢
          · rcases hnext with ⟨_, _, h3, h4⟩ | ⟨_, h2, _⟩ | ⟨_, h2, _⟩
            · rw [hop.launchSample, h3, h4]
              congr 1
              omega
            · cases h2
            · cases h2
          · rcases hnext with ⟨_, _, h3, h4, h5⟩ | ⟨_, h2, _⟩ | ⟨_, h2, _⟩
            · have htw : tileWidth s = 8 := by simp [tileWidth, h3]
              rw [hop.launchSample, h4, h5, htw]
              congr 1
              omega
            · cases h2
            · cases h2
        rw [hsample]
        exact if_congr (by constructor <;> rintro ⟨h1, h2⟩ <;> exact ⟨by omega, h2⟩) rfl rfl
      · rw [if_neg hlow, if_neg (fun hc => hlow hc.1)]
    · refine SourceUntouched.congr hop hraced h.source ?_
      intro a ha
      rw [hmem]
      exact readByte_outputsMemory_outside ha hin
    · intro hnr hdist r hr col hcol hwr
      have hnr : HostKeepsOff s := fun w hw => hnr w (hraced.symm ▸ hw)
      have hdist := hop.destDistinct.mp hdist
      rw [hop.height] at hr
      rw [hop.width] at hcol
      rw [hop.destAddr, hop.referenceSample, hmem, readSample_outputsMemory h.legal hdist hr hcol hin]
      split
      · rfl
      · next hnot =>
        refine h.written hnr hdist r hr col hcol ?_
        rw [tileOutputs_mem] at hnot
        have hleg := (firstError_eq_none.mp h.legal).2.2.1
        have hcur := h.cursor
        unfold CursorFits at hcur
        unfold OutputWritten at hwr ⊢
        unfold NextCursor at hnext
        rw [hp]
        cases hd : c.dir <;> rw [hd] at hwr hnext hnot hcur <;> simp only at hnext hnot hcur ⊢
        · have hmul := (hcur.2.1 (by rw [hp]; decide))
          rcases hnext with ⟨_, h2, h3, h4⟩ | ⟨h1, h2, h3, h4, h5, h6⟩ | ⟨h1, h2, h3, h4, h5⟩
          · simp only [h2] at hwr
            rw [h3, h4, hop.stripWidth] at hwr
            omega
          · simp only [h2] at hwr
            have hsw : stripWidth s = 8 := by simp [stripWidth, h3]
            omega
          · omega
        · have hlt := hcur.2.2.1 (by rw [hp]; decide)
          rcases hnext with ⟨_, h2, h3, h4, h5⟩ | ⟨h1, h2, h3, h4, h5⟩ | ⟨h1, h2, h3, h4, h5⟩
          · simp only [h2] at hwr
            have htw : tileWidth s = 8 := by simp [tileWidth, h3]
            have hsh : stripHeight t = stripHeight s := by simp only [stripHeight, hop.narrow, hop.height, h5]
            rw [h4, h5, hsh] at hwr
            omega
          · simp only [h2] at hwr
            omega
          · omega

/-- Where every address of the footprints answers, a tile step does not fail. -/
theorem tileStep_mapped {c : Command} {s : State} (h : PassInv c s) (hp : s.phase = .tile)
    (hacc : s.acc = Vector.replicate 8 none) (hm : FootprintsMapped c s) :
    ∃ w, tileStep c s = .ok (tiled c s w) ∧ TileWindow c s w ∧ PassInv c (tiled c s w) := by
  rcases tileStep_spec h hp hacc with he | h'
  · exfalso
    have hf := tileFits_of_passInv h hp
    rcases tileLoads_spec h hp with hnone | ⟨w, hload, hw⟩
    · obtain ⟨w', hw'⟩ := loadWindow_isSome (c := c) (s := s) (lds := tileLoads c s) (w := s.win) (fun ld hld => by
        obtain ⟨_, _, h3, h4⟩ := tileLoads_coords h.width_pos h.height_pos hf hld
        exact hm.1 _ h3 _ h4)
      rw [hw'] at hnone
      cases hnone
    · rw [tileStep_of_loaded hacc hf hload hw, if_pos] at he
      · cases he
      · intro o ho
        obtain ⟨_, _, h3, h4, _⟩ := tileOutputs_coords hf ho
        exact hm.2 _ h3 _ h4
  · exact h'

end Sys2Proof.Machine
end

