-- ==== Sys2Proof/Laws/Stopped.lean ====
section
/-! SUPPORT. The laws of the memory a command leaves at its end: completed, stopped or cut short (20_memory.md R79,
60_exceptions.md R217, 70_reset_and_hazards.md R241). -/

namespace Sys2Proof.Machine

open Sys2Proof

/-! ### Settling the destination -/

/-- Copying a sample from one memory to another copies its two bytes. -/
theorem readByte_copySample {m n : Memory} {b : Word} (x : Word) :
    (m.writeSample b (n.readSample b)).readByte x.toNat =
      if x = b ∨ x = b + 1 then n.readByte x.toNat else m.readByte x.toNat := by
  have h := Memory.bytes_of_readSample (Memory.readSample_writeSample_same m b (n.readSample b))
  split
  · next hx =>
    rcases hx with rfl | rfl
    · exact h.1
    · exact h.2
  · next hx =>
    rw [not_or] at hx
    exact Memory.readByte_writeSample_other hx.1 hx.2

/-- Settling copies the destination's bytes and leaves every other byte. -/
theorem readByte_settledMemory (s : State) (final : Memory) (a : Word) :
    Memory.readByte (settledMemory s final) a.toNat =
      if (destPlane s).holds a then final.readByte a.toNat else Memory.readByte s.mem a.toNat := by
  unfold settledMemory
  cases ha : (destPlane s).holds a
  · rw [if_neg (by decide)]
    refine foldl_keeps (P := fun m => Memory.readByte m a.toNat = Memory.readByte s.mem a.toNat) (fun m p hp hm => ?_) rfl
    obtain ⟨hr, hc⟩ := mem_destCoords.mp hp
    obtain ⟨h0, h1⟩ := ne_destAddr_of_not_holds ha hr hc
    exact (Memory.readByte_writeSample_other h0 h1).trans hm
  · rw [if_pos rfl]
    obtain ⟨r, hr, col, hc, hbyte⟩ := Plane.byte_of_sample _ ha
    refine foldl_reaches (P := fun m => Memory.readByte m a.toNat = final.readByte a.toNat) (q := (r, col))
      (fun m => ?_) (fun m p _ hm => ?_) (mem_destCoords.mpr ⟨hr, hc⟩)
    · exact (readByte_copySample a).trans (if_pos hbyte)
    · rw [readByte_copySample, hm, ite_self]

theorem wf_settledMemory {s : State} {final : Memory} (h : Memory.wf s.mem = true) :
    Memory.wf (settledMemory s final) = true :=
  foldl_keeps (P := fun m => m.wf = true) (fun _ _ _ hm => Memory.wf_writeSample _ _ _ hm) h

theorem readByte_settledMemory_outside {s : State} {final : Memory} {a : Word} (ha : (destPlane s).holds a = false) :
    Memory.readByte (settledMemory s final) a.toNat = Memory.readByte s.mem a.toNat := by
  rw [readByte_settledMemory, ha]
  rfl

theorem destinationIs_settled {s t : State} {final : Memory} (h : t.mem = settledMemory s final) :
    DestinationIs s t final := by
  intro a ha
  rw [h, readByte_settledMemory, if_pos ha]

/-- Where the destination is that of a memory, so is each output. -/
theorem DestinationIs.readSample {s t : State} {m : Memory} (h : DestinationIs s t m) {r col : Nat} (hr : r < s.height)
    (hc : col < s.width) : Memory.readSample t.mem (destAddr s r col) = m.readSample (destAddr s r col) := by
  have hheld := Plane.holds_sample (destPlane s) (r := r) (c := col) hr hc (destPlane_span s)
  exact Memory.readSample_congr (h _ hheld.1) (h _ hheld.2)

/-- The destination is that of a memory if each output is. -/
theorem destinationIs_of_samples {s t : State} {m : Memory}
    (h : ∀ r < s.height, ∀ col < s.width,
      Memory.readSample t.mem (destAddr s r col) = m.readSample (destAddr s r col)) : DestinationIs s t m := by
  intro a ha
  obtain ⟨r, hr, col, hc, hbyte⟩ := Plane.byte_of_sample _ ha
  have hb := Memory.bytes_of_readSample (h r hr col hc)
  rcases hbyte with rfl | rfl
  · exact hb.1
  · exact hb.2

theorem DestinationIs.congr {s t u : State} {m : Memory} (ho : SameOperands s u) (h : DestinationIs u t m) :
    DestinationIs s t m := by
  intro a ha
  exact h a (by rw [ho.destPlane]; exact ha)

/-! ### A command cut short -/

/-- What a stopped or abandoned command leaves, said once. -/
structure LeftMixed (c : Command) (s t : State) : Prop where
  outside : OutsideDestSame s t
  mixture : ∀ r < s.height, ∀ col < s.width, Undisturbed c s r col →
    Memory.readSample t.mem (destAddr s r col) = Memory.readSample s.launchMem (destAddr s r col) ∨
      s.mapped (destAddr s r col) = true ∧ Memory.readSample t.mem (destAddr s r col) = referenceSample c s r col
  ordered : ∃ (o : AccessOrder) (written : Nat → Nat → Bool),
    (∀ r col, written r col = true → s.mapped (destAddr s r col) = true) ∧ DestinationIs s t (orderedMemory c s o written)

theorem leftMixed_stopped {c : Command} {s t : State} (hl : LegalDescriptor c s) (h : t.mem = stoppedMemory c s) :
    LeftMixed c s t := by
  have hd := destinationIs_settled (s := s) (t := t) h
  refine ⟨fun a ha => ?_, fun r hr col hc hu => ?_, _, _, fun r col hw => (Bool.and_eq_true _ _ ▸ hw).1, hd⟩
  · rw [h]
    exact readByte_settledMemory_outside ha
  · rw [hd.readSample hr hc, readSample_orderedMemory hl hr hc hu]
    split
    · next hw => exact Or.inr ⟨(Bool.and_eq_true _ _ ▸ hw).1, rfl⟩
    · exact Or.inl rfl

/-- What a command leaves is said of the state it is cut short in, or of one from which only outputs were written. -/
theorem LeftMixed.congr {c : Command} {s t u : State} (ho : SameOperands s u) (hr : u.raced = s.raced)
    (hm : OutsideDestSame s u) (h : LeftMixed c u t) : LeftMixed c s t := by
  refine ⟨fun a ha => (h.outside a (by rw [ho.destPlane]; exact ha)).trans (hm a ha), fun r hrow col hc hu => ?_, ?_⟩
  · have hmix := h.mixture r (by rw [ho.height]; exact hrow) col (by rw [ho.width]; exact hc)
      ((ho.undisturbed hr c r col).mpr hu)
    rwa [ho.destAddr, ho.mapped, ho.referenceSample, ho.launchMem] at hmix
  · obtain ⟨o, written, hans, hord⟩ := h.ordered
    rw [ho.orderedMemory hr] at hord
    exact ⟨o, written, fun r col hw => by rw [← ho.destAddr, ← ho.mapped]; exact hans r col hw, hord.congr ho⟩

theorem wf_stoppedMemory {c : Command} {s : State} (h : Memory.wf s.mem = true) :
    Memory.wf (stoppedMemory c s) = true := wf_settledMemory h

/-! ### A command that completes -/

/-- What a completed command leaves, said once. -/
structure LeftComplete (c : Command) (s t : State) : Prop where
  outside : OutsideDestSame s t
  outputs : ∀ r < s.height, ∀ col < s.width, Undisturbed c s r col →
    Memory.readSample t.mem (destAddr s r col) = referenceSample c s r col
  ordered : ∃ o : AccessOrder, DestinationIs s t (orderedMemory c s o fun _ _ => true)

theorem LeftComplete.congr {c : Command} {s t u : State} (ho : SameOperands s u) (hr : u.raced = s.raced)
    (hm : OutsideDestSame s u) (h : LeftComplete c u t) : LeftComplete c s t := by
  refine ⟨fun a ha => (h.outside a (by rw [ho.destPlane]; exact ha)).trans (hm a ha), fun r hrow col hc hu => ?_, ?_⟩
  · have hval := h.outputs r (by rw [ho.height]; exact hrow) col (by rw [ho.width]; exact hc)
      ((ho.undisturbed hr c r col).mpr hu)
    rwa [ho.destAddr, ho.referenceSample] at hval
  · obtain ⟨o, hord⟩ := h.ordered
    rw [ho.orderedMemory hr] at hord
    exact ⟨o, hord.congr ho⟩

theorem settleOutputs_of_uncontested {c : Command} {s : State} (h : Uncontested c s) : settleOutputs c s = s := by
  unfold settleOutputs
  rw [contested_eq_false.mpr h]
  rfl

/-- Settling changes the memory alone. -/
theorem settleOutputs_eq (c : Command) (s : State) :
    settleOutputs c s = { s with mem := (settleOutputs c s).mem } := by
  unfold settleOutputs
  split <;> rfl

theorem wf_settleOutputs {c : Command} {s : State} (h : Memory.wf s.mem = true) :
    Memory.wf (settleOutputs c s).mem = true := by
  unfold settleOutputs
  split
  · exact wf_settledMemory h
  · exact h

theorem readByte_settleOutputs_outside {c : Command} {s : State} {a : Word} (ha : (destPlane s).holds a = false) :
    Memory.readByte (settleOutputs c s).mem a.toNat = Memory.readByte s.mem a.toNat := by
  unfold settleOutputs
  split
  · exact readByte_settledMemory_outside ha
  · rfl

/-- What a command at its completion step leaves. -/
theorem leftComplete_settled {c : Command} {s t : State} (h : PassInv c s) (hp : s.phase = .complete)
    (ht : t.mem = (settleOutputs c s).mem) : LeftComplete c s t := by
  have hord : DestinationIs s t (orderedMemory c s (Config.accessOrder s.launches) fun _ _ => true) := by
    cases hc : contested c s
    · have hu := contested_eq_false.mp hc
      rw [settleOutputs_of_uncontested hu] at ht
      refine destinationIs_of_samples fun r hr col hcol => ?_
      rw [readSample_orderedMemory h.legal hr hcol (hu.undisturbed hr hcol), if_pos rfl, ht]
      refine h.written hu.1 hu.2.2 r hr col hcol ?_
      unfold OutputWritten
      rw [hp]
      trivial
    · refine destinationIs_settled ?_
      rw [ht]
      unfold settleOutputs
      rw [if_pos hc]
  refine ⟨fun a ha => ?_, fun r hr col hcol hu => ?_, _, hord⟩
  · rw [ht, readByte_settleOutputs_outside ha]
  · rw [hord.readSample hr hcol, readSample_orderedMemory h.legal hr hcol hu, if_pos rfl]

end Sys2Proof.Machine
end

