-- ==== Sys2Proof/Laws/Engine.lean ====
section
/-! SUPPORT. The laws of the engine: what one engine step can do, what it leaves alone, and that a command ends. -/

namespace Sys2Proof.Machine

open Sys2Proof

/-! ### What an engine step leaves alone, in every state -/

/-- The state after an engine step differs from the one before at most in phase, flags, window, cursor, accumulators
and memory. -/
structure StepFrame (s t : State) : Prop where
  frame : EngineFrame s t
  inbox : t.inbox = s.inbox

theorem StepFrame.refl (s : State) : StepFrame s s := ⟨EngineFrame.refl s, rfl⟩

theorem StepFrame.trans {s t u : State} (h : StepFrame s t) (k : StepFrame t u) : StepFrame s u :=
  ⟨h.frame.trans k.frame, k.inbox.trans h.inbox⟩

theorem stepFrame_mk {s t : State} {phase : Phase} {done err : Bool} {ecode : BitVec 4} {win : Window}
    {cx cy : BitVec 16} {acc : Vector (Option Acc) 8} {mem : List Host.Cell} (h : t = { s with
      phase := phase, done := done, err := err, ecode := ecode, win := win, cx := cx, cy := cy, acc := acc, mem := mem }) :
    StepFrame s t := by
  rw [h]
  refine ⟨?_, rfl⟩
  constructor
  · exact sameOperands_of_eq rfl
  all_goals rfl

theorem stepFrame_raiseErr (e : ErrCause) (s : State) : StepFrame s (raiseErr e s) := stepFrame_mk rfl

theorem stepFrame_completeCommand (s : State) : StepFrame s (completeCommand s) := stepFrame_mk rfl

theorem stepFrame_settleOutputs (c : Command) (s : State) : StepFrame s (settleOutputs c s) :=
  stepFrame_mk (settleOutputs_eq c s)

theorem stepFrame_dispatchStep (c : Command) (s : State) : StepFrame s (dispatchStep c s) := by
  unfold dispatchStep
  split
  · exact stepFrame_raiseErr _ s
  · split
    · exact stepFrame_completeCommand s
    · exact stepFrame_mk rfl

theorem stepFrame_writeOutput {c : Command} {s t : State} {o : Output} (h : writeOutput c s o = .ok t) :
    StepFrame s t := by
  unfold writeOutput at h
  split at h
  · cases h
  · simp only at h
    split at h
    · cases h
    · split at h
      · cases h
      · simp only [Except.ok.injEq] at h
        subst h
        exact stepFrame_mk rfl

theorem stepFrame_writeOutputs {c : Command} : ∀ {outs : List Output} {s t : State},
    writeOutputs c outs s = .ok t → StepFrame s t
  | [], s, t, h => by
    simp only [writeOutputs, Except.ok.injEq] at h
    subst h
    exact StepFrame.refl s
  | o :: rest, s, t, h => by
    unfold writeOutputs at h
    split at h
    · cases h
    next u hu => exact (stepFrame_writeOutput hu).trans (stepFrame_writeOutputs h)

theorem stepFrame_advance (c : Command) (s t : State) : StepFrame t (advance c s t) := stepFrame_mk (advance_eq c s t)

theorem stepFrame_primeStep {c : Command} {s t : State} (h : primeStep c s = .ok t) : StepFrame s t := by
  unfold primeStep at h
  simp only at h
  split at h
  · cases h
  · simp only [Except.ok.injEq] at h
    subst h
    unfold stripStart
    split <;> exact stepFrame_mk rfl

theorem stepFrame_tileStep {c : Command} {s t : State} (h : tileStep c s = .ok t) : StepFrame s t := by
  unfold tileStep at h
  split at h
  · cases h
  next w hw =>
    split at h
    · cases h
    next u hu =>
      simp only [Except.ok.injEq] at h
      subst h
      have h1 : StepFrame s { s with win := w } := stepFrame_mk rfl
      have h2 := stepFrame_writeOutputs hu
      have h3 : StepFrame u { u with win := slideWindow u.win (tapsOf c) (slideBy c s) } := stepFrame_mk rfl
      exact ((h1.trans h2).trans h3).trans (stepFrame_advance c s _)

theorem stepFrame_afterAccesses {c : Command} {s t : State} {r : Except Stop State}
    (hr : ∀ u, r = .ok u → StepFrame s u) (h : afterAccesses c s r = .next t) : StepFrame s t := by
  unfold afterAccesses at h
  split at h
  · next u =>
    simp only [Host.Outcome.next.injEq] at h
    subst h
    exact hr _ rfl
  · simp only [Host.Outcome.next.injEq] at h
    subst h
    exact stepFrame_mk rfl
  · cases h

/-- What no engine step changes, in every state: descriptor, taps, `IE`, `RESET`, the host's side. -/
theorem stepFrame_engineStep {c : Command} {s t : State} (h : engineStep c s = .next t) : StepFrame s t := by
  unfold engineStep at h
  split at h
  · simp only [Host.Outcome.next.injEq] at h
    subst h
    exact StepFrame.refl s
  · split at h
    · cases h
    · simp only [Host.Outcome.next.injEq] at h
      subst h
      exact stepFrame_dispatchStep c s
  · exact stepFrame_afterAccesses (fun u hu => stepFrame_primeStep hu) h
  · exact stepFrame_afterAccesses (fun u hu => stepFrame_tileStep hu) h
  · simp only [Host.Outcome.next.injEq] at h
    subst h
    exact (stepFrame_settleOutputs c s).trans (stepFrame_completeCommand _)

theorem stepFrame_runEngine {c : Command} : ∀ {n : Nat} {s t : State}, runEngine c n s = .next t → StepFrame s t
  | 0, s, t, h => by
    simp only [runEngine, Host.Outcome.next.injEq] at h
    subst h
    exact StepFrame.refl s
  | n + 1, s, t, h => by
    unfold runEngine at h
    split at h
    · simp only [Host.Outcome.next.injEq] at h
      subst h
      exact StepFrame.refl s
    · split at h
      next u hu => exact (stepFrame_engineStep hu).trans (stepFrame_runEngine h)
      · cases h
      · cases h

/-! ### The steps of a command in `RUN` -/

/-- How many engine steps a command in `RUN` can still take (40_dispatch.md R132). -/
def stepsLeft (c : Command) (s : State) : Nat :=
  match s.phase with
  | .idle => 0
  | .complete => 1
  | .dispatch => s.width * s.height + s.width + s.height + 3
  | .prime =>
    match c.dir with
    | .vertical => (s.width - s.cx.toNat) * (s.height + 1) + 2
    | .horizontal => (s.height - s.cy.toNat) * (s.width + 1) + 2
  | .tile =>
    match c.dir with
    | .vertical => (s.width - s.cx.toNat) * (s.height + 1) - s.cy.toNat + 1
    | .horizontal => (s.height - s.cy.toNat) * (s.width + 1) - s.cx.toNat + 1

/-- The states of a command in `RUN`: `PassInv`, no accumulator holds a value, no flag is set. -/
structure Running (c : Command) (s : State) : Prop where
  inv : PassInv c s
  phase : s.running = true
  acc : s.acc = Vector.replicate 8 none
  flags : s.err = false ∧ s.ecode = 0

/-- The ends of a command: completed with every output written, or stopped on a bus error. -/
inductive Ended (c : Command) (s t : State) : Prop where
  | completed (idle : t.phase = .idle) (done : t.done = true) (flags : t.err = s.err ∧ t.ecode = s.ecode)
      (win : t.win = emptyWindow) (acc : t.acc = s.acc) (mem : t.mem = (settleOutputs c s).mem) (was : s.phase = .complete)
  | stopped (busErr : t = raiseErr .bus { s with mem := stoppedMemory c s })
      (unmapped : ¬FootprintsMapped c s)

theorem mul_sub_step {a b k n : Nat} (hk : k ≤ a) (hb : 1 ≤ k) (hn : b ≤ n) : (a - k) * n + b ≤ a * n := by
  have h1 : (a - k) * n + k * n = a * n := by
    rw [← Nat.add_mul, Nat.sub_add_cancel hk]
  have h2 : 1 * n ≤ k * n := Nat.mul_le_mul_right n hb
  omega

/-- One engine step of a command in `RUN`: it goes on in `RUN` with less to do, the outputs behind the cursor written and
nothing outside the destination changed, or it ends. -/
theorem engineStep_running {c : Command} {s : State} (h : Running c s) :
    ∃ t, engineStep c s = .next t ∧ OutsideDestSame s t ∧
      ((Running c t ∧ t.done = s.done ∧ stepsLeft c t < stepsLeft c s) ∨ Ended c s t) := by
  have hph := h.phase
  simp only [State.running, Bool.or_eq_true, beq_iff_eq] at hph
  rcases hph with (hp | hp) | hp
  · rcases primeStep_spec h.inv hp with he | ⟨w, he, hinv⟩
    · have hun : ¬FootprintsMapped c s := by
        intro hm
        obtain ⟨w, hw, _⟩ := primeStep_mapped h.inv hp hm
        rw [hw] at he
        cases he
      refine ⟨raiseErr .bus { s with mem := stoppedMemory c s }, ?_, ?_, Or.inr (.stopped rfl hun)⟩
      · simp only [engineStep, hp, he, afterAccesses]
      · exact (leftMixed_stopped h.inv.legal rfl).outside
    · refine ⟨primed c s w, ?_, ?_, Or.inl ⟨⟨hinv, rfl, ?_, ?_⟩, ?_, ?_⟩⟩
      · simp only [engineStep, hp, he, afterAccesses]
      · intro a _
        rw [show (primed c s w).mem = s.mem from stripStart_mem c s]
      · refine Eq.trans ?_ h.acc
        unfold primed stripStart
        split <;> rfl
      · unfold primed stripStart
        split <;> exact h.flags
      · unfold primed stripStart
        split <;> rfl
      · have hop := sameOperands_primed c s w
        unfold stepsLeft
        have hpt : (primed c s w).phase = .tile := rfl
        rw [hp, hpt, hop.width, hop.height]
        cases hd : c.dir <;> simp only [primed, stripStart, hd]
        · simp
        · simp
  · rcases tileStep_spec h.inv hp h.acc with he | ⟨w, he, _, hinv⟩
    · have hun : ¬FootprintsMapped c s := by
        intro hm
        obtain ⟨w, hw, _⟩ := tileStep_mapped h.inv hp h.acc hm
        rw [hw] at he
        cases he
      refine ⟨raiseErr .bus { s with mem := stoppedMemory c s }, ?_, ?_, Or.inr (.stopped rfl hun)⟩
      · simp only [engineStep, hp, he, afterAccesses]
      · exact (leftMixed_stopped h.inv.legal rfl).outside
    · have hop := sameOperands_tiled c s w
      have hnext := nextCursor_tiled h.inv hp w
      have heq := tiled_eq c s w
      have hmem : (tiled c s w).mem = outputsMemory c s (tileOutputs c s) s.mem := by rw [heq]
      have hacc : (tiled c s w).acc = s.acc := by rw [heq]
      have hdone : (tiled c s w).done = s.done := by rw [heq]
      have herr : (tiled c s w).err = s.err := by rw [heq]
      have hcode : (tiled c s w).ecode = s.ecode := by rw [heq]
      clear heq
      have hf := tileFits_of_passInv h.inv hp
      refine ⟨tiled c s w, ?_, ?_, Or.inl ⟨⟨hinv, ?_, hacc.trans h.acc, ?_⟩, hdone, ?_⟩⟩
      · simp only [engineStep, hp, he, afterAccesses]
      · intro a ha
        rw [hmem]
        exact readByte_outputsMemory_outside ha fun o ho =>
          ⟨(tileOutputs_coords hf ho).2.2.1, (tileOutputs_coords hf ho).2.2.2.1⟩
      · unfold NextCursor at hnext
        unfold State.running
        cases hd : c.dir <;> rw [hd] at hnext <;> simp only at hnext
        · rcases hnext with ⟨_, h2, _⟩ | ⟨_, h2, _⟩ | ⟨_, h2, _⟩ <;> rw [h2] <;> rfl
        · rcases hnext with ⟨_, h2, _⟩ | ⟨_, h2, _⟩ | ⟨_, h2, _⟩ <;> rw [h2] <;> rfl
      · exact ⟨herr.trans h.flags.1, hcode.trans h.flags.2⟩
      · have hcur := h.inv.cursor
        have hw0 := h.inv.width_pos
        have hh0 := h.inv.height_pos
        unfold CursorFits at hcur
        unfold TileFits at hf
        unfold NextCursor at hnext
        unfold stepsLeft
        rw [hp, hop.width, hop.height]
        cases hd : c.dir <;> rw [hd] at hnext hcur hf <;> simp only at hnext hcur hf ⊢
        · have hsw := stripWidth_pos hw0
          have hth := (tileHeight_fits s hcur.2.2.2).2.2 (hcur.2.2.1 hp)
          have hlt := hcur.2.2.1 hp
          have hone := mul_sub_step (a := s.width - s.cx.toNat) (b := s.height + 1) (k := 1) (n := s.height + 1)
            (by omega) (by omega) (by omega)
          rcases hnext with ⟨h1, h2, h3, h4⟩ | ⟨h1, h2, h3, h4, h5, h6⟩ | ⟨h1, h2, _⟩
          · simp only [h2, h3, h4]
            omega
          · simp only [h2, h4]
            have hm := mul_sub_step (a := s.width - s.cx.toNat) (b := s.height + 1) (k := 8) (n := s.height + 1)
              (by omega) (by omega) (by omega)
            rw [show s.width - (s.cx.toNat + 8) = s.width - s.cx.toNat - 8 by omega]
            omega
          · simp only [h2]
            omega
        · have htw := tileWidth_pos hw0
          have hlt := hcur.2.2.1 (by rw [hp]; decide)
          have hsh := stripHeight_fits hlt
          have hone := mul_sub_step (a := s.height - s.cy.toNat) (b := s.width + 1) (k := 1) (n := s.width + 1)
            (by omega) (by omega) (by omega)
          rcases hnext with ⟨h1, h2, h3, h4, h5⟩ | ⟨h1, h2, h3, h4, h5⟩ | ⟨h1, h2, _⟩
          · simp only [h2, h4, h5]
            omega
          · simp only [h2, h4]
            have hm := mul_sub_step (a := s.height - s.cy.toNat) (b := s.width + 1) (k := stripHeight s)
              (n := s.width + 1) (by omega) (by omega) (by omega)
            rw [show s.height - (s.cy.toNat + stripHeight s) = s.height - s.cy.toNat - stripHeight s by omega]
            omega
          · simp only [h2]
            omega
  · refine ⟨completeCommand (settleOutputs c s), ?_, ?_, Or.inr (.completed rfl rfl ?_ rfl ?_ rfl hp)⟩
    · simp only [engineStep, hp]
    · intro a ha
      exact readByte_settleOutputs_outside ha
    · rw [settleOutputs_eq]
      exact ⟨rfl, rfl⟩
    · rw [settleOutputs_eq]
      rfl

/-- A command in `RUN` ends within `stepsLeft` engine steps: completed, or stopped on a bus error; nothing outside the
destination footprint changes. -/
theorem runEngine_running {c : Command} : ∀ {n : Nat} {s : State}, Running c s → stepsLeft c s ≤ n →
    ∃ u t, runEngine c n s = .next t ∧ Running c u ∧ u.done = s.done ∧ StepFrame s u ∧ OutsideDestSame s u ∧
      engineStep c u = .next t ∧ Ended c u t ∧ OutsideDestSame u t
  | 0, s, h, hn => by
    exfalso
    have hph := h.phase
    simp only [State.running, Bool.or_eq_true, beq_iff_eq] at hph
    unfold stepsLeft at hn
    rcases hph with (hp | hp) | hp
    · rw [hp] at hn
      cases hd : c.dir <;> simp [hd] at hn
    · rw [hp] at hn
      cases hd : c.dir <;> simp [hd] at hn
    · rw [hp] at hn
      simp at hn
  | n + 1, s, h, hn => by
    have hne : s.phase ≠ .idle := by
      intro he
      have hph := h.phase
      rw [State.running, he] at hph
      exact absurd hph (by decide)
    obtain ⟨t, ht, hout, hcase⟩ := engineStep_running h
    have hrun : runEngine c (n + 1) s = runEngine c n t := by
      rw [runEngine, if_neg hne, ht]
    have hframe := stepFrame_engineStep ht
    rcases hcase with ⟨hr, hdone, hlt⟩ | hend
    · obtain ⟨u, v, h1, h2, h3, h4, h5, h6, h7, h8⟩ := runEngine_running (n := n) hr (by omega)
      refine ⟨u, v, hrun.trans h1, h2, h3.trans hdone, hframe.trans h4, ?_, h6, h7, h8⟩
      intro a ha
      have ht' : (destPlane t).holds a = false := by rw [hframe.frame.operands.destPlane]; exact ha
      rw [h5 a ht', hout a ha]
    · have hidle : t.phase = .idle := by
        cases hend with
        | completed idle => exact idle
        | stopped busErr => rw [busErr]; rfl
      refine ⟨s, t, ?_, h, rfl, StepFrame.refl s, fun _ _ => rfl, ht, hend, hout⟩
      rw [hrun]
      cases n with
      | zero => rfl
      | succ n => rw [runEngine, if_pos hidle]

end Sys2Proof.Machine
end

