-- ==== Sys2Proof/Laws/Invariant.lean ====
section
/-! SUPPORT. The invariant's parts: what starting, ending and a host's act keep of it. -/

namespace Sys2Proof.Machine

open Sys2Proof

/-! ### PassInv and what it depends on -/

/-- `PassInv` depends on the operands, the engine's own state and the bytes of the footprints alone. -/
theorem PassInv.congr {c : Command} {s t : State} (h : PassInv c s) (ho : SameOperands s t) (hp : t.phase = s.phase)
    (hx : t.cx = s.cx) (hy : t.cy = s.cy) (hw : t.win = s.win) (hr : t.raced = s.raced)
    (hm : ∀ a : Word, (sourcePlane c s).holds a = true ∨ (destPlane s).holds a = true →
      Memory.readByte t.mem a.toNat = Memory.readByte s.mem a.toNat) : PassInv c t := by
  have hsh : stripHeight t = stripHeight s := by simp only [stripHeight, ho.narrow, ho.height, hy]
  constructor
  · exact (ho.legalDescriptor c).mpr h.legal
  · exact (ho.ordinary c).mpr h.ordinary
  · rw [ho.width]; exact h.width_pos
  · rw [ho.height]; exact h.height_pos
  · have hc := h.cursor
    unfold CursorFits at hc ⊢
    rw [ho.width, ho.height, ho.stripWidth, ho.tileWidth, ho.narrow, hp, hx, hy]
    exact hc
  · intro htp e l
    rw [hp] at htp
    rw [hw, h.window htp e l]
    have hl : stripLanes c t = stripLanes c s := by
      unfold stripLanes
      cases c.dir
      · exact ho.stripWidth
      · exact hsh
    have hs : windowSample c t e l = windowSample c s e l := by
      unfold windowSample
      cases c.dir <;> simp only [ho.launchSample, hx, hy]
    rw [hl, hs]
  · intro a hs
    rw [ho.sourcePlane] at hs
    rw [startByte_congr ho hr fun _ => hm a (Or.inl hs), ho.launchMem]
    exact h.source a hs
  · intro hnr hdist r hrow col hcol hwr
    rw [ho.height] at hrow
    rw [ho.width] at hcol
    rw [ho.destAddr, ho.referenceSample]
    have hheld := Plane.holds_sample (destPlane s) (r := r) (c := col) hrow hcol (destPlane_span s)
    have hsame : Memory.readSample t.mem (destAddr s r col) = Memory.readSample s.mem (destAddr s r col) :=
      Memory.readSample_congr (hm _ (Or.inr hheld.1)) (hm _ (Or.inr hheld.2))
    rw [hsame]
    refine h.written (fun w hw => hnr w (hr.symm ▸ hw)) (ho.destDistinct.mp hdist) r hrow col hcol ?_
    unfold OutputWritten at hwr ⊢
    rw [hp, hx, hy] at hwr
    simpa only [ho.stripWidth, hsh] using hwr

/-- The dispatch step of a legal, non-empty command that has just been started leaves it in `RUN`. -/
theorem running_of_dispatch {c : Command} {s : State} (hl : LegalDescriptor c s) (ho : OrdinaryMemory c s) (hw : 0 < s.width) (hh : 0 < s.height)
    (hx : s.cx = 0) (hy : s.cy = 0) (hsrc : SourceUntouched c s) (hacc : s.acc = Vector.replicate 8 none)
    (hf : s.err = false ∧ s.ecode = 0) : Running c { s with phase := .prime } := by
  have hop : SameOperands s { s with phase := .prime } := sameOperands_of_eq rfl
  refine ⟨⟨hl, ho, hw, hh, ?_, ?_, hsrc, ?_⟩, rfl, hacc, hf⟩
  · unfold CursorFits
    rw [hop.width, hop.height, hop.stripWidth]
    have hsw : stripWidth s ≤ s.width := by
      have hleg := (firstError_eq_none.mp hl).2.2.1
      unfold stripWidth State.narrow
      split
      · omega
      · next hn => simp at hn; omega
    cases c.dir <;> simp [hx, hy]
    · exact hsw
    · exact hh
  · intro hc
    cases hc
  · intro _ _ r _ col _ hwr
    unfold OutputWritten at hwr
    cases hd : c.dir <;> simp [hd, hx, hy] at hwr

theorem sourceUntouched_of_eq {c : Command} {s : State} (h : s.launchMem = s.mem) : SourceUntouched c s := by
  intro a _
  unfold State.startByte
  rw [h]
  split <;> rfl

/-! ### The invariant at the ends of a command -/

/-- The error stop keeps the invariant, whatever canonical memory it leaves. -/
theorem Inv.raiseErr {s : State} (h : Inv s) (hreset : s.resetLine = false) (e : ErrCause) {m : Memory}
    (hm : Memory.wf m = true) : Inv (raiseErr e { s with mem := m }) := by
  constructor
  · exact hm
  · exact h.launchMem
  · rintro ⟨hc, _⟩
    cases hc
  · intro hb
    cases hb
  · refine ⟨⟨fun _ => ?_, fun _ => rfl⟩, ?_⟩
    · show errCode e ≠ 0
      cases e <;> decide
    · show (errCode e).toNat ≤ 7
      cases e <;> decide
  · exact h.acc
  · intro _
    rfl
  · intro hr
    have hr : s.resetLine = true := hr
    rw [hreset] at hr
    cases hr
  · intro hp
    cases hp
  · intro hp
    cases hp

/-- The completion step keeps the invariant, whatever canonical memory it leaves. -/
theorem Inv.completeCommand {s : State} (h : Inv s) (hbusy : s.busy = true) (hreset : s.resetLine = false) {m : Memory}
    (hm : Memory.wf m = true) : Inv (completeCommand { s with mem := m }) := by
  constructor
  · exact hm
  · exact h.launchMem
  · rintro ⟨_, hc⟩
    have hc : s.err = true := hc
    rw [(h.busyFlags hbusy).2] at hc
    cases hc
  · intro hb
    cases hb
  · exact h.code
  · exact h.acc
  · intro _
    rfl
  · intro hr
    have hr : s.resetLine = true := hr
    rw [hreset] at hr
    cases hr
  · intro hp
    cases hp
  · intro hp
    cases hp

/-- While the engine is busy `RESET` is not asserted. -/
theorem Inv.resetLine_of_busy {s : State} (h : Inv s) (hb : s.busy = true) : s.resetLine = false := by
  cases hr : s.resetLine
  · rfl
  · have hs := h.atReset hr
    rw [hs] at hb
    cases hb

/-- A busy engine in `RUN` has the invariant of its pass. -/
theorem Inv.running {s : State} (h : Inv s) (hr : s.running = true) :
    ∃ i, s.decoded = .ok i ∧ Running (commandOf i) s := by
  have hb : s.busy = true := by
    unfold State.running at hr
    unfold State.busy
    revert hr
    cases s.phase <;> decide
  obtain ⟨i, hi, hp⟩ := h.run hr
  refine ⟨i, hi, hp, hr, h.acc, (h.busyFlags hb).2, ?_⟩
  have hne := h.code.1
  by_contra hc
  have := hne.mpr hc
  rw [(h.busyFlags hb).2] at this
  cases this

theorem wf_of_writes {c : Command} {s : State} {w : Window} (h : Memory.wf s.mem = true) :
    Memory.wf (tiled c s w).mem = true := by
  have hmem : (tiled c s w).mem = outputsMemory c s (tileOutputs c s) s.mem := by rw [tiled_eq]
  rw [hmem]
  exact wf_outputsMemory h

/-- The memory after an engine step of a command in `RUN` is in canonical form. -/
theorem wf_engineStep {c : Command} {s t : State} (h : Running c s) (hm : Memory.wf s.mem = true)
    (ht : engineStep c s = .next t) : Memory.wf t.mem = true := by
  have hph := h.phase
  simp only [State.running, Bool.or_eq_true, beq_iff_eq] at hph
  unfold engineStep at ht
  rcases hph with (hp | hp) | hp <;> rw [hp] at ht <;> simp only at ht
  · rcases primeStep_spec h.inv hp with he | ⟨w, he, _⟩ <;> rw [he] at ht <;>
      simp only [afterAccesses, Host.Outcome.next.injEq] at ht <;> subst ht
    · exact wf_stoppedMemory hm
    · rw [show (primed c s w).mem = s.mem from stripStart_mem c s]
      exact hm
  · rcases tileStep_spec h.inv hp h.acc with he | ⟨w, he, _⟩ <;> rw [he] at ht <;>
      simp only [afterAccesses, Host.Outcome.next.injEq] at ht <;> subst ht
    · exact wf_stoppedMemory hm
    · exact wf_of_writes hm
  · simp only [Host.Outcome.next.injEq] at ht
    subst ht
    exact wf_settleOutputs hm

/-- Dropping or adding events changes nothing the invariant speaks of. -/
theorem Inv.inbox {s : State} (h : Inv s) (es : List Event) : Inv { s with inbox := es } := by
  constructor
  · exact h.mem
  · exact h.launchMem
  · exact h.oneFlag
  · exact h.busyFlags
  · exact h.code
  · exact h.acc
  · exact h.windowIdle
  · intro hr
    have hs := h.atReset hr
    generalize State.reset = r at hs ⊢
    rw [hs]
  · exact h.started
  · intro hr
    obtain ⟨i, hi, hp⟩ := h.run hr
    exact ⟨i, hi, hp.congr (sameOperands_of_eq rfl) rfl rfl rfl rfl rfl (fun _ _ => rfl)⟩

/-- The platform's map is nothing the invariant speaks of. -/
theorem Inv.unmapped {s : State} (h : Inv s) (rs : List (Nat × Nat)) : Inv { s with unmapped := rs } := by
  constructor
  · exact h.mem
  · exact h.launchMem
  · exact h.oneFlag
  · exact h.busyFlags
  · exact h.code
  · exact h.acc
  · exact h.windowIdle
  · intro hr
    have hs := h.atReset hr
    generalize State.reset = r at hs ⊢
    rw [hs]
  · exact h.started
  · intro hr
    obtain ⟨i, hi, hp⟩ := h.run hr
    exact ⟨i, hi, hp.legal, hp.ordinary, hp.width_pos, hp.height_pos, hp.cursor, hp.window, hp.source, hp.written⟩

end Sys2Proof.Machine
end

