-- ==== Sys2Proof/Laws/Turn.lean ====
section
/-! SUPPORT. Whose turn it is, and what a command does in one step of the machine, said once. -/

namespace Sys2Proof.Machine

open Sys2Proof

/-- Every instruction's meaning is the run of its command. -/
theorem exec_eq_runCommand (i : Instr) (s : State) : exec i s = runCommand (commandOf i) s := by
  cases i <;> rfl

theorem runCommand_of_engine {c : Command} {s : State} {rest : List Event} (h : s.inbox = .engine :: rest) :
    runCommand c s = engineStep c { s with inbox := rest } := by
  unfold runCommand
  rw [h]

theorem runCommand_of_alone {c : Command} {s : State} (h : RunsToEnd s) :
    runCommand c s = runEngine c (stepBound s) s := by
  unfold runCommand
  split
  · next rest he => exact absurd (by rw [he]; rfl) h
  · rfl

theorem dropEngineEvent_eq (s : State) : dropEngineEvent s = { s with inbox := (dropEngineEvent s).inbox } := by
  unfold dropEngineEvent
  split <;> rfl

theorem dropEngineEvent_of_alone {s : State} (h : RunsToEnd s) : dropEngineEvent s = s := by
  unfold dropEngineEvent
  split
  · next rest he => exact absurd (by rw [he]; rfl) h
  · rfl

theorem dropEngineEvent_of_engine {s : State} {rest : List Event} (h : s.inbox = .engine :: rest) :
    dropEngineEvent s = { s with inbox := rest } := by
  unfold dropEngineEvent
  rw [h]

theorem busy_of_ne_idle {s : State} (h : s.phase ≠ .idle) : s.busy = true := by
  simp [State.busy, h]

theorem ne_idle_of_busy {s : State} (h : s.busy = true) : s.phase ≠ .idle := by
  simpa [State.busy] using h

/-- A busy engine whose turn it is takes it. -/
theorem step_of_engineIsNext {s : State} (hb : s.busy = true) (h : EngineIsNext s) : step s = engineTurn s := by
  unfold step takeTurn
  split
  · next op rest he => exact absurd he (h op rest)
  · unfold waitTurn
    rw [if_pos hb]
  · rfl
  · rfl

theorem engineTurn_of_decoded {i : Instr} {s : State} (hp : s.phase ≠ .idle) (hd : s.decoded = .ok i) :
    engineTurn s = exec i s := by
  unfold engineTurn
  rw [if_neg hp, hd]

theorem step_of_host {s : State} {op : HostOp} {rest : List Event} (h : s.inbox = .host op :: rest) :
    step s = hostAct op { s with inbox := rest } := by
  unfold step takeTurn
  rw [h]

/-- The launches that are refused: the legal ones at a device (20_memory.md R73). -/
theorem launchesAtDevice_iff {c : Command} {s : State} :
    launchesAtDevice c s = true ↔ LegalDescriptor c s ∧ ¬OrdinaryMemory c s := by
  unfold launchesAtDevice LegalDescriptor
  rw [Bool.and_eq_true, Option.isNone_iff_eq_none, ordinaryMemory_iff, Bool.not_eq_false]

theorem launchesAtDevice_of_ordinary {c : Command} {s : State} (h : LegalDescriptor c s → OrdinaryMemory c s) :
    launchesAtDevice c s = false := by
  rw [← Bool.not_eq_true, launchesAtDevice_iff]
  exact fun hd => hd.2 (h hd.1)

theorem engineStep_of_dispatch {c : Command} {s : State} (hp : s.phase = .dispatch)
    (ho : LegalDescriptor c s → OrdinaryMemory c s) : engineStep c s = .next (dispatchStep c s) := by
  unfold engineStep
  rw [hp]
  exact if_neg (by rw [launchesAtDevice_of_ordinary ho]; decide)

/-- Using up an event leaves what the engine does the same, but for the events. -/
theorem exec_of_dispatch {i : Instr} {s : State} (hp : s.phase = .dispatch)
    (ho : LegalDescriptor (commandOf i) s → OrdinaryMemory (commandOf i) s)
    (hidle : (dispatchStep (commandOf i) (dropEngineEvent s)).phase = .idle) :
    exec i s = .next (dispatchStep (commandOf i) (dropEngineEvent s)) := by
  rw [exec_eq_runCommand]
  unfold runCommand
  split
  · next rest he =>
    rw [dropEngineEvent_of_engine he]
    exact engineStep_of_dispatch (s := { s with inbox := rest }) hp ho
  · next hne =>
    have hdrop : dropEngineEvent s = s := by
      unfold dropEngineEvent
      split
      · next rest he => exact absurd he (hne rest)
      · rfl
    rw [hdrop] at hidle ⊢
    have hbound : stepBound s = (stepBound s - 2) + 1 + 1 := by
      unfold stepBound
      have : 2 * 2 ≤ (s.width + 2) * (s.height + 2) := Nat.mul_le_mul (by omega) (by omega)
      omega
    rw [hbound, runEngine, if_neg (by rw [hp]; decide)]
    rw [engineStep_of_dispatch hp ho]
    simp only
    rw [runEngine, if_pos hidle]

theorem engineStep_of_prime {c : Command} {s : State} (hp : s.phase = .prime) :
    engineStep c s = afterAccesses c s (primeStep c s) := by
  unfold engineStep
  rw [hp]

theorem engineStep_of_tile {c : Command} {s : State} (hp : s.phase = .tile) :
    engineStep c s = afterAccesses c s (tileStep c s) := by
  unfold engineStep
  rw [hp]

theorem engineStep_of_complete {c : Command} {s : State} (hp : s.phase = .complete) :
    engineStep c s = .next (completeCommand (settleOutputs c s)) := by
  unfold engineStep
  rw [hp]

/-- The dispatch step, said once. -/
theorem dispatchStep_cases (c : Command) (s : State) :
    (∃ e, firstError c s = some e ∧ dispatchStep c s = raiseErr e s) ∨
      (LegalDescriptor c s ∧ (s.width = 0 ∨ s.height = 0) ∧ dispatchStep c s = completeCommand s) ∨
        (LegalDescriptor c s ∧ 0 < s.width ∧ 0 < s.height ∧ dispatchStep c s = { s with phase := .prime }) := by
  unfold dispatchStep
  cases hf : firstError c s with
  | some e => exact Or.inl ⟨e, rfl, rfl⟩
  | none =>
    by_cases hz : s.width = 0 ∨ s.height = 0
    · exact Or.inr (Or.inl ⟨hf, hz, by simp only [if_pos hz]⟩)
    · refine Or.inr (Or.inr ⟨hf, by omega, by omega, by simp only [if_neg hz]⟩)

/-- How a started command runs to its end, said once: it stops at dispatch, it completes at once, or it runs until the
step in which it ends. -/
theorem exec_started {i : Instr} {s : State} (h : JustStarted i s) (ha : RunsToEnd s)
    (ho : LegalDescriptor (commandOf i) s → OrdinaryMemory (commandOf i) s) :
    (∃ e, firstError (commandOf i) s = some e ∧ exec i s = .next (raiseErr e s)) ∨
      (LegalDescriptor (commandOf i) s ∧ (s.width = 0 ∨ s.height = 0) ∧ exec i s = .next (completeCommand s)) ∨
        (LegalDescriptor (commandOf i) s ∧ 0 < s.width ∧ 0 < s.height ∧ ∃ u t, exec i s = .next t ∧
          Running (commandOf i) u ∧ StepFrame s u ∧ OutsideDestSame s u ∧ engineStep (commandOf i) u = .next t ∧
            Ended (commandOf i) u t ∧ OutsideDestSame u t) := by
  have hdrop := dropEngineEvent_of_alone ha
  rcases dispatchStep_cases (commandOf i) s with ⟨e, he, hs⟩ | ⟨hl, hz, hs⟩ | ⟨hl, hw, hh, hs⟩
  · refine Or.inl ⟨e, he, ?_⟩
    rw [exec_of_dispatch h.phase ho (by rw [hdrop, hs]; rfl), hdrop, hs]
  · refine Or.inr (Or.inl ⟨hl, hz, ?_⟩)
    rw [exec_of_dispatch h.phase ho (by rw [hdrop, hs]; rfl), hdrop, hs]
  · refine Or.inr (Or.inr ⟨hl, hw, hh, ?_⟩)
    have hrun := running_of_dispatch hl (ho hl) hw hh h.cx h.cy (sourceUntouched_of_eq h.launchMem) h.acc h.noError
    have hbound : stepBound s = (stepBound s - 1) + 1 := by
      unfold stepBound
      have : 2 * 2 ≤ (s.width + 2) * (s.height + 2) := Nat.mul_le_mul (by omega) (by omega)
      omega
    have hleft : stepsLeft (commandOf i) { s with phase := .prime } ≤ stepBound s - 1 := by
      have hop : SameOperands s { s with phase := .prime } := sameOperands_of_eq rfl
      unfold stepsLeft stepBound
      rw [hop.width, hop.height]
      have hexp : (s.width + 2) * (s.height + 2) = s.width * s.height + 2 * s.width + 2 * s.height + 4 := by ring
      have hexp1 : s.width * (s.height + 1) = s.width * s.height + s.width := by ring
      have hexp2 : s.height * (s.width + 1) = s.width * s.height + s.height := by ring
      cases (commandOf i).dir <;> simp only [h.cx, h.cy, BitVec.toNat_zero, Nat.sub_zero, BitVec.ofNat_eq_ofNat] <;> omega
    obtain ⟨u, t, h1, h2, _, h4, h5, h6, h7, h8⟩ := runEngine_running hrun hleft
    refine ⟨u, t, ?_, h2, ?_, ?_, h6, h7, h8⟩
    · rw [exec_eq_runCommand, runCommand_of_alone ha, hbound, runEngine, if_neg (by rw [h.phase]; decide)]
      rw [engineStep_of_dispatch h.phase ho, hs]
      exact h1
    · exact (stepFrame_mk (t := { s with phase := .prime }) rfl).trans h4
    · exact h5

end Sys2Proof.Machine
end

