-- ==== Sys2Proof/Laws/Result.lean ====
section
/-! SUPPORT. What a command leaves in memory, in the formulas of the rules (40_dispatch.md R136). -/

namespace Sys2Proof.Machine

open Sys2Proof

theorem sampleAt_dest (m : Memory) (s : State) (r col : Nat) :
    sampleAt m s.dst s.dpitch r col = ((Memory.readSample m (destAddr s r col)).toNat : Int) := rfl

/-- The address of a source sample is that of the rules. -/
theorem sourceAddr_eq (c : Command) (s : State) (i j : Nat) :
    sourceAddr c s i j = windowBase c s + 2 * (BitVec.ofNat 32 i * s.spitch + BitVec.ofNat 32 j) := by
  have hp : (sourcePlane c s).pitch = s.spitch := by
    unfold sourcePlane
    split
    · rfl
    · split <;> rfl
  rw [sourceAddr, Plane.addr, sourcePlane_base, hp]

theorem sampleAt_source (m : Memory) (c : Command) (s : State) (i j : Nat) :
    sampleAt m (windowBase c s) s.spitch i j = ((Memory.readSample m (sourceAddr c s i j)).toNat : Int) := by
  rw [sourceAddr_eq]
  rfl

theorem sum_map_range (f : Nat → Int) : ∀ n, ((List.range n).map f).sum = ∑ k ∈ Finset.range n, f k
  | 0 => rfl
  | n + 1 => by
    rw [List.range_succ, List.map_append, List.sum_append, sum_map_range f n, Finset.sum_range_succ]
    simp

/-- The exact sum over a list of samples is the rules' sum over the taps. -/
theorem exactSum_kernel (c : Command) (s : State) (f : Nat → Sample) :
    exactSum (kernel c s) ((List.range (tapsOf c)).map f) =
      ∑ k ∈ Finset.range (tapsOf c), tapValue s k * ((f k).toNat : Int) := by
  have hlen := kernel_length c s
  have hget : ∀ k, k < tapsOf c → (kernel c s)[k]? = some (s.taps.toList.getD k 0) := by
    intro k hk
    have h12 := (tapsOf_bounds c).2
    have hk' : k < s.taps.toList.length := by simp; omega
    rw [kernel, List.getElem?_take_of_lt hk, List.getElem?_eq_getElem hk', List.getD_eq_getElem _ _ hk']
  unfold exactSum
  have hlist : ((kernel c s).zip ((List.range (tapsOf c)).map f)).map (fun p => p.1.toInt * (p.2.toNat : Int)) =
      (List.range (tapsOf c)).map fun k => tapValue s k * ((f k).toNat : Int) := by
    apply List.ext_getElem?
    intro k
    by_cases hk : k < tapsOf c
    · simp [List.getElem?_map, List.getElem?_range hk, List.zip, List.getElem?_zipWith,
        hget k hk, tapValue]
    · rw [List.getElem?_eq_none (by simp; omega), List.getElem?_eq_none (by simp; omega)]
  rw [hlist, sum_map_range]

theorem commandValue_vertical (n : TapCount) (bd fbits round0 : Nat) (s : State) (r col : Nat) :
    commandValue ⟨.vertical, n, bd, fbits, round0⟩ s r col =
      verticalValue (tapNumber n) bd fbits (s.src - 2 * BitVec.ofNat 32 (tapNumber n / 2 - 1) * s.spitch) s r col := rfl

theorem commandValue_horizontal (n : TapCount) (bd fbits round0 : Nat) (s : State) (r col : Nat) :
    commandValue ⟨.horizontal, n, bd, fbits, round0⟩ s r col =
      horizontalValue (tapNumber n) bd fbits round0 (s.src - 2 * BitVec.ofNat 32 (tapNumber n / 2 - 1)) s r col := rfl

/-- Twice the centring offset: 4, 6, 10 bytes (40_dispatch.md R127). -/
theorem twice_offset :
    (2 : Word) * BitVec.ofNat 32 (tapNumber .six / 2 - 1) = 4 ∧
      (2 : Word) * BitVec.ofNat 32 (tapNumber .eight / 2 - 1) = 6 ∧
      (2 : Word) * BitVec.ofNat 32 (tapNumber .twelve / 2 - 1) = 10 := by decide

/-- The reference value of an output is that of the rules. -/
theorem referenceSample_value {c : Command} {s : State} (hl : LegalDescriptor c s) (hm : s.launchMem = s.mem) (r col : Nat) :
    ((referenceSample c s r col).toNat : Int) = commandValue c s r col := by
  have hbd : c.bd ≤ 16 := by
    have := (firstError_eq_none.mp hl).1
    omega
  have hsample : ∀ i j, ((launchSample c s i j).toNat : Int) = sampleAt s.mem (windowBase c s) s.spitch i j := by
    intro i j
    rw [launchSample, hm, sampleAt_source]
  rw [referenceSample, outputFrom, outputSample_toNat _ _ hbd, supportCoords_map c (launchSample c s), exactSum_kernel]
  unfold roundAndClamp commandValue verticalValue horizontalValue maxSample
  cases hd : c.dir <;> simp only
  · have hbase : s.src - 2 * BitVec.ofNat 32 (tapsOf c / 2 - 1) * s.spitch = windowBase c s := by
      simp only [windowBase, hd, offsetOf]
    rw [hbase]
    congr 2
    refine Finset.sum_congr rfl fun k hk => ?_
    rw [hsample]
  · have hbase : s.src - 2 * BitVec.ofNat 32 (tapsOf c / 2 - 1) = windowBase c s := by
      simp only [windowBase, hd, offsetOf]
    rw [hbase]
    congr 3
    refine Finset.sum_congr rfl fun k hk => ?_
    rw [hsample]

/-- A run that ends completed, the host not having acted meanwhile, said once. -/
theorem completed_of_ended {c : Command} {s u t : State} (hu : Running c u) (hf : StepFrame s u)
    (hsu : OutsideDestSame s u) (he : engineStep c u = .next t) (hidle : t.phase = .idle) (hdone : t.done = true)
    (hflags : t.err = u.err ∧ t.ecode = u.ecode) (hwin : t.win = emptyWindow) (hacc : t.acc = u.acc)
    (hmem : t.mem = (settleOutputs c u).mem) (hwas : u.phase = .complete) :
    Completed s t ∧ t.inbox = s.inbox ∧ LeftComplete c s t := by
  have hut := stepFrame_engineStep he
  have hleft := (leftComplete_settled hu.inv hwas hmem).congr hf.frame.operands hf.frame.raced hsu
  refine ⟨?_, hut.inbox.trans hf.inbox, hleft⟩
  constructor
  · exact hidle
  · exact hdone
  · exact ⟨hflags.1.trans hu.flags.1, hflags.2.trans hu.flags.2⟩
  · exact hwin
  · exact hacc.trans hu.acc
  · exact hf.frame.trans hut.frame
  · exact hleft.outside

/-- A run that stops on a bus error, the host not having acted meanwhile, said once. -/
theorem stopped_of_ended {c : Command} {s u t : State} (hu : Running c u) (hf : StepFrame s u)
    (hsu : OutsideDestSame s u) (he : engineStep c u = .next t)
    (ht : t = raiseErr .bus { u with mem := stoppedMemory c u }) :
    StoppedWith 7 s t ∧ t.inbox = s.inbox ∧ LeftMixed c s t := by
  have hut := stepFrame_engineStep he
  have hleft := (leftMixed_stopped (t := t) hu.inv.legal (by rw [ht]; rfl)).congr hf.frame.operands hf.frame.raced hsu
  refine ⟨?_, hut.inbox.trans hf.inbox, hleft⟩
  constructor
  · rw [ht]
    rfl
  · rw [ht]
    rfl
  · rw [ht]
    exact ⟨rfl, rfl⟩
  · rw [ht]
    rfl
  · exact hf.frame.trans hut.frame
  · exact hleft.outside

end Sys2Proof.Machine
end

