-- ==== Sys2Proof/Laws/Accesses.lean ====
section
/-! SUPPORT. Which coordinates a command in `RUN` still has to read and to write, and what each step takes from them
(20_memory.md R70, R71). -/

namespace Sys2Proof.Machine

open Sys2Proof

/-- The source coordinates that are still to be read. -/
def PendingRead (c : Command) (s : State) (p : Nat × Nat) : Prop :=
  match s.phase, c.dir with
  | .prime, .vertical => s.cx.toNat ≤ p.2 ∧ p.2 < s.width ∧ p.1 + 1 < s.height + tapsOf c
  | .prime, .horizontal => s.cy.toNat ≤ p.1 ∧ p.1 < s.height ∧ p.2 + 1 < s.width + tapsOf c
  | .tile, .vertical =>
    p.1 + 1 < s.height + tapsOf c ∧ p.2 < s.width ∧
      (s.cx.toNat + stripWidth s ≤ p.2 ∨ (s.cx.toNat ≤ p.2 ∧ s.cy.toNat + tapsOf c ≤ p.1 + 1))
  | .tile, .horizontal =>
    p.2 + 1 < s.width + tapsOf c ∧ p.1 < s.height ∧
      (s.cy.toNat + stripHeight s ≤ p.1 ∨ (s.cy.toNat ≤ p.1 ∧ s.cx.toNat + tapsOf c ≤ p.2 + 1))
  | _, _ => False

/-- The output coordinates that are still to be written. -/
def PendingWrite (c : Command) (s : State) (p : Nat × Nat) : Prop :=
  match s.phase, c.dir with
  | .prime, .vertical => s.cx.toNat ≤ p.2 ∧ p.2 < s.width ∧ p.1 < s.height
  | .prime, .horizontal => s.cy.toNat ≤ p.1 ∧ p.1 < s.height ∧ p.2 < s.width
  | .tile, .vertical =>
    p.1 < s.height ∧ p.2 < s.width ∧
      (s.cx.toNat + stripWidth s ≤ p.2 ∨ (s.cx.toNat ≤ p.2 ∧ s.cy.toNat ≤ p.1))
  | .tile, .horizontal =>
    p.2 < s.width ∧ p.1 < s.height ∧
      (s.cy.toNat + stripHeight s ≤ p.1 ∨ (s.cy.toNat ≤ p.1 ∧ s.cx.toNat ≤ p.2))
  | _, _ => False

theorem lanesBelow_nodup (n : Nat) : (lanesBelow n).Nodup := (List.nodup_finRange 8).sublist (List.take_sublist n _)

/-- A list of coordinates made line by line has no repeats where each line has none and the lines differ. -/
theorem nodup_lines {α β : Type} {xs : List α} {ys : List β} (hx : xs.Nodup) (hy : ys.Nodup)
    {f : α → β → Nat × Nat} (hf : ∀ a b a' b', f a b = f a' b' → a = a' ∧ b = b') :
    (xs.flatMap fun a => ys.map (f a)).Nodup := by
  rw [List.nodup_flatMap]
  refine ⟨fun a _ => hy.map fun b b' h => (hf a b a b' h).2, ?_⟩
  refine hx.imp ?_
  intro a a' hne
  rw [Function.onFun, List.disjoint_left]
  intro p hp hp'
  rw [List.mem_map] at hp hp'
  obtain ⟨b, _, rfl⟩ := hp
  obtain ⟨b', _, h⟩ := hp'
  exact hne (hf a b a' b' h.symm).1

/-- Which events wait does not matter for what a step accesses. -/
theorem stepReads_inbox (c : Command) (s : State) (es : List Event) :
    stepReads c { s with inbox := es } = stepReads c s := by
  unfold stepReads primeLoads stripStart
  cases c.dir <;> rfl

theorem stepWrites_inbox (c : Command) (s : State) (es : List Event) :
    stepWrites c { s with inbox := es } = stepWrites c s := by
  unfold stepWrites tileOutputs
  cases c.dir <;> rfl

/-- No engine step reads a coordinate twice. -/
theorem stepReads_nodup (c : Command) (s : State) : (stepReads c s).Nodup := by
  unfold stepReads
  split
  · unfold primeLoads
    cases c.dir <;>
      simp only [verticalPrimeLoads, horizontalPrimeLoads, List.map_flatMap, List.map_map, Function.comp_def]
    all_goals
      refine nodup_lines (List.nodup_range) (lanesBelow_nodup _) ?_
      intro a b a' b' h
      simp only [Prod.mk.injEq] at h
      exact ⟨by omega, Fin.ext (by omega)⟩
  · unfold tileLoads
    cases c.dir <;>
      simp only [verticalTileLoads, horizontalTileLoads, List.map_flatMap, List.map_map, Function.comp_def]
    all_goals
      refine nodup_lines (List.nodup_range) (lanesBelow_nodup _) ?_
      intro a b a' b' h
      simp only [Prod.mk.injEq] at h
      exact ⟨by omega, Fin.ext (by omega)⟩
  · exact List.nodup_nil

/-- No engine step writes a coordinate twice. -/
theorem stepWrites_nodup (c : Command) (s : State) : (stepWrites c s).Nodup := by
  unfold stepWrites
  split
  · unfold tileOutputs
    cases c.dir <;>
      simp only [verticalOutputs, horizontalOutputs, List.map_flatMap, List.map_map, Function.comp_def]
    · refine nodup_lines (List.nodup_range) (lanesBelow_nodup _) ?_
      intro a b a' b' h
      simp only [Prod.mk.injEq] at h
      exact ⟨by omega, Fin.ext (by omega)⟩
    · refine nodup_lines (lanesBelow_nodup _) (List.nodup_range) ?_
      intro a b a' b' h
      simp only [Prod.mk.injEq] at h
      exact ⟨Fin.ext (by omega), by omega⟩
  · exact List.nodup_nil

/-- The coordinates a prime reads. -/
theorem mem_primeReads {c : Command} {s : State} (hp : s.phase = .prime) (p : Nat × Nat) :
    p ∈ stepReads c s ↔
      match c.dir with
      | .vertical => p.1 + 1 < tapsOf c ∧ s.cx.toNat ≤ p.2 ∧ p.2 < s.cx.toNat + stripWidth s
      | .horizontal => p.2 + 1 < tapsOf c ∧ s.cy.toNat ≤ p.1 ∧ p.1 < s.cy.toNat + stripHeight s := by
  obtain ⟨r, col⟩ := p
  have hsw := stripWidth_le s
  have hsh := stripHeight_le s
  have ht := tapsOf_bounds c
  unfold stepReads primeLoads
  rw [hp]
  have hw := (sameOperands_stripStart c s).stripWidth
  have hh : c.dir = .horizontal → stripHeight (stripStart c s) = stripHeight s := by
    intro hd
    simp only [stripHeight, stripStart, hd, State.narrow, State.width, State.height]
    rfl
  have hx : c.dir = .vertical → (stripStart c s).cx = s.cx := by intro hd; simp only [stripStart, hd]
  have hy : c.dir = .horizontal → (stripStart c s).cy = s.cy := by intro hd; simp only [stripStart, hd]
  have hx0 : c.dir = .horizontal → (stripStart c s).cx = 0 := by intro hd; simp only [stripStart, hd]
  have hy0 : c.dir = .vertical → (stripStart c s).cy = 0 := by intro hd; simp only [stripStart, hd]
  generalize stripStart c s = u at *
  cases hd : c.dir <;> simp only [verticalPrimeLoads, horizontalPrimeLoads, List.mem_map, List.mem_flatMap, List.mem_range,
    mem_lanesBelow, Prod.mk.injEq]
  · rw [hw, hx hd]
    constructor
    · rintro ⟨ld, ⟨e, hlt, l, hl, rfl⟩, rfl, rfl⟩
      simp only
      omega
    · rintro ⟨h1, h2, h3⟩
      exact ⟨_, ⟨r, by omega, ⟨col - s.cx.toNat, by omega⟩, by simp only; omega, rfl⟩, rfl, by simp only; omega⟩
  · rw [hh hd, hy hd]
    constructor
    · rintro ⟨ld, ⟨e, hlt, l, hl, rfl⟩, rfl, rfl⟩
      simp only
      omega
    · rintro ⟨h1, h2, h3⟩
      exact ⟨_, ⟨col, by omega, ⟨r - s.cy.toNat, by omega⟩, by simp only; omega, rfl⟩, by simp only; omega, rfl⟩

/-- The coordinates a tile reads. -/
theorem mem_tileReads {c : Command} {s : State} (hp : s.phase = .tile) (p : Nat × Nat) :
    p ∈ stepReads c s ↔
      match c.dir with
      | .vertical => s.cy.toNat + tapsOf c ≤ p.1 + 1 ∧ p.1 + 1 < s.cy.toNat + tapsOf c + tileHeight s ∧
          s.cx.toNat ≤ p.2 ∧ p.2 < s.cx.toNat + stripWidth s
      | .horizontal => s.cx.toNat + tapsOf c ≤ p.2 + 1 ∧ p.2 + 1 < s.cx.toNat + tapsOf c + tileWidth s ∧
          s.cy.toNat ≤ p.1 ∧ p.1 < s.cy.toNat + stripHeight s := by
  obtain ⟨r, col⟩ := p
  have hsw := stripWidth_le s
  have hsh := stripHeight_le s
  have ht := tapsOf_bounds c
  unfold stepReads tileLoads
  rw [hp]
  cases c.dir <;> simp only [verticalTileLoads, horizontalTileLoads, List.mem_map, List.mem_flatMap, List.mem_range,
    mem_lanesBelow, Prod.mk.injEq]
  · constructor
    · rintro ⟨ld, ⟨e, hlt, l, hl, rfl⟩, rfl, rfl⟩
      simp only
      omega
    · rintro ⟨h1, h2, h3, h4⟩
      exact ⟨_, ⟨r + 1 - (s.cy.toNat + tapsOf c), by omega, ⟨col - s.cx.toNat, by omega⟩, by simp only; omega, rfl⟩,
        by simp only; omega, by simp only; omega⟩
  · constructor
    · rintro ⟨ld, ⟨e, hlt, l, hl, rfl⟩, rfl, rfl⟩
      simp only
      omega
    · rintro ⟨h1, h2, h3, h4⟩
      exact ⟨_, ⟨col + 1 - (s.cx.toNat + tapsOf c), by omega, ⟨r - s.cy.toNat, by omega⟩, by simp only; omega, rfl⟩,
        by simp only; omega, by simp only; omega⟩

/-- The coordinates a tile writes. -/
theorem mem_tileWrites {c : Command} {s : State} (hp : s.phase = .tile) (p : Nat × Nat) :
    p ∈ stepWrites c s ↔
      match c.dir with
      | .vertical => (s.cy.toNat ≤ p.1 ∧ p.1 < s.cy.toNat + tileHeight s) ∧
          s.cx.toNat ≤ p.2 ∧ p.2 < s.cx.toNat + stripWidth s
      | .horizontal => (s.cy.toNat ≤ p.1 ∧ p.1 < s.cy.toNat + stripHeight s) ∧
          s.cx.toNat ≤ p.2 ∧ p.2 < s.cx.toNat + tileWidth s := by
  refine Iff.trans ?_ (tileOutputs_mem c s p.1 p.2)
  unfold stepWrites
  rw [hp]
  simp only [List.mem_map]
  constructor
  · rintro ⟨o, ho, rfl⟩
    exact ⟨o, ho, rfl, rfl⟩
  · rintro ⟨o, ho, h1, h2⟩
    exact ⟨o, ho, Prod.ext h1 h2⟩

/-- A prime reads a part of what is pending and leaves the rest pending. -/
theorem pendingRead_primed {c : Command} {s : State} (h : PassInv c s) (hp : s.phase = .prime) (w : Window)
    (p : Nat × Nat) :
    (PendingRead c s p ↔ p ∈ stepReads c s ∨ PendingRead c (primed c s w) p) ∧
      ¬(p ∈ stepReads c s ∧ PendingRead c (primed c s w) p) := by
  have hop := sameOperands_primed c s w
  have hcur := h.cursor
  have hh := h.height_pos
  have hw := h.width_pos
  have ht := tapsOf_bounds c
  have hpt : (primed c s w).phase = .tile := rfl
  rw [mem_primeReads hp]
  unfold PendingRead
  unfold CursorFits at hcur
  rw [hp, hpt, hop.width, hop.height, hop.stripWidth]
  cases hd : c.dir <;> rw [hd] at hcur <;> simp only at hcur ⊢
  · have hx : (primed c s w).cx = s.cx := by simp only [primed, stripStart, hd]
    have hy : (primed c s w).cy.toNat = 0 := by simp [primed, stripStart, hd]
    have h1 := hcur.2.1 (by rw [hp]; decide)
    have hsw := stripWidth_pos hw
    rw [hx, hy]
    constructor
    · constructor
      · intro h2; omega
      · intro h2; omega
    · intro h2; omega
  · have hx : (primed c s w).cx.toNat = 0 := by simp [primed, stripStart, hd]
    have hy : (primed c s w).cy = s.cy := by simp only [primed, stripStart, hd]
    have hlt := hcur.2.2.1 (by rw [hp]; decide)
    have hsh := stripHeight_fits hlt
    have hsame : stripHeight (primed c s w) = stripHeight s := by simp only [stripHeight, hop.narrow, hop.height, hy]
    rw [hx, hy, hsame]
    constructor
    · constructor
      · intro h2; omega
      · intro h2; omega
    · intro h2; omega

/-- A tile reads a part of what is pending and leaves the rest pending. -/
theorem pendingRead_tiled {c : Command} {s t : State} (h : PassInv c s) (hp : s.phase = .tile)
    (hop : SameOperands s t) (hn : NextCursor c s t) (p : Nat × Nat) :
    (PendingRead c s p ↔ p ∈ stepReads c s ∨ PendingRead c t p) ∧ ¬(p ∈ stepReads c s ∧ PendingRead c t p) := by
  have hf := tileFits_of_passInv h hp
  have hcur := h.cursor
  have hw := h.width_pos
  have ht := tapsOf_bounds c
  have hleg := (firstError_eq_none.mp h.legal).2.2.1
  rw [mem_tileReads hp]
  unfold PendingRead
  unfold CursorFits at hcur
  unfold TileFits at hf
  unfold NextCursor at hn
  rw [hp]
  cases hd : c.dir <;> rw [hd] at hcur hn hf <;> simp only at hcur hn hf ⊢
  · have hth := (tileHeight_fits s hcur.2.2.2).2.2 (hcur.2.2.1 hp)
    rcases hn with ⟨h1, h2, h3, h4⟩ | ⟨h1, h2, h3, h4, h5, h6⟩ | ⟨h1, h2, h3, h4, h5⟩
    · simp only [h2, h3, h4, hop.width, hop.height, hop.stripWidth]
      constructor
      · constructor <;> intro h7 <;> omega
      · intro h7; omega
    · have hsw : stripWidth s = 8 := by simp [stripWidth, h3]
      simp only [h2, h4, hop.width, hop.height, hsw]
      constructor
      · constructor <;> intro h7 <;> omega
      · intro h7; omega
    · simp only [h2]
      change ((_ : Prop) ↔ _ ∨ False) ∧ ¬(_ ∧ False)
      simp only [or_false, and_false, not_false_eq_true, and_true]
      constructor <;> intro h7 <;> omega
  · have htw := tileWidth_pos hw
    rcases hn with ⟨h1, h2, h3, h4, h5⟩ | ⟨h1, h2, h3, h4, h5⟩ | ⟨h1, h2, h3, h4, h5⟩
    · have htw8 : tileWidth s = 8 := by simp [tileWidth, h3]
      have hsame : stripHeight t = stripHeight s := by simp only [stripHeight, hop.narrow, hop.height, h5]
      simp only [h2, h4, h5, hsame, hop.width, hop.height, htw8] at *
      constructor
      · constructor <;> intro h7 <;> omega
      · intro h7; omega
    · simp only [h2, h4, hop.width, hop.height]
      constructor
      · constructor <;> intro h7 <;> omega
      · intro h7; omega
    · simp only [h2]
      change ((_ : Prop) ↔ _ ∨ False) ∧ ¬(_ ∧ False)
      simp only [or_false, and_false, not_false_eq_true, and_true]
      constructor <;> intro h7 <;> omega

/-- A prime writes nothing; everything pending stays pending. -/
theorem pendingWrite_primed {c : Command} {s : State} (h : PassInv c s) (hp : s.phase = .prime) (w : Window)
    (p : Nat × Nat) : PendingWrite c s p ↔ PendingWrite c (primed c s w) p := by
  have hop := sameOperands_primed c s w
  have hcur := h.cursor
  have hpt : (primed c s w).phase = .tile := rfl
  unfold PendingWrite
  unfold CursorFits at hcur
  rw [hp, hpt, hop.width, hop.height, hop.stripWidth]
  cases hd : c.dir <;> rw [hd] at hcur <;> simp only at hcur ⊢
  · have hx : (primed c s w).cx = s.cx := by simp only [primed, stripStart, hd]
    have hy : (primed c s w).cy.toNat = 0 := by simp [primed, stripStart, hd]
    rw [hx, hy]
    constructor <;> intro h2 <;> omega
  · have hx : (primed c s w).cx.toNat = 0 := by simp [primed, stripStart, hd]
    have hy : (primed c s w).cy = s.cy := by simp only [primed, stripStart, hd]
    rw [hx, hy]
    constructor <;> intro h2 <;> omega

/-- A tile writes a part of what is pending and leaves the rest pending. -/
theorem pendingWrite_tiled {c : Command} {s t : State} (h : PassInv c s) (hp : s.phase = .tile)
    (hop : SameOperands s t) (hn : NextCursor c s t) (p : Nat × Nat) :
    (PendingWrite c s p ↔ p ∈ stepWrites c s ∨ PendingWrite c t p) ∧ ¬(p ∈ stepWrites c s ∧ PendingWrite c t p) := by
  have hf := tileFits_of_passInv h hp
  have hcur := h.cursor
  have hw := h.width_pos
  have hleg := (firstError_eq_none.mp h.legal).2.2.1
  rw [mem_tileWrites hp]
  unfold PendingWrite
  unfold CursorFits at hcur
  unfold TileFits at hf
  unfold NextCursor at hn
  rw [hp]
  cases hd : c.dir <;> rw [hd] at hcur hn hf <;> simp only at hcur hn hf ⊢
  · have hth := (tileHeight_fits s hcur.2.2.2).2.2 (hcur.2.2.1 hp)
    rcases hn with ⟨h1, h2, h3, h4⟩ | ⟨h1, h2, h3, h4, h5, h6⟩ | ⟨h1, h2, h3, h4, h5⟩
    · simp only [h2, h3, h4, hop.width, hop.height, hop.stripWidth]
      constructor
      · constructor <;> intro h7 <;> omega
      · intro h7; omega
    · have hsw : stripWidth s = 8 := by simp [stripWidth, h3]
      simp only [h2, h4, hop.width, hop.height, hsw]
      constructor
      · constructor <;> intro h7 <;> omega
      · intro h7; omega
    · simp only [h2]
      change ((_ : Prop) ↔ _ ∨ False) ∧ ¬(_ ∧ False)
      simp only [or_false, and_false, not_false_eq_true, and_true]
      constructor <;> intro h7 <;> omega
  · have htw := tileWidth_pos hw
    rcases hn with ⟨h1, h2, h3, h4, h5⟩ | ⟨h1, h2, h3, h4, h5⟩ | ⟨h1, h2, h3, h4, h5⟩
    · have htw8 : tileWidth s = 8 := by simp [tileWidth, h3]
      have hsame : stripHeight t = stripHeight s := by simp only [stripHeight, hop.narrow, hop.height, h5]
      simp only [h2, h4, h5, hsame, hop.width, hop.height, htw8] at *
      constructor
      · constructor <;> intro h7 <;> omega
      · intro h7; omega
    · simp only [h2, h4, hop.width, hop.height]
      constructor
      · constructor <;> intro h7 <;> omega
      · intro h7; omega
    · simp only [h2]
      change ((_ : Prop) ↔ _ ∨ False) ∧ ¬(_ ∧ False)
      simp only [or_false, and_false, not_false_eq_true, and_true]
      constructor <;> intro h7 <;> omega

/-- A load sequence that goes through has read mapped addresses only. -/
theorem loadWindow_mapped {c : Command} {s : State} :
    ∀ {lds : List Load} {w w' : Window}, loadWindow c s lds w = some w' →
      ∀ ld ∈ lds, s.mapped (sourceAddr c s ld.row ld.col) = true
  | [], _, _, _, ld, h => by cases h
  | x :: rest, w, w', hw, ld, h => by
    unfold loadWindow at hw
    cases hf : fetchSample c s x.row x.col with
    | none =>
      rw [hf] at hw
      cases hw
    | some v =>
      rw [hf] at hw
      rcases List.mem_cons.mp h with rfl | h
      · unfold fetchSample at hf
        by_contra hm
        rw [if_neg hm] at hf
        cases hf
      · exact loadWindow_mapped hw ld h

/-- What an engine step of a command in `RUN` takes from what is pending: what it reads and writes was pending, is mapped
and is not pending afterwards, and nothing else changes; or a bus error stops it. -/
structure StepAccesses (c : Command) (s t : State) : Prop where
  running : Running c t
  operands : SameOperands s t
  read : ∀ p, (PendingRead c s p ↔ p ∈ stepReads c s ∨ PendingRead c t p) ∧ ¬(p ∈ stepReads c s ∧ PendingRead c t p)
  write : ∀ p, (PendingWrite c s p ↔ p ∈ stepWrites c s ∨ PendingWrite c t p) ∧
    ¬(p ∈ stepWrites c s ∧ PendingWrite c t p)
  readMapped : ∀ p ∈ stepReads c s, s.mapped (sourceAddr c s p.1 p.2) = true
  writeMapped : ∀ p ∈ stepWrites c s, s.mapped (destAddr s p.1 p.2) = true

theorem ended_phase {c : Command} {s t : State} (h : Ended c s t) : t.phase = .idle := by
  cases h with
  | completed idle => exact idle
  | stopped busErr => rw [busErr]; rfl

theorem engineStep_accesses {c : Command} {s : State} (h : Running c s) (hc : s.phase = .prime ∨ s.phase = .tile) :
    (∃ t, engineStep c s = .next t ∧ StepAccesses c s t) ∨
      engineStep c s = .next (raiseErr .bus { s with mem := stoppedMemory c s }) := by
  obtain ⟨t, ht, _, hcase⟩ := engineStep_running h
  rcases hc with hp | hp
  · rcases primeStep_spec h.inv hp with he | ⟨w, he, _⟩
    · right
      rw [engineStep_of_prime hp, he]
      rfl
    · have hx : engineStep c s = .next (primed c s w) := by rw [engineStep_of_prime hp, he]; rfl
      have hop := sameOperands_primed c s w
      obtain rfl : primed c s w = t := by rw [hx] at ht; exact Host.Outcome.next.inj ht
      have hr : Running c (primed c s w) := by
        rcases hcase with ⟨hr, _⟩ | hend
        · exact hr
        · have hidle : Phase.tile = Phase.idle := ended_phase hend
          cases hidle
      have hnw : stepWrites c s = [] := by unfold stepWrites; rw [hp]
      refine Or.inl ⟨_, hx, hr, hop, pendingRead_primed h.inv hp w, fun p => ?_, ?_, ?_⟩
      · rw [hnw]
        simpa using pendingWrite_primed h.inv hp w p
      · intro p hpr
        unfold primeStep at he
        simp only at he
        split at he
        · cases he
        next w' hw' =>
          unfold stepReads at hpr
          rw [hp] at hpr
          obtain ⟨ld, hld, rfl⟩ := List.mem_map.mp hpr
          have hm := loadWindow_mapped hw' ld hld
          have ho := sameOperands_stripStart c s
          rwa [ho.mapped, ho.sourceAddr] at hm
      · rw [hnw]
        intro p hp'
        cases hp'
  · rcases tileStep_spec h.inv hp h.acc with he | ⟨w, he, _, _⟩
    · right
      rw [engineStep_of_tile hp, he]
      rfl
    · have hx : engineStep c s = .next (tiled c s w) := by rw [engineStep_of_tile hp, he]; rfl
      have hop := sameOperands_tiled c s w
      have hn := nextCursor_tiled h.inv hp w
      obtain rfl : tiled c s w = t := by rw [hx] at ht; exact Host.Outcome.next.inj ht
      have hr : Running c (tiled c s w) := by
        rcases hcase with ⟨hr, _⟩ | hend
        · exact hr
        · have hidle := ended_phase hend
          unfold NextCursor at hn
          exfalso
          cases hd : c.dir <;> rw [hd] at hn <;> simp only [hidle] at hn <;> simp at hn
      have hf := tileFits_of_passInv h.inv hp
      rcases tileLoads_spec h.inv hp with hnone | ⟨w', hload, hw'⟩
      · unfold tileStep at he
        rw [hnone] at he
        cases he
      · rw [tileStep_of_loaded h.acc hf hload hw'] at he
        split at he
        swap
        · cases he
        next hmap =>
          refine Or.inl ⟨_, hx, hr, hop, pendingRead_tiled h.inv hp hop hn, pendingWrite_tiled h.inv hp hop hn, ?_, ?_⟩
          · intro p hpr
            unfold stepReads at hpr
            rw [hp] at hpr
            obtain ⟨ld, hld, rfl⟩ := List.mem_map.mp hpr
            exact loadWindow_mapped hload ld hld
          · intro p hpw
            unfold stepWrites at hpw
            rw [hp] at hpw
            obtain ⟨o, ho, rfl⟩ := List.mem_map.mp hpw
            exact hmap o ho

/-- At the completion step nothing is pending. -/
theorem pending_of_complete {c : Command} {s : State} (hp : s.phase = .complete) (p) : ¬PendingRead c s p ∧ ¬PendingWrite c s p := by
  unfold PendingRead PendingWrite
  rw [hp]
  exact ⟨id, id⟩

/-- A command in `RUN` has a prime or a tile to do, or only to complete. -/
theorem running_phase {c : Command} {s : State} (h : Running c s) : (s.phase = .prime ∨ s.phase = .tile) ∨ s.phase = .complete := by
  have hph := h.phase
  simpa [State.running] using hph

/-- A command in `RUN` has a step left. -/
theorem stepsLeft_pos {c : Command} {s : State} (h : Running c s) : 0 < stepsLeft c s := by
  by_contra hn
  obtain ⟨u, t, h1, h2, h3, h4, h5, h6, h7, h8⟩ := runEngine_running (n := 0) h (by omega)
  cases h1
  have := ended_phase h7
  have hph := h.phase
  rw [State.running, this] at hph
  cases hph

/-- A run to the end stops on an error or has found every pending address mapped. -/
theorem runEngine_mapped {c : Command} : ∀ {n : Nat} {s t : State}, Running c s → stepsLeft c s ≤ n → runEngine c n s = .next t →
    t.err = true ∨ ∀ p, (PendingRead c s p → s.mapped (sourceAddr c s p.1 p.2) = true) ∧ (PendingWrite c s p → s.mapped (destAddr s p.1 p.2) = true)
  | 0, s, t, h, hn, hx => by have := stepsLeft_pos h; omega
  | n + 1, s, t, h, hn, hx => by
    have hne : s.phase ≠ .idle := by
      intro he
      have hph := h.phase
      rw [State.running, he] at hph
      cases hph
    rw [runEngine, if_neg hne] at hx
    rcases running_phase h with hc | hc
    · rcases engineStep_accesses h hc with ⟨u, hu, ha⟩ | he
      · rw [hu] at hx
        simp only at hx
        have hlt : stepsLeft c u < stepsLeft c s := by
          obtain ⟨u', hu', _, hcase⟩ := engineStep_running h
          rw [hu] at hu'
          cases hu'
          rcases hcase with ⟨_, _, hlt⟩ | hend
          · exact hlt
          · have := ended_phase hend
            have hph := ha.running.phase
            rw [State.running, this] at hph
            cases hph
        rcases runEngine_mapped ha.running (by omega) hx with h1 | h1
        · exact Or.inl h1
        · right
          intro p
          have hop := ha.operands
          refine ⟨fun hr => ?_, fun hw => ?_⟩
          · rcases (ha.read p).1.mp hr with h2 | h2
            · exact ha.readMapped p h2
            · have := (h1 p).1 h2
              rwa [hop.mapped, hop.sourceAddr] at this
          · rcases (ha.write p).1.mp hw with h2 | h2
            · exact ha.writeMapped p h2
            · have := (h1 p).2 h2
              rwa [hop.mapped, hop.destAddr] at this
      · left
        rw [he] at hx
        simp only at hx
        cases n with
        | zero => cases hx; rfl
        | succ n =>
          rw [runEngine, if_pos (show (raiseErr ErrCause.bus { s with mem := stoppedMemory c s }).phase = .idle from rfl)] at hx
          cases hx; rfl
    · right
      intro p
      have := pending_of_complete (c := c) hc p
      exact ⟨fun h => absurd h this.1, fun h => absurd h this.2⟩

/-- At the start of the pass both footprints are pending, whole. -/
theorem pending_of_start {c : Command} {s : State} (hw : 0 < s.width) (hh : 0 < s.height) (hx : s.cx = 0) (hy : s.cy = 0) (p : Nat × Nat) :
   (PendingRead c { s with phase := .prime } p ↔ p.1 < (sourcePlane c s).rows ∧ p.2 < (sourcePlane c s).cols) ∧
   (PendingWrite c { s with phase := .prime } p ↔ p.1 < s.height ∧ p.2 < s.width) := by
  have hop : SameOperands s { s with phase := .prime } := sameOperands_of_eq rfl
  have ht := tapsOf_bounds c
  unfold PendingRead PendingWrite
  rw [hop.width, hop.height]
  have hne : ¬(s.width = 0 ∨ s.height = 0) := by omega
  cases hd : c.dir <;> simp only [hx, hy, sourcePlane, if_neg hne, hd] <;> simp <;> omega

/-- A run over mapped addresses reads and writes what is pending, each coordinate once. -/
theorem runAccesses_running {c : Command} : ∀ {n : Nat} {s : State}, Running c s → stepsLeft c s ≤ n → FootprintsMapped c s →
    ((runReads c n s).Nodup ∧ ∀ p, p ∈ runReads c n s ↔ PendingRead c s p) ∧
    ((runWrites c n s).Nodup ∧ ∀ p, p ∈ runWrites c n s ↔ PendingWrite c s p)
  | 0, s, h, hn, hm => by have := stepsLeft_pos h; omega
  | n + 1, s, h, hn, hm => by
    rcases running_phase h with hc | hc
    · rcases engineStep_accesses h hc with ⟨u, hu, ha⟩ | he
      · have hlt : stepsLeft c u < stepsLeft c s := by
          obtain ⟨u', hu', _, hcase⟩ := engineStep_running h
          rw [hu] at hu'
          cases hu'
          rcases hcase with ⟨_, _, hlt⟩ | hend
          · exact hlt
          · have := ended_phase hend
            have hph := ha.running.phase
            rw [State.running, this] at hph
            cases hph
        obtain ⟨⟨r1, r2⟩, w1, w2⟩ := runAccesses_running ha.running (n := n) (by omega) ((ha.operands.footprintsMapped c).mpr hm)
        unfold runReads runWrites
        rw [hu]
        simp only
        refine ⟨⟨?_, ?_⟩, ?_, ?_⟩
        · rw [List.nodup_append]
          refine ⟨stepReads_nodup c s, r1, ?_⟩
          rintro p hp q hq rfl
          exact (ha.read p).2 ⟨hp, (r2 p).mp hq⟩
        · intro p
          rw [List.mem_append, r2, (ha.read p).1]
        · rw [List.nodup_append]
          refine ⟨stepWrites_nodup c s, w1, ?_⟩
          rintro p hp q hq rfl
          exact (ha.write p).2 ⟨hp, (w2 p).mp hq⟩
        · intro p
          rw [List.mem_append, w2, (ha.write p).1]
      · exfalso
        obtain ⟨u', hu', _, hcase⟩ := engineStep_running h
        rw [he] at hu'
        cases hu'
        rcases hcase with ⟨hr, _⟩ | hend
        · have hph := hr.phase
          cases hph
        · cases hend with
          | completed idle done => 
            rename_i was
            rcases hc with h1 | h1 <;> rw [h1] at was <;> cases was
          | stopped _ un => exact un hm
    · have hs : engineStep c s = .next (completeCommand (settleOutputs c s)) := engineStep_of_complete hc
      have hidle : ∀ m, runReads c m (completeCommand (settleOutputs c s)) = [] ∧
          runWrites c m (completeCommand (settleOutputs c s)) = [] := by
        intro m
        induction m with
        | zero => exact ⟨rfl, rfl⟩
        | succ m ih => exact ⟨by rw [runReads]; exact ih.1, by rw [runWrites]; exact ih.2⟩
      have hr0 : stepReads c s = [] := by unfold stepReads; rw [hc]
      have hw0 : stepWrites c s = [] := by unfold stepWrites; rw [hc]
      unfold runReads runWrites
      rw [hs]
      simp only [hr0, hw0, (hidle n).1, (hidle n).2, List.append_nil]
      have := fun p => pending_of_complete (c := c) hc p
      refine ⟨⟨List.nodup_nil, fun p => ?_⟩, List.nodup_nil, fun p => ?_⟩
      · simp [(this p).1]
      · simp [(this p).2]

end Sys2Proof.Machine
end

