-- ==== Sys2Proof/Laws/Encoding.lean ====
section
/-! SUPPORT. The fields of a command word as numbers (30_encoding.md R91, R101). -/

namespace Sys2Proof

theorem opcodeField_eq (w : Word) : opcodeField w = w.toNat % 8 := by
  simp [opcodeField, BitVec.extractLsb'_toNat]

theorem bdField_eq (w : Word) : bdField w = w.toNat / 8 % 32 := by
  simp [bdField, BitVec.extractLsb'_toNat, Nat.shiftRight_eq_div_pow]

theorem fbitsField_eq (w : Word) : fbitsField w = w.toNat / 256 % 16 := by
  simp [fbitsField, BitVec.extractLsb'_toNat, Nat.shiftRight_eq_div_pow]

theorem round0Field_eq (w : Word) : round0Field w = w.toNat / 4096 % 16 := by
  simp [round0Field, BitVec.extractLsb'_toNat, Nat.shiftRight_eq_div_pow]

/-- The fields of a word that was put together from fields that fit. -/
theorem fields_commandWord {op bd fbits round0 : Nat} (ho : op < 8) (h : fieldsFit bd fbits round0 = true) :
    opcodeField (commandWord op bd fbits round0) = op ∧ bdField (commandWord op bd fbits round0) = bd ∧
      fbitsField (commandWord op bd fbits round0) = fbits ∧ round0Field (commandWord op bd fbits round0) = round0 := by
  simp only [fieldsFit, Bool.and_eq_true, decide_eq_true_eq] at h
  simp only [opcodeField_eq, bdField_eq, fbitsField_eq, round0Field_eq, commandWord, BitVec.toNat_ofNat]
  omega

/-- The fields the decoder reads fit. -/
theorem fieldsFit_fields (w : Word) : fieldsFit (bdField w) (fbitsField w) (round0Field w) = true := by
  simp only [fieldsFit, bdField_eq, fbitsField_eq, round0Field_eq, Bool.and_eq_true, decide_eq_true_eq]
  omega

theorem toNat_lowHalf (w : Word) : (w &&& 0xFFFF).toNat = w.toNat % 65536 := by
  rw [BitVec.toNat_and]
  exact Nat.and_two_pow_sub_one_eq_mod (n := 16) (x := w.toNat)

/-- The decoder depends on bits 15:0 alone. -/
theorem decode_congr {v w : Word} (h : v.toNat % 65536 = w.toNat % 65536) : decode v = decode w := by
  have h0 : opcodeField v = opcodeField w := by
    rw [opcodeField_eq, opcodeField_eq]
    omega
  have h1 : bdField v = bdField w := by
    rw [bdField_eq, bdField_eq]
    omega
  have h2 : fbitsField v = fbitsField w := by
    rw [fbitsField_eq, fbitsField_eq]
    omega
  have h3 : round0Field v = round0Field w := by
    rw [round0Field_eq, round0Field_eq]
    omega
  unfold decode
  rw [h0, h1, h2, h3]

/-- What a decoded word says of the opcode and the fields: the command `commandOf` names. -/
theorem decode_ok {w : Word} {i : Instr} (h : decode w = .ok i) :
    w.toNat % 4 ≠ 3 ∧ (Machine.commandOf i).bd = bdField w ∧ (Machine.commandOf i).fbits = fbitsField w ∧
      (Machine.commandOf i).round0 = round0Field w ∧
        ((Machine.commandOf i).dir = .horizontal ↔ w.toNat / 4 % 2 = 1) := by
  have hop := opcodeField_eq w
  unfold decode at h
  split at h
  case h_7 => cases h
  all_goals
    rename_i hn
    cases h
    rw [hn] at hop
    refine ⟨by omega, rfl, rfl, rfl, ?_⟩
    simp only [Machine.commandOf, reduceCtorEq, false_iff, true_iff]
    omega

/-- A word whose `TAPS` is 0b11 is no command, every other one is. -/
theorem decode_error_iff (w : Word) : (∃ e, decode w = .error e) ↔ w.toNat % 4 = 3 := by
  have hop := opcodeField_eq w
  constructor
  · rintro ⟨e, h⟩
    unfold decode at h
    split at h
    case h_7 =>
      rename_i h0 h1 h2 h4 h5 h6
      change ¬_ at h0 h1 h2 h4 h5 h6
      omega
    all_goals cases h
  · intro h
    have hn : opcodeField w = 3 ∨ opcodeField w = 7 := by omega
    rcases hn with hn | hn
    · exact ⟨.reservedOpcode 3, by simp only [decode, hn]⟩
    · exact ⟨.reservedOpcode 7, by simp only [decode, hn]⟩

end Sys2Proof
end

