-- ==== Sys2Proof/Laws/Host.lean ====
section
/-! SUPPORT. What an engine step and each act of the host keep of the invariant. -/

namespace Sys2Proof.Machine

open Sys2Proof

/-! ### The engine -/

theorem running_iff (s : State) : s.running = true ↔ s.phase = .prime ∨ s.phase = .tile ∨ s.phase = .complete := by
  unfold State.running
  cases s.phase <;> decide

/-- The invariant of a state in `RUN`, from that of its pass. -/
theorem Inv.of_running {s : State} {i : Instr} (hd : s.decoded = .ok i) (hr : Running (commandOf i) s)
    (hm : Memory.wf s.mem = true) (hl : Memory.wf s.launchMem = true) (hdone : s.done = false)
    (hreset : s.resetLine = false) : Inv s := by
  have hph := hr.phase
  rw [running_iff] at hph
  constructor
  · exact hm
  · exact hl
  · rw [hdone]
    simp
  · intro _
    exact ⟨hdone, hr.flags.1⟩
  · rw [hr.flags.1, hr.flags.2]
    simp
  · exact hr.acc
  · intro h
    rcases hph with h' | h' | h' <;> rw [h'] at h <;> simp at h
  · intro h
    rw [hreset] at h
    cases h
  · intro h
    rcases hph with h' | h' | h' <;> rw [h'] at h <;> cases h
  · intro _
    exact ⟨i, hd, hr.inv⟩

/-- A dispatch step that goes on is no launch at a device. -/
theorem ordinary_of_next {c : Command} {s t : State} (hp : s.phase = .dispatch) (ht : engineStep c s = .next t) :
    LegalDescriptor c s → OrdinaryMemory c s := by
  intro hl
  by_contra ho
  unfold engineStep at ht
  rw [hp] at ht
  simp only [launchesAtDevice_iff.mpr ⟨hl, ho⟩, if_true] at ht
  cases ht

/-- An engine step of the decoded command keeps the invariant. -/
theorem Inv.engineStep {s t : State} {i : Instr} (h : Inv s) (hd : s.decoded = .ok i) (hp : s.phase ≠ .idle)
    (ht : engineStep (commandOf i) s = .next t) : Inv t := by
  have hb := busy_of_ne_idle hp
  have hreset := h.resetLine_of_busy hb
  have hflags := h.busyFlags hb
  have hcode : s.ecode = 0 := by
    by_contra hc
    have := h.code.1.mpr hc
    rw [hflags.2] at this
    cases this
  by_cases hdis : s.phase = .dispatch
  · have ho := ordinary_of_next hdis ht
    rw [engineStep_of_dispatch hdis ho, Host.Outcome.next.injEq] at ht
    subst ht
    rcases dispatchStep_cases (commandOf i) s with ⟨e, _, he⟩ | ⟨_, _, he⟩ | ⟨hl, hw, hh, he⟩
    · rw [he]
      exact h.raiseErr hreset e h.mem
    · rw [he]
      exact h.completeCommand hb hreset h.mem
    · rw [he]
      obtain ⟨hx, hy, hs⟩ := h.started hdis
      exact Inv.of_running hd
        (running_of_dispatch hl (ho hl) hw hh hx hy (hs i hd hl) h.acc ⟨hflags.2, hcode⟩) h.mem h.launchMem hflags.1 hreset
  · have hrun : s.running = true := by
      rw [running_iff]
      revert hp hdis
      cases s.phase <;> simp
    obtain ⟨j, hj, hr⟩ := h.running hrun
    rw [hd, Except.ok.injEq] at hj
    subst hj
    have hframe := stepFrame_engineStep ht
    obtain ⟨t', ht', _, hcase⟩ := engineStep_running hr
    rw [ht, Host.Outcome.next.injEq] at ht'
    subst ht'
    rcases hcase with ⟨hrt, hdone, _⟩ | hend
    · refine Inv.of_running (by rw [hframe.frame.operands.decoded]; exact hd) hrt (wf_engineStep hr h.mem ht) ?_
        (hdone.trans hflags.1) (hframe.frame.resetLine.trans hreset)
      rw [hframe.frame.operands.launchMem]
      exact h.launchMem
    · cases hend with
      | completed idle done flags win acc mem was =>
        rw [engineStep_of_complete was, Host.Outcome.next.injEq] at ht
        rw [← ht, settleOutputs_eq]
        exact h.completeCommand hb hreset (wf_settleOutputs h.mem)
      | stopped busErr _ =>
        rw [busErr]
        exact h.raiseErr hreset .bus (wf_stoppedMemory h.mem)

/-- Every engine step of the decoded command, but for the dispatch step of a launch at a device, has a next state, from a
state with the invariant. -/
theorem Inv.engineStep_next {s : State} {i : Instr} (h : Inv s) (hd : s.decoded = .ok i) (hp : s.phase ≠ .idle)
    (ho : s.phase = .dispatch → LegalDescriptor (commandOf i) s → OrdinaryMemory (commandOf i) s) :
    ∃ t, Machine.engineStep (commandOf i) s = .next t := by
  by_cases hdis : s.phase = .dispatch
  · exact ⟨_, engineStep_of_dispatch hdis (ho hdis)⟩
  · have hrun : s.running = true := by
      rw [running_iff]
      revert hp hdis
      cases s.phase <;> simp
    obtain ⟨j, hj, hr⟩ := h.running hrun
    rw [hd, Except.ok.injEq] at hj
    subst hj
    obtain ⟨t, ht, _⟩ := engineStep_running hr
    exact ⟨t, ht⟩

/-- Engine steps of the decoded command keep the invariant. -/
theorem Inv.runEngine {i : Instr} : ∀ {n : Nat} {s t : State}, Inv s → s.decoded = .ok i →
    Machine.runEngine (commandOf i) n s = .next t → Inv t
  | 0, s, t, h, _, ht => by
    cases ht
    exact h
  | n + 1, s, t, h, hd, ht => by
    unfold Machine.runEngine at ht
    by_cases hp : s.phase = .idle
    · rw [if_pos hp] at ht
      cases ht
      exact h
    · rw [if_neg hp] at ht
      split at ht
      next u hu =>
        exact Inv.runEngine (h.engineStep hd hp hu)
          (by rw [(stepFrame_engineStep hu).frame.operands.decoded]; exact hd) ht
      · cases ht
      · cases ht

/-- A step of the decoded command does not fault. -/
theorem Inv.engineStep_noFault {i : Instr} {s : State} (h : Inv s) (hd : s.decoded = .ok i) (hp : s.phase ≠ .idle)
    (f : Fault) : Machine.engineStep (commandOf i) s ≠ .fault f := by
  intro hf
  by_cases hdis : s.phase = .dispatch
  · unfold Machine.engineStep at hf
    rw [hdis] at hf
    simp only at hf
    split at hf <;> cases hf
  · obtain ⟨t, ht⟩ := h.engineStep_next hd hp fun he => absurd he hdis
    rw [ht] at hf
    cases hf

/-- No run of the decoded command faults. -/
theorem Inv.runEngine_noFault {i : Instr} {f : Fault} : ∀ {n : Nat} {s : State}, Inv s → s.decoded = .ok i →
    Machine.runEngine (commandOf i) n s ≠ .fault f
  | 0, _, _, _ => fun hf => by cases hf
  | n + 1, s, h, hd => by
    intro hf
    unfold Machine.runEngine at hf
    by_cases hp : s.phase = .idle
    · rw [if_pos hp] at hf
      cases hf
    · rw [if_neg hp] at hf
      split at hf
      next u hu =>
        exact Inv.runEngine_noFault (h.engineStep hd hp hu)
          (by rw [(stepFrame_engineStep hu).frame.operands.decoded]; exact hd) hf
      next hu => exact h.engineStep_noFault hd hp _ hu
      · cases hf

/-! ### The host -/

/-- Taking up a `START` gives a state with the invariant. -/
theorem Inv.acceptStart {s : State} (h : Inv s) (hreset : s.resetLine = false) : Inv (acceptStart s) := by
  constructor
  · exact h.mem
  · exact h.mem
  · rintro ⟨hc, _⟩
    cases hc
  · intro _
    exact ⟨rfl, rfl⟩
  · simp [Machine.acceptStart]
  · exact h.acc
  · intro _
    rfl
  · intro hr
    have hr : s.resetLine = true := hr
    rw [hreset] at hr
    cases hr
  · intro _
    exact ⟨rfl, rfl, fun _ _ _ => sourceUntouched_of_eq rfl⟩
  · intro hr
    cases hr

/-- What `RESET` leaves of a command it cuts short in its `RUN` phase (70_reset_and_hazards.md R241). -/
theorem memoryAtReset_of_running {s : State} {i : Instr} (hr : s.running = true) (hd : s.decoded = .ok i) :
    memoryAtReset s = stoppedMemory (commandOf i) s := by
  unfold memoryAtReset
  rw [running_iff] at hr
  split
  · next hp => simp [hp] at hr
  · next hp => simp [hp] at hr
  all_goals simp only [hd]

/-- `RESET` gives a state with the invariant. -/
theorem Inv.assertReset {s : State} (h : Inv s) : Inv (assertReset s) := by
  have hm : Memory.wf (memoryAtReset s) = true := by
    unfold memoryAtReset
    split
    · exact h.mem
    · exact h.mem
    all_goals
      split
      · exact wf_stoppedMemory h.mem
      · exact h.mem
  constructor
  · exact hm
  · exact h.launchMem
  · simp [Machine.assertReset, State.reset]
  · intro hb
    cases hb
  · simp [Machine.assertReset, State.reset]
  · rfl
  · intro _
    rfl
  · intro _
    rfl
  · intro hp
    cases hp
  · intro hr
    cases hr

/-- An idle state has the invariant where its memories, flags, accumulators and window are as it says. -/
theorem Inv.of_idle {s : State} (hp : s.phase = .idle) (hm : Memory.wf s.mem = true)
    (hl : Memory.wf s.launchMem = true) (hone : ¬(s.done = true ∧ s.err = true))
    (hcode : (s.err = true ↔ s.ecode ≠ 0) ∧ s.ecode.toNat ≤ 7) (hacc : s.acc = Vector.replicate 8 none)
    (hwin : s.win = emptyWindow) (hreset : s.resetLine = false) : Inv s := by
  constructor
  · exact hm
  · exact hl
  · exact hone
  · intro hb
    simp [State.busy, hp] at hb
  · exact hcode
  · exact hacc
  · intro _
    exact hwin
  · intro hr
    rw [hreset] at hr
    cases hr
  · intro hd
    rw [hp] at hd
    cases hd
  · intro hr
    rw [running_iff, hp] at hr
    simp at hr

/-- What the engine does not look at, while `RESET` is released: `IE`, what the host has read. -/
theorem Inv.hostFields {s : State} (h : Inv s) (hreset : s.resetLine = false) (b : Bool) (v : Word) :
    Inv { s with ie := b, rdata := v } := by
  constructor
  · exact h.mem
  · exact h.launchMem
  · exact h.oneFlag
  · exact h.busyFlags
  · exact h.code
  · exact h.acc
  · exact h.windowIdle
  · intro hr
    have hr : s.resetLine = true := hr
    rw [hreset] at hr
    cases hr
  · exact h.started
  · intro hr
    obtain ⟨i, hi, hp⟩ := h.run hr
    exact ⟨i, hi, hp.congr (sameOperands_of_eq rfl) rfl rfl rfl rfl rfl (fun _ _ => rfl)⟩

/-- A host read changes nothing the invariant speaks of. -/
theorem Inv.rdata {s : State} (h : Inv s) (v : Word) : Inv { s with rdata := v } := by
  by_cases hreset : s.resetLine = true
  swap
  · exact h.hostFields (by simpa using hreset) s.ie v
  · have hs := h.atReset hreset
    constructor
    · exact h.mem
    · exact h.launchMem
    · exact h.oneFlag
    · exact h.busyFlags
    · exact h.code
    · exact h.acc
    · exact h.windowIdle
    · intro _
      generalize State.reset = r at hs ⊢
      rw [hs]
    · exact h.started
    · intro hr
      have hr : s.running = true := hr
      rw [hs] at hr
      cases hr

/-- The state while `RESET` is asserted is idle. -/
theorem Inv.idle_of_resetLine {s : State} (h : Inv s) (hr : s.resetLine = true) : s.phase = .idle := by
  by_contra hp
  have := h.resetLine_of_busy (busy_of_ne_idle hp)
  rw [hr] at this
  cases this

/-- Releasing `RESET` keeps the invariant. -/
theorem Inv.releaseReset {s : State} (h : Inv s) : Inv { s with resetLine := false } := by
  cases hreset : s.resetLine
  · have : { s with resetLine := false } = s := by rw [← hreset]
    rw [this]
    exact h
  · have hp := h.idle_of_resetLine hreset
    exact Inv.of_idle hp h.mem h.launchMem h.oneFlag h.code h.acc (h.windowIdle (Or.inl hp)) rfl

/-- Clearing `STATUS` keeps the invariant. -/
theorem Inv.clearStatus {s : State} (h : Inv s) (hreset : s.resetLine = false) (v : Word) :
    Inv (Machine.clearStatus v s) := by
  have hcode : ((Machine.clearStatus v s).err = true ↔ (Machine.clearStatus v s).ecode ≠ 0) ∧ (Machine.clearStatus v s).ecode.toNat ≤ 7 := by
    unfold Machine.clearStatus
    simp only
    cases v.getLsbD 2
    · simpa using h.code
    · simp
  have hone : ¬((Machine.clearStatus v s).done = true ∧ (Machine.clearStatus v s).err = true) := by
    have := h.oneFlag
    unfold Machine.clearStatus
    simp only [Bool.and_eq_true]
    rintro ⟨⟨h1, _⟩, h2, _⟩
    exact this ⟨h1, h2⟩
  constructor
  · exact h.mem
  · exact h.launchMem
  · exact hone
  · intro hb
    have hf := h.busyFlags hb
    simp [Machine.clearStatus, hf.1, hf.2]
  · exact hcode
  · exact h.acc
  · exact h.windowIdle
  · intro hr
    have hr : s.resetLine = true := hr
    rw [hreset] at hr
    cases hr
  · exact h.started
  · intro hr
    obtain ⟨i, hi, hp⟩ := h.run hr
    exact ⟨i, hi, hp.congr (sameOperands_of_eq rfl) rfl rfl rfl rfl rfl (fun _ _ => rfl)⟩

/-- A descriptor write changes descriptor and tap registers alone (10_state.md R24, R26). -/
theorem writeDescriptor_eq (off : Nat) (v : Word) (s : State) :
    writeDescriptor off v s = { s with
      cmd := (writeDescriptor off v s).cmd
      src := (writeDescriptor off v s).src
      spitch := (writeDescriptor off v s).spitch
      dst := (writeDescriptor off v s).dst
      dpitch := (writeDescriptor off v s).dpitch
      size := (writeDescriptor off v s).size
      taps := (writeDescriptor off v s).taps } := by
  unfold writeDescriptor
  iterate 6
    split
    · rfl
  split <;> rfl

/-- A register write keeps the invariant. -/
theorem Inv.writeRegister {s : State} (h : Inv s) (off : Nat) (v : Word) : Inv (writeRegister off v s) := by
  unfold Machine.writeRegister
  cases hreset : s.resetLine
  · simp only [Bool.false_eq_true, if_false]
    split
    · unfold writeCtrl
      have hie := h.hostFields hreset (v.getLsbD 1) s.rdata
      split
      · exact hie.acceptStart hreset
      · exact hie
    · split
      · exact h.clearStatus hreset v
      · cases hb : s.busy
        · simp only [Bool.false_eq_true, if_false]
          have hp : s.phase = .idle := by simpa [State.busy] using hb
          rw [writeDescriptor_eq]
          exact Inv.of_idle hp h.mem h.launchMem h.oneFlag h.code h.acc (h.windowIdle (Or.inl hp)) hreset
        · exact h
  · exact h

/-- The command whose footprints count is the decoded one, while it is busy and legal. -/
theorem runningCommand_eq {s : State} {i : Instr} (hb : s.busy = true) (hi : s.decoded = .ok i)
    (hl : LegalDescriptor (commandOf i) s) : runningCommand s = some (commandOf i) := by
  unfold runningCommand
  rw [hi]
  have hl' : firstError (commandOf i) s = none := hl
  simp [hb, hl']

/-- Every running command is the decoded one, busy and legal. -/
theorem runningCommand_some {s : State} {c : Command} (h : runningCommand s = some c) :
    ∃ i, s.decoded = .ok i ∧ c = commandOf i ∧ LegalDescriptor c s ∧ s.busy = true := by
  unfold runningCommand at h
  split at h
  · cases h
  next i hi =>
    split at h
    next hc =>
      simp only [Bool.and_eq_true, Option.isNone_iff_eq_none] at hc
      simp only [Option.some.injEq] at h
      subst h
      exact ⟨i, hi, rfl, hc.2, hc.1⟩
    · cases h

theorem runningCommand_of_idle {s : State} (hb : s.busy = false) : runningCommand s = none := by
  unfold runningCommand
  split
  · rfl
  · rw [hb]
    rfl

theorem inFootprints_eq {s : State} {c : Command} (h : runningCommand s = some c) (a : Word) :
    inFootprints s a = ((destPlane s).holds a || (sourcePlane c s).holds a) := by
  unfold inFootprints
  rw [h]

/-- An access of the host leaves the bytes it does not write. -/
theorem HostAccess.readByte_apply_other {w : HostAccess} {x : Word} (h : w.covers x = false) (m : Memory) :
    (w.apply m).readByte x.toNat = m.readByte x.toNat := by
  cases w with
  | look => rfl
  | byte a b =>
    have hne : x ≠ a := by simpa [HostAccess.covers] using h
    exact (Memory.readByte_writeByte _ _ _ _).trans (if_neg fun he => hne (BitVec.eq_of_toNat_eq he))
  | sample a v =>
    have hne : x ≠ a ∧ x ≠ a + 1 := by simpa [HostAccess.covers] using h
    exact Memory.readByte_writeSample_other hne.1 hne.2

/-- A race: the host's access is done and noted. -/
def race (s : State) (w : HostAccess) : State := { s with mem := w.apply s.mem, raced := s.raced ++ [w] }

theorem sameOperands_race (s : State) (w : HostAccess) : SameOperands s (race s w) := sameOperands_of_eq rfl

/-- What the engine's steps see after a race: where the host wrote the byte at `START`, elsewhere what they saw before. -/
theorem startByte_race (s : State) (w : HostAccess) (x : Word) :
    (race s w).startByte x = if w.covers x then Memory.readByte s.launchMem x.toNat else s.startByte x := by
  have hd := (sameOperands_race s w).destPlane
  unfold State.startByte
  rw [hd]
  show (if ((s.raced ++ [w]).any (fun y => y.covers x) || _) = true then _ else (w.apply s.mem).readByte x.toNat) = _
  rw [List.any_append, List.any_cons, List.any_nil, Bool.or_false]
  cases hw : w.covers x
  · rw [HostAccess.readByte_apply_other hw, Bool.or_false]
    rfl
  · rw [Bool.or_true, Bool.true_or, if_pos rfl, if_pos rfl]
    rfl

theorem SourceUntouched.race {c : Command} {s : State} (h : SourceUntouched c s) (w : HostAccess) :
    SourceUntouched c (race s w) := by
  intro x hs
  rw [startByte_race]
  split
  · rfl
  · exact h x (by rw [← (sameOperands_race s w).sourcePlane c]; exact hs)

/-- A race keeps what holds of a running command. -/
theorem PassInv.race {c : Command} {s : State} (h : PassInv c s) (w : HostAccess) : PassInv c (race s w) := by
  refine ⟨h.legal, h.ordinary, h.width_pos, h.height_pos, h.cursor, h.window, h.source.race w, fun hk hd => ?_⟩
  have hw : w.writes = false := hk w (List.mem_append_right _ List.mem_cons_self)
  have hmem : (Machine.race s w).mem = s.mem := HostAccess.apply_of_look hw s.mem
  rw [hmem]
  exact h.written (fun x hx => hk x (List.mem_append_left _ hx)) hd

/-- A race keeps the invariant. -/
theorem Inv.race {s : State} (h : Inv s) (w : HostAccess) : Inv (race s w) := by
  constructor
  · exact HostAccess.wf_apply h.mem w
  · exact h.launchMem
  · exact h.oneFlag
  · exact h.busyFlags
  · exact h.code
  · exact h.acc
  · exact h.windowIdle
  · intro hr
    have hs := h.atReset hr
    unfold Machine.race
    generalize State.reset = r at hs ⊢
    generalize HostAccess.apply s.mem w = m
    rw [hs]
  · intro hp
    obtain ⟨h1, h2, h3⟩ := h.started hp
    exact ⟨h1, h2, fun i hi hl => (h3 i hi hl).race w⟩
  · intro hr
    obtain ⟨i, hi, hp⟩ := h.run hr
    exact ⟨i, hi, hp.race w⟩

/-- A write of the host outside the footprints of a running command keeps the invariant. -/
theorem Inv.write {s : State} (h : Inv s) {w : HostAccess}
    (hout : ∀ x, inFootprints s x = true → w.covers x = false) : Inv { s with mem := w.apply s.mem } := by
  have hother : ∀ i, s.decoded = .ok i → LegalDescriptor (commandOf i) s → s.busy = true → ∀ x : Word,
      (sourcePlane (commandOf i) s).holds x = true ∨ (destPlane s).holds x = true →
        (w.apply s.mem).readByte x.toNat = Memory.readByte s.mem x.toNat := by
    intro i hi hl hb x hx
    refine HostAccess.readByte_apply_other (hout x ?_) _
    rw [inFootprints_eq (runningCommand_eq hb hi hl), Bool.or_eq_true]
    exact hx.symm
  constructor
  · exact HostAccess.wf_apply h.mem w
  · exact h.launchMem
  · exact h.oneFlag
  · exact h.busyFlags
  · exact h.code
  · exact h.acc
  · exact h.windowIdle
  · intro hr
    have hs := h.atReset hr
    generalize State.reset = r at hs ⊢
    generalize HostAccess.apply s.mem w = m
    rw [hs]
  · intro hp
    have hp : s.phase = .dispatch := hp
    obtain ⟨h1, h2, h3⟩ := h.started hp
    refine ⟨h1, h2, fun i hi hl x hx => ?_⟩
    have hb : s.busy = true := by simp [State.busy, hp]
    exact (startByte_congr (s := s) (t := { s with mem := w.apply s.mem }) (sameOperands_of_eq rfl) rfl
      fun _ => hother i hi hl hb x (Or.inl hx)).trans (h3 i hi hl x hx)
  · intro hr
    have hr : s.running = true := hr
    obtain ⟨i, hi, hp⟩ := h.run hr
    have hb : s.busy = true := by
      rw [running_iff] at hr
      rcases hr with h' | h' | h' <;> simp [State.busy, h']
    exact ⟨i, hi, hp.congr (sameOperands_of_eq rfl) rfl rfl rfl rfl rfl (fun x hx => hother i hi hp.legal hb x hx)⟩

/-- A write of the host to bytes among those at `as`, inside the footprints of a running command or not, keeps the
invariant. -/
theorem Inv.hostWrite {s : State} (h : Inv s) {as : List Word} {w : HostAccess}
    (has : ∀ x, w.covers x = true → x ∈ as) : Inv (hostWrite as w s) := by
  unfold Machine.hostWrite
  cases hf : as.any (inFootprints s)
  · refine h.write fun x hx => ?_
    by_contra hc
    rw [List.any_eq_false] at hf
    exact hf x (has x (by simpa using hc)) hx
  · exact h.race w

/-- A read of the host changes what it has read and, in the destination of a running command, the note of its races. -/
theorem hostRead_cases (as : List Word) (look : Memory → Word) (s : State) :
    (∃ c, commandWriting s as = some c ∧
        hostRead as look s = { race s .look with rdata := look (memoryMeanwhile c s) }) ∨
      (commandWriting s as = none ∧ hostRead as look s = { s with rdata := look s.mem }) := by
  unfold hostRead
  cases hc : commandWriting s as with
  | none => exact Or.inr ⟨rfl, rfl⟩
  | some c => exact Or.inl ⟨c, rfl, rfl⟩

theorem Inv.hostRead {s : State} (h : Inv s) (as : List Word) (look : Memory → Word) : Inv (hostRead as look s) := by
  rcases hostRead_cases as look s with ⟨c, _, he⟩ | ⟨_, he⟩ <;> rw [he]
  · exact (h.race .look).rdata _
  · exact h.rdata _

/-- An access of the host is refused at a device and goes on elsewhere (20_memory.md R73). -/
theorem atOrdinaryMemory_eq {as : List Word} {s : State} (h : ∀ a ∈ as, s.device a = false) (t : State) :
    atOrdinaryMemory as s t = .next t := by
  unfold atOrdinaryMemory
  rw [List.find?_eq_none.mpr fun a ha => by rw [h a ha]; decide]

theorem atOrdinaryMemory_next {as : List Word} {s t u : State} (h : atOrdinaryMemory as s t = .next u) : u = t := by
  unfold atOrdinaryMemory at h
  split at h
  · cases h
  · exact (Host.Outcome.next.inj h).symm

/-- Every act of the host that goes on keeps the invariant. -/
theorem Inv.hostAct {s t : State} (h : Inv s) (op : HostOp) (ht : hostAct op s = .next t) : Inv t := by
  unfold Machine.hostAct at ht
  split at ht
  · split at ht
    · cases ht
      exact h.rdata _
    · cases ht
  · split at ht
    · cases ht
      exact h.writeRegister _ _
    · cases ht
  · rw [atOrdinaryMemory_next ht]
    exact h.hostRead _ _
  · rw [atOrdinaryMemory_next ht]
    exact h.hostWrite fun x hx => by simpa [HostAccess.covers] using hx
  · rw [atOrdinaryMemory_next ht]
    exact h.hostRead _ _
  · rw [atOrdinaryMemory_next ht]
    exact h.hostWrite fun x hx => by simpa [HostAccess.covers] using hx
  · cases ht
    exact h.assertReset
  · cases ht
    exact h.releaseReset

end Sys2Proof.Machine
end

