-- ==== Sys2Proof/Laws/PerInstr.lean ====
section
/-! SUPPORT. Statements about every command as syntax, one lemma per constructor. -/

namespace Sys2Proof.Laws

open Sys2Proof Sys2Proof.Machine

/-- Each field of a well-formed command stands at its place in the command word, and bits 31:16 are 0
(30_encoding.md R91, R97, R101). -/
def FieldsInPlace.Statement (i : Instr) : Prop :=
  i.wellFormed = true →
    let n := (encode i).toNat
    n < 65536 ∧ n / 8 % 32 = (commandOf i).bd ∧ n / 256 % 16 = (commandOf i).fbits ∧
      n / 4096 = (commandOf i).round0 ∧ (n / 4 % 2 = 1 ↔ (commandOf i).dir = .horizontal)

/-- The fields of a word put together from fields that fit, as numbers. -/
theorem commandWord_fields {op bd fbits round0 : Nat} (ho : op < 8) (h : fieldsFit bd fbits round0 = true) :
    let n := (commandWord op bd fbits round0).toNat
    n < 65536 ∧ n / 8 % 32 = bd ∧ n / 256 % 16 = fbits ∧ n / 4096 = round0 ∧ n / 4 % 2 = op / 4 := by
  simp only [fieldsFit, Bool.and_eq_true, decide_eq_true_eq] at h
  simp only [commandWord, BitVec.toNat_ofNat]
  omega

theorem FieldsInPlace.vfilt6 (bd fbits round0 : Nat) : FieldsInPlace.Statement (.vfilt6 bd fbits round0) := by
  intro h
  obtain ⟨h1, h2, h3, h4, h5⟩ := commandWord_fields (op := 0) (by decide) h
  exact ⟨h1, h2, h3, h4, by simp [encode, commandOf, h5]⟩

theorem FieldsInPlace.vfilt8 (bd fbits round0 : Nat) : FieldsInPlace.Statement (.vfilt8 bd fbits round0) := by
  intro h
  obtain ⟨h1, h2, h3, h4, h5⟩ := commandWord_fields (op := 1) (by decide) h
  exact ⟨h1, h2, h3, h4, by simp [encode, commandOf, h5]⟩

theorem FieldsInPlace.vfilt12 (bd fbits round0 : Nat) : FieldsInPlace.Statement (.vfilt12 bd fbits round0) := by
  intro h
  obtain ⟨h1, h2, h3, h4, h5⟩ := commandWord_fields (op := 2) (by decide) h
  exact ⟨h1, h2, h3, h4, by simp [encode, commandOf, h5]⟩

theorem FieldsInPlace.hfilt6 (bd fbits round0 : Nat) : FieldsInPlace.Statement (.hfilt6 bd fbits round0) := by
  intro h
  obtain ⟨h1, h2, h3, h4, h5⟩ := commandWord_fields (op := 4) (by decide) h
  exact ⟨h1, h2, h3, h4, by simp [encode, commandOf, h5]⟩

theorem FieldsInPlace.hfilt8 (bd fbits round0 : Nat) : FieldsInPlace.Statement (.hfilt8 bd fbits round0) := by
  intro h
  obtain ⟨h1, h2, h3, h4, h5⟩ := commandWord_fields (op := 5) (by decide) h
  exact ⟨h1, h2, h3, h4, by simp [encode, commandOf, h5]⟩

theorem FieldsInPlace.hfilt12 (bd fbits round0 : Nat) : FieldsInPlace.Statement (.hfilt12 bd fbits round0) := by
  intro h
  obtain ⟨h1, h2, h3, h4, h5⟩ := commandWord_fields (op := 6) (by decide) h
  exact ⟨h1, h2, h3, h4, by simp [encode, commandOf, h5]⟩

end Sys2Proof.Laws
end

