-- ==== Sys2Proof/Laws/Port.lean ====
section
/-! SUPPORT. The register port, said once per kind of access (10_state.md R21 to R36). -/

namespace Sys2Proof.Machine

open Sys2Proof

theorem runSteps_zero (s : State) : runSteps 0 s = .next s := rfl

theorem runSteps_succ {n : Nat} {s t : State} (h : step s = .next t) : runSteps (n + 1) s = runSteps n t := by
  rw [runSteps, h]

theorem portOffset_iff (off : Nat) : portOffset off = true ↔ off % 4 = 0 ∧ off ≤ 0xFC := by
  simp [portOffset]

theorem hostAct_regWrite {off : Nat} (h : portOffset off = true) (v : Word) (s : State) :
    hostAct (.regWrite off v) s = .next (writeRegister off v s) := by
  simp only [hostAct, h, if_true]

theorem hostAct_regRead {off : Nat} (h : portOffset off = true) (s : State) :
    hostAct (.regRead off) s = .next { s with rdata := registerWord s off } := by
  simp only [hostAct, h, if_true]

theorem writeRegister_ctrl {s : State} (hr : s.resetLine = false) (v : Word) :
    writeRegister 0x04 v s = writeCtrl v s := by
  unfold writeRegister
  rw [hr]
  rfl

theorem writeRegister_status {s : State} (hr : s.resetLine = false) (v : Word) :
    writeRegister 0x08 v s = clearStatus v s := by
  unfold writeRegister
  rw [hr]
  rfl

/-- The `BUSY` gate (10_state.md R25). -/
theorem writeRegister_busy {s : State} (hb : s.busy = true) {off : Nat} (h4 : off ≠ 0x04) (h8 : off ≠ 0x08)
    (v : Word) : writeRegister off v s = s := by
  unfold writeRegister
  rw [if_neg h4, if_neg h8, if_pos hb, ite_self]

theorem writeRegister_idle {s : State} (hr : s.resetLine = false) (hp : s.phase = .idle) {off : Nat} (h4 : off ≠ 0x04)
    (h8 : off ≠ 0x08) (v : Word) : writeRegister off v s = writeDescriptor off v s := by
  have hb : s.busy = false := by simp [State.busy, hp]
  unfold writeRegister
  rw [hr, if_neg (by decide), if_neg h4, if_neg h8, hb, if_neg (by decide)]

theorem writeRegister_reset {s : State} (hr : s.resetLine = true) (off : Nat) (v : Word) : writeRegister off v s = s := by
  unfold writeRegister
  rw [if_pos hr]

theorem writeCtrl_start {s : State} (hp : s.phase = .idle) {v : Word} (h : v.getLsbD 0 = true) :
    writeCtrl v s = acceptStart { s with ie := v.getLsbD 1 } := by
  have hb : s.busy = false := by simp [State.busy, hp]
  simp only [writeCtrl, h, hb, Bool.not_false, Bool.and_self, if_true]

theorem writeCtrl_noStart {s : State} {v : Word} (h : v.getLsbD 0 = false ∨ s.phase ≠ .idle) :
    writeCtrl v s = { s with ie := v.getLsbD 1 } := by
  unfold writeCtrl
  rcases h with h | h
  · simp only [h, Bool.false_and, Bool.false_eq_true, if_false]
  · simp only [busy_of_ne_idle h, Bool.not_true, Bool.and_false, Bool.false_eq_true, if_false]

theorem tapIndex_some {off : Nat} (h : 0x40 ≤ off ∧ off ≤ 0x6C) : ∃ k : Fin 12, tapIndex off = some k := by
  unfold tapIndex
  rw [dif_pos h]
  exact ⟨_, rfl⟩

theorem tapIndex_tap (k : Fin 12) : tapIndex (0x40 + 4 * k.val) = some k := by
  have hk := k.isLt
  unfold tapIndex
  rw [dif_pos (by omega)]
  congr 1
  apply Fin.ext
  simp

theorem tapIndex_none {off : Nat} (h : ¬(0x40 ≤ off ∧ off ≤ 0x6C)) : tapIndex off = none := by
  unfold tapIndex
  rw [dif_neg h]

/-- Past `SIZE` a register reads as a tap or as reserved. -/
theorem registerWord_high (s : State) {off : Nat} (h : 0x20 < off) :
    registerWord s off = match tapIndex off with
      | some k => s.taps[k].signExtend 32
      | none => 0 := by
  unfold registerWord
  iterate 9 rw [if_neg (by omega)]
  all_goals cases tapIndex off <;> rfl

/-- Past `SIZE` a write goes to a tap or nowhere. -/
theorem writeDescriptor_high (s : State) {off : Nat} (h : 0x20 < off) (v : Word) :
    writeDescriptor off v s = match tapIndex off with
      | some k => { s with taps := s.taps.set k (v.extractLsb' 0 16) }
      | none => s := by
  unfold writeDescriptor
  iterate 6 rw [if_neg (by omega)]
  all_goals cases tapIndex off <;> rfl

/-- The offsets up to `SIZE`, in words. -/
theorem wordOffset {off : Nat} (h : off % 4 = 0) (hlow : off ≤ 0x20) : ∃ k : Fin 9, off = 4 * k.val :=
  ⟨⟨off / 4, by omega⟩, by simp only; omega⟩

/-- A write below the taps leaves the taps. -/
theorem writeDescriptor_taps {off : Nat} (h : ¬(0x40 ≤ off ∧ off ≤ 0x6C)) (v : Word) (s : State) :
    (writeDescriptor off v s).taps = s.taps := by
  unfold writeDescriptor
  rw [tapIndex_none h]
  simp only
  repeat' split
  all_goals rfl

/-- What is read up to `SIZE` does not depend on the taps. -/
theorem registerWord_taps {off : Nat} (hlow : off ≤ 0x20) (s : State) (ts : Vector Coeff 12) :
    registerWord { s with taps := ts } off = registerWord s off := by
  have hi : tapIndex off = none := tapIndex_none (by omega)
  unfold registerWord
  rw [hi]
  rfl

/-- A descriptor write changes what its own offset reads, and no other register (10_state.md R26). -/
theorem registerWord_writeDescriptor_other {off off' : Nat} (h : off % 4 = 0) (h' : off' % 4 = 0) (hne : off' ≠ off)
    (v : Word) (s : State) : registerWord (writeDescriptor off v s) off' = registerWord s off' := by
  by_cases hlow : off ≤ 0x20
  · by_cases hlow' : off' ≤ 0x20
    · obtain ⟨k, rfl⟩ := wordOffset h hlow
      obtain ⟨k', rfl⟩ := wordOffset h' hlow'
      have hk : k' ≠ k := fun he => hne (by rw [he])
      fin_cases k <;> fin_cases k' <;> first
        | exact absurd rfl hk
        | rfl
    · rw [registerWord_high _ (by omega), registerWord_high _ (by omega), writeDescriptor_taps (by omega)]
  · rw [writeDescriptor_high _ (by omega)]
    cases hk : tapIndex off with
    | none => rfl
    | some k =>
      simp only
      by_cases hlow' : off' ≤ 0x20
      · exact registerWord_taps hlow' s _
      · rw [registerWord_high _ (by omega), registerWord_high _ (by omega)]
        cases hk' : tapIndex off' with
        | none => rfl
        | some k' =>
          have hkk : k.val ≠ k'.val := by
            unfold tapIndex at hk hk'
            split at hk <;> split at hk' <;> simp only [Option.some.injEq, reduceCtorEq] at hk hk'
            subst hk hk'
            simp only
            omega
          simp [hkk]

theorem getLsbD_zero {n : Nat} (v : BitVec n) : v.getLsbD 0 = decide (v.toNat % 2 = 1) := by
  rw [BitVec.getLsbD, Nat.testBit_zero]

theorem width_eq (s : State) : s.width = s.size.toNat % 65536 := by
  simp [State.width, BitVec.extractLsb'_toNat]

theorem height_eq (s : State) : s.height = s.size.toNat / 65536 := by
  have := s.size.isLt
  simp [State.height, BitVec.extractLsb'_toNat, Nat.shiftRight_eq_div_pow]
  omega

end Sys2Proof.Machine
end

