-- ==== Sys2Proof/Laws/State.lean ====
section
/-! SUPPORT. One lemma per field per state update, true by `rfl`, so that no proof unfolds an update of the state. -/

namespace Sys2Proof.Machine

open Sys2Proof

/-! ### `setAcc`: Setting an accumulator changes the accumulators alone (10_state.md R48). -/

@[simp] theorem setAcc_ie (s : State) (l : Fin 8) (v : Option Acc) : (setAcc s l v).ie = s.ie := rfl
@[simp] theorem setAcc_phase (s : State) (l : Fin 8) (v : Option Acc) : (setAcc s l v).phase = s.phase := rfl
@[simp] theorem setAcc_done (s : State) (l : Fin 8) (v : Option Acc) : (setAcc s l v).done = s.done := rfl
@[simp] theorem setAcc_err (s : State) (l : Fin 8) (v : Option Acc) : (setAcc s l v).err = s.err := rfl
@[simp] theorem setAcc_ecode (s : State) (l : Fin 8) (v : Option Acc) : (setAcc s l v).ecode = s.ecode := rfl
@[simp] theorem setAcc_cmd (s : State) (l : Fin 8) (v : Option Acc) : (setAcc s l v).cmd = s.cmd := rfl
@[simp] theorem setAcc_src (s : State) (l : Fin 8) (v : Option Acc) : (setAcc s l v).src = s.src := rfl
@[simp] theorem setAcc_spitch (s : State) (l : Fin 8) (v : Option Acc) : (setAcc s l v).spitch = s.spitch := rfl
@[simp] theorem setAcc_dst (s : State) (l : Fin 8) (v : Option Acc) : (setAcc s l v).dst = s.dst := rfl
@[simp] theorem setAcc_dpitch (s : State) (l : Fin 8) (v : Option Acc) : (setAcc s l v).dpitch = s.dpitch := rfl
@[simp] theorem setAcc_size (s : State) (l : Fin 8) (v : Option Acc) : (setAcc s l v).size = s.size := rfl
@[simp] theorem setAcc_taps (s : State) (l : Fin 8) (v : Option Acc) : (setAcc s l v).taps = s.taps := rfl
@[simp] theorem setAcc_win (s : State) (l : Fin 8) (v : Option Acc) : (setAcc s l v).win = s.win := rfl
@[simp] theorem setAcc_cx (s : State) (l : Fin 8) (v : Option Acc) : (setAcc s l v).cx = s.cx := rfl
@[simp] theorem setAcc_cy (s : State) (l : Fin 8) (v : Option Acc) : (setAcc s l v).cy = s.cy := rfl
@[simp] theorem setAcc_acc (s : State) (l : Fin 8) (v : Option Acc) : (setAcc s l v).acc = s.acc.set l v := rfl
@[simp] theorem setAcc_mem (s : State) (l : Fin 8) (v : Option Acc) : (setAcc s l v).mem = s.mem := rfl
@[simp] theorem setAcc_resetLine (s : State) (l : Fin 8) (v : Option Acc) : (setAcc s l v).resetLine = s.resetLine := rfl
@[simp] theorem setAcc_unmapped (s : State) (l : Fin 8) (v : Option Acc) : (setAcc s l v).unmapped = s.unmapped := rfl
@[simp] theorem setAcc_devices (s : State) (l : Fin 8) (v : Option Acc) : (setAcc s l v).devices = s.devices := rfl
@[simp] theorem setAcc_launchMem (s : State) (l : Fin 8) (v : Option Acc) : (setAcc s l v).launchMem = s.launchMem := rfl
@[simp] theorem setAcc_launches (s : State) (l : Fin 8) (v : Option Acc) : (setAcc s l v).launches = s.launches := rfl
@[simp] theorem setAcc_rdata (s : State) (l : Fin 8) (v : Option Acc) : (setAcc s l v).rdata = s.rdata := rfl
@[simp] theorem setAcc_raced (s : State) (l : Fin 8) (v : Option Acc) : (setAcc s l v).raced = s.raced := rfl
@[simp] theorem setAcc_inbox (s : State) (l : Fin 8) (v : Option Acc) : (setAcc s l v).inbox = s.inbox := rfl

/-! ### `acceptStart`: What an accepted `START` sets and keeps (40_dispatch.md R120). -/

@[simp] theorem acceptStart_ie (s : State) : (acceptStart s).ie = s.ie := rfl
@[simp] theorem acceptStart_phase (s : State) : (acceptStart s).phase = .dispatch := rfl
@[simp] theorem acceptStart_done (s : State) : (acceptStart s).done = false := rfl
@[simp] theorem acceptStart_err (s : State) : (acceptStart s).err = false := rfl
@[simp] theorem acceptStart_ecode (s : State) : (acceptStart s).ecode = 0 := rfl
@[simp] theorem acceptStart_cmd (s : State) : (acceptStart s).cmd = s.cmd := rfl
@[simp] theorem acceptStart_src (s : State) : (acceptStart s).src = s.src := rfl
@[simp] theorem acceptStart_spitch (s : State) : (acceptStart s).spitch = s.spitch := rfl
@[simp] theorem acceptStart_dst (s : State) : (acceptStart s).dst = s.dst := rfl
@[simp] theorem acceptStart_dpitch (s : State) : (acceptStart s).dpitch = s.dpitch := rfl
@[simp] theorem acceptStart_size (s : State) : (acceptStart s).size = s.size := rfl
@[simp] theorem acceptStart_taps (s : State) : (acceptStart s).taps = s.taps := rfl
@[simp] theorem acceptStart_win (s : State) : (acceptStart s).win = emptyWindow := rfl
@[simp] theorem acceptStart_cx (s : State) : (acceptStart s).cx = 0 := rfl
@[simp] theorem acceptStart_cy (s : State) : (acceptStart s).cy = 0 := rfl
@[simp] theorem acceptStart_acc (s : State) : (acceptStart s).acc = s.acc := rfl
@[simp] theorem acceptStart_mem (s : State) : (acceptStart s).mem = s.mem := rfl
@[simp] theorem acceptStart_resetLine (s : State) : (acceptStart s).resetLine = s.resetLine := rfl
@[simp] theorem acceptStart_unmapped (s : State) : (acceptStart s).unmapped = s.unmapped := rfl
@[simp] theorem acceptStart_devices (s : State) : (acceptStart s).devices = s.devices := rfl
@[simp] theorem acceptStart_launchMem (s : State) : (acceptStart s).launchMem = s.mem := rfl
@[simp] theorem acceptStart_launches (s : State) : (acceptStart s).launches = s.launches + 1 := rfl
@[simp] theorem acceptStart_rdata (s : State) : (acceptStart s).rdata = s.rdata := rfl
@[simp] theorem acceptStart_raced (s : State) : (acceptStart s).raced = [] := rfl
@[simp] theorem acceptStart_inbox (s : State) : (acceptStart s).inbox = s.inbox := rfl

/-! ### `raiseErr`: What an error stop sets and keeps (60_exceptions.md R212, R214). -/

@[simp] theorem raiseErr_ie (e : ErrCause) (s : State) : (raiseErr e s).ie = s.ie := rfl
@[simp] theorem raiseErr_phase (e : ErrCause) (s : State) : (raiseErr e s).phase = .idle := rfl
@[simp] theorem raiseErr_done (e : ErrCause) (s : State) : (raiseErr e s).done = false := rfl
@[simp] theorem raiseErr_err (e : ErrCause) (s : State) : (raiseErr e s).err = true := rfl
@[simp] theorem raiseErr_ecode (e : ErrCause) (s : State) : (raiseErr e s).ecode = errCode e := rfl
@[simp] theorem raiseErr_cmd (e : ErrCause) (s : State) : (raiseErr e s).cmd = s.cmd := rfl
@[simp] theorem raiseErr_src (e : ErrCause) (s : State) : (raiseErr e s).src = s.src := rfl
@[simp] theorem raiseErr_spitch (e : ErrCause) (s : State) : (raiseErr e s).spitch = s.spitch := rfl
@[simp] theorem raiseErr_dst (e : ErrCause) (s : State) : (raiseErr e s).dst = s.dst := rfl
@[simp] theorem raiseErr_dpitch (e : ErrCause) (s : State) : (raiseErr e s).dpitch = s.dpitch := rfl
@[simp] theorem raiseErr_size (e : ErrCause) (s : State) : (raiseErr e s).size = s.size := rfl
@[simp] theorem raiseErr_taps (e : ErrCause) (s : State) : (raiseErr e s).taps = s.taps := rfl
@[simp] theorem raiseErr_win (e : ErrCause) (s : State) : (raiseErr e s).win = emptyWindow := rfl
@[simp] theorem raiseErr_cx (e : ErrCause) (s : State) : (raiseErr e s).cx = s.cx := rfl
@[simp] theorem raiseErr_cy (e : ErrCause) (s : State) : (raiseErr e s).cy = s.cy := rfl
@[simp] theorem raiseErr_acc (e : ErrCause) (s : State) : (raiseErr e s).acc = s.acc := rfl
@[simp] theorem raiseErr_mem (e : ErrCause) (s : State) : (raiseErr e s).mem = s.mem := rfl
@[simp] theorem raiseErr_resetLine (e : ErrCause) (s : State) : (raiseErr e s).resetLine = s.resetLine := rfl
@[simp] theorem raiseErr_unmapped (e : ErrCause) (s : State) : (raiseErr e s).unmapped = s.unmapped := rfl
@[simp] theorem raiseErr_devices (e : ErrCause) (s : State) : (raiseErr e s).devices = s.devices := rfl
@[simp] theorem raiseErr_launchMem (e : ErrCause) (s : State) : (raiseErr e s).launchMem = s.launchMem := rfl
@[simp] theorem raiseErr_launches (e : ErrCause) (s : State) : (raiseErr e s).launches = s.launches := rfl
@[simp] theorem raiseErr_rdata (e : ErrCause) (s : State) : (raiseErr e s).rdata = s.rdata := rfl
@[simp] theorem raiseErr_raced (e : ErrCause) (s : State) : (raiseErr e s).raced = s.raced := rfl
@[simp] theorem raiseErr_inbox (e : ErrCause) (s : State) : (raiseErr e s).inbox = s.inbox := rfl

/-! ### `completeCommand`: What a completion sets and keeps (40_dispatch.md R131). -/

@[simp] theorem completeCommand_ie (s : State) : (completeCommand s).ie = s.ie := rfl
@[simp] theorem completeCommand_phase (s : State) : (completeCommand s).phase = .idle := rfl
@[simp] theorem completeCommand_done (s : State) : (completeCommand s).done = true := rfl
@[simp] theorem completeCommand_err (s : State) : (completeCommand s).err = s.err := rfl
@[simp] theorem completeCommand_ecode (s : State) : (completeCommand s).ecode = s.ecode := rfl
@[simp] theorem completeCommand_cmd (s : State) : (completeCommand s).cmd = s.cmd := rfl
@[simp] theorem completeCommand_src (s : State) : (completeCommand s).src = s.src := rfl
@[simp] theorem completeCommand_spitch (s : State) : (completeCommand s).spitch = s.spitch := rfl
@[simp] theorem completeCommand_dst (s : State) : (completeCommand s).dst = s.dst := rfl
@[simp] theorem completeCommand_dpitch (s : State) : (completeCommand s).dpitch = s.dpitch := rfl
@[simp] theorem completeCommand_size (s : State) : (completeCommand s).size = s.size := rfl
@[simp] theorem completeCommand_taps (s : State) : (completeCommand s).taps = s.taps := rfl
@[simp] theorem completeCommand_win (s : State) : (completeCommand s).win = emptyWindow := rfl
@[simp] theorem completeCommand_cx (s : State) : (completeCommand s).cx = s.cx := rfl
@[simp] theorem completeCommand_cy (s : State) : (completeCommand s).cy = s.cy := rfl
@[simp] theorem completeCommand_acc (s : State) : (completeCommand s).acc = s.acc := rfl
@[simp] theorem completeCommand_mem (s : State) : (completeCommand s).mem = s.mem := rfl
@[simp] theorem completeCommand_resetLine (s : State) : (completeCommand s).resetLine = s.resetLine := rfl
@[simp] theorem completeCommand_unmapped (s : State) : (completeCommand s).unmapped = s.unmapped := rfl
@[simp] theorem completeCommand_devices (s : State) : (completeCommand s).devices = s.devices := rfl
@[simp] theorem completeCommand_launchMem (s : State) : (completeCommand s).launchMem = s.launchMem := rfl
@[simp] theorem completeCommand_launches (s : State) : (completeCommand s).launches = s.launches := rfl
@[simp] theorem completeCommand_rdata (s : State) : (completeCommand s).rdata = s.rdata := rfl
@[simp] theorem completeCommand_raced (s : State) : (completeCommand s).raced = s.raced := rfl
@[simp] theorem completeCommand_inbox (s : State) : (completeCommand s).inbox = s.inbox := rfl

/-! ### `clearStatus`: What the write-one-to-clear bits of `STATUS` change and keep (10_state.md R29). -/

@[simp] theorem clearStatus_ie (v : Word) (s : State) : (clearStatus v s).ie = s.ie := rfl
@[simp] theorem clearStatus_phase (v : Word) (s : State) : (clearStatus v s).phase = s.phase := rfl
@[simp] theorem clearStatus_done (v : Word) (s : State) : (clearStatus v s).done = (s.done && !v.getLsbD 1) := rfl
@[simp] theorem clearStatus_err (v : Word) (s : State) : (clearStatus v s).err = (s.err && !v.getLsbD 2) := rfl
@[simp] theorem clearStatus_ecode (v : Word) (s : State) : (clearStatus v s).ecode = if v.getLsbD 2 then 0 else s.ecode := rfl
@[simp] theorem clearStatus_cmd (v : Word) (s : State) : (clearStatus v s).cmd = s.cmd := rfl
@[simp] theorem clearStatus_src (v : Word) (s : State) : (clearStatus v s).src = s.src := rfl
@[simp] theorem clearStatus_spitch (v : Word) (s : State) : (clearStatus v s).spitch = s.spitch := rfl
@[simp] theorem clearStatus_dst (v : Word) (s : State) : (clearStatus v s).dst = s.dst := rfl
@[simp] theorem clearStatus_dpitch (v : Word) (s : State) : (clearStatus v s).dpitch = s.dpitch := rfl
@[simp] theorem clearStatus_size (v : Word) (s : State) : (clearStatus v s).size = s.size := rfl
@[simp] theorem clearStatus_taps (v : Word) (s : State) : (clearStatus v s).taps = s.taps := rfl
@[simp] theorem clearStatus_win (v : Word) (s : State) : (clearStatus v s).win = s.win := rfl
@[simp] theorem clearStatus_cx (v : Word) (s : State) : (clearStatus v s).cx = s.cx := rfl
@[simp] theorem clearStatus_cy (v : Word) (s : State) : (clearStatus v s).cy = s.cy := rfl
@[simp] theorem clearStatus_acc (v : Word) (s : State) : (clearStatus v s).acc = s.acc := rfl
@[simp] theorem clearStatus_mem (v : Word) (s : State) : (clearStatus v s).mem = s.mem := rfl
@[simp] theorem clearStatus_resetLine (v : Word) (s : State) : (clearStatus v s).resetLine = s.resetLine := rfl
@[simp] theorem clearStatus_unmapped (v : Word) (s : State) : (clearStatus v s).unmapped = s.unmapped := rfl
@[simp] theorem clearStatus_devices (v : Word) (s : State) : (clearStatus v s).devices = s.devices := rfl
@[simp] theorem clearStatus_launchMem (v : Word) (s : State) : (clearStatus v s).launchMem = s.launchMem := rfl
@[simp] theorem clearStatus_launches (v : Word) (s : State) : (clearStatus v s).launches = s.launches := rfl
@[simp] theorem clearStatus_rdata (v : Word) (s : State) : (clearStatus v s).rdata = s.rdata := rfl
@[simp] theorem clearStatus_raced (v : Word) (s : State) : (clearStatus v s).raced = s.raced := rfl
@[simp] theorem clearStatus_inbox (v : Word) (s : State) : (clearStatus v s).inbox = s.inbox := rfl

/-! ### `assertReset`: What `RESET` sets and keeps (70_reset_and_hazards.md R240). -/

@[simp] theorem assertReset_ie (s : State) : (assertReset s).ie = false := rfl
@[simp] theorem assertReset_phase (s : State) : (assertReset s).phase = .idle := rfl
@[simp] theorem assertReset_done (s : State) : (assertReset s).done = false := rfl
@[simp] theorem assertReset_err (s : State) : (assertReset s).err = false := rfl
@[simp] theorem assertReset_ecode (s : State) : (assertReset s).ecode = 0 := rfl
@[simp] theorem assertReset_cmd (s : State) : (assertReset s).cmd = 0 := rfl
@[simp] theorem assertReset_src (s : State) : (assertReset s).src = 0 := rfl
@[simp] theorem assertReset_spitch (s : State) : (assertReset s).spitch = 0 := rfl
@[simp] theorem assertReset_dst (s : State) : (assertReset s).dst = 0 := rfl
@[simp] theorem assertReset_dpitch (s : State) : (assertReset s).dpitch = 0 := rfl
@[simp] theorem assertReset_size (s : State) : (assertReset s).size = 0 := rfl
@[simp] theorem assertReset_taps (s : State) : (assertReset s).taps = Vector.replicate 12 0 := rfl
@[simp] theorem assertReset_win (s : State) : (assertReset s).win = emptyWindow := rfl
@[simp] theorem assertReset_cx (s : State) : (assertReset s).cx = 0 := rfl
@[simp] theorem assertReset_cy (s : State) : (assertReset s).cy = 0 := rfl
@[simp] theorem assertReset_acc (s : State) : (assertReset s).acc = Vector.replicate 8 none := rfl
@[simp] theorem assertReset_mem (s : State) : (assertReset s).mem = memoryAtReset s := rfl
@[simp] theorem assertReset_resetLine (s : State) : (assertReset s).resetLine = true := rfl
@[simp] theorem assertReset_unmapped (s : State) : (assertReset s).unmapped = s.unmapped := rfl
@[simp] theorem assertReset_devices (s : State) : (assertReset s).devices = s.devices := rfl
@[simp] theorem assertReset_launchMem (s : State) : (assertReset s).launchMem = s.launchMem := rfl
@[simp] theorem assertReset_launches (s : State) : (assertReset s).launches = s.launches := rfl
@[simp] theorem assertReset_rdata (s : State) : (assertReset s).rdata = s.rdata := rfl
@[simp] theorem assertReset_raced (s : State) : (assertReset s).raced = s.raced := rfl
@[simp] theorem assertReset_inbox (s : State) : (assertReset s).inbox = s.inbox := rfl

end Sys2Proof.Machine
end

