-- ==== Sys2Proof/Tests/Slice0.lean ====
section
/-! SUPPORT. Tests of the model on the spec's own vectors (95_test_vectors.md), and for each obligation with hypotheses a
witness that meets them, each clause at a boundary value. -/

namespace Sys2Proof.Tests

open Sys2Proof Sys2Proof.Machine

-- Each of these theorems waits for the kernel; elaborated one after another they need few threads.
set_option Elab.async false

/-! ### Helpers -/

/-- Stores samples at rising addresses from `a` on. -/
def samples : Memory → Word → List Nat → Memory
  | m, _, [] => m
  | m, a, x :: xs => samples (m.writeSample a (BitVec.ofNat 16 x)) (a + 2) xs

/-- The tap registers with the listed values, the rest 0. -/
def tapBank (ts : List Int) : Vector Coeff 12 := Vector.ofFn fun k => BitVec.ofInt 16 (ts.getD k 0)

/-- The reset state with a descriptor, taps and memory in place. -/
def ready (word : Word) (src spitch dst dpitch size : Word) (ts : List Int) (m : Memory) : State :=
  { State.reset with
    cmd := word.extractLsb' 0 16, src := src, spitch := spitch, dst := dst, dpitch := dpitch, size := size
    taps := tapBank ts, mem := m }

/-- The same, just started. -/
def demo (word : Word) (src spitch dst dpitch size : Word) (ts : List Int) (m : Memory) : State :=
  acceptStart (ready word src spitch dst dpitch size ts m)

/-- One output, pitches 1, source base 0x1000, destination 0x2000. -/
def one (word src : Word) (ts : List Int) (xs : List Nat) : State :=
  demo word src 1 0x2000 1 0x00010001 ts (samples [] 0x1000 xs)

/-- The sample at `a` after a step, if the step goes on. -/
def sampleAfter (o : Host.Outcome State Fault Refusal) (a : Word) : Option Nat :=
  match o with
  | .next t => some (Memory.readSample t.mem a).toNat
  | _ => none

/-- A test on the state a step goes on to. -/
def holdsAfter (o : Host.Outcome State Fault Refusal) (p : State → Bool) : Bool :=
  match o with
  | .next t => p t
  | _ => false

/-- Why a step is refused, if it is. -/
def refusedWith (o : Host.Outcome State Fault Refusal) : Option Refusal :=
  match o with
  | .refused r => some r
  | _ => none

/-- `STATUS` after a step. -/
def statusAfter (o : Host.Outcome State Fault Refusal) : Option Word :=
  match o with
  | .next t => some (statusWord t)
  | _ => none

/-- The state after `n` engine steps. -/
def stepped (i : Instr) : Nat → State → State
  | 0, s => s
  | n + 1, s =>
    match engineStep (commandOf i) s with
    | .next t => stepped i n t
    | _ => s

/-- Kernels of 95_test_vectors.md part 7. -/
def k6 : List Int := [2, -12, 74, 74, -12, 2]
def k8 : List Int := [-1, 4, -14, 75, 75, -14, 4, -1]
def k12 : List Int := [0, 1, -2, 4, -10, 71, 71, -10, 4, -2, 1, 0]

/-! ### Well-formedness: an ill-formed term for each check -/

theorem test_illformed_bd : (Instr.vfilt6 32 0 0).wellFormed = false := by decide
theorem test_illformed_fbits : (Instr.hfilt8 10 16 0).wellFormed = false := by decide
theorem test_illformed_round0 : (Instr.hfilt12 10 7 16).wellFormed = false := by decide

/-! ### Decoding: words written out (95_test_vectors.md 3.1, 3.2) -/

theorem test_decode_vfilt6 : decode 0x00000750 = .ok (.vfilt6 10 7 0) := by decide
theorem test_decode_vfilt8 : decode 0x00000751 = .ok (.vfilt8 10 7 0) := by decide
theorem test_decode_vfilt12 : decode 0x00000762 = .ok (.vfilt12 12 7 0) := by decide
theorem test_decode_hfilt6 : decode 0x00003754 = .ok (.hfilt6 10 7 3) := by decide
theorem test_decode_hfilt8 : decode 0x00007745 = .ok (.hfilt8 8 7 7) := by decide
theorem test_decode_hfilt12 : decode 0x0000FF86 = .ok (.hfilt12 16 15 15) := by decide
theorem test_decode_high_half : decode 0xABCD3754 = .ok (.hfilt6 10 7 3) := by decide
theorem test_decode_ignored_round0 : decode 0x00008751 = .ok (.vfilt8 10 7 8) := by decide
theorem test_decode_reserved :
    decode 0x00000753 = .error (.reservedOpcode 3) ∧ decode 0x00000757 = .error (.reservedOpcode 7) ∧
      decode 0xFFFFFFFF = .error (.reservedOpcode 7) := by decide
theorem test_encode :
    encode (.vfilt6 16 14 0) = 0x00000E80 ∧ encode (.vfilt8 8 0 0) = 0x00000041 ∧ encode (.hfilt12 12 7 5) = 0x00005766 := by
  decide

/-! ### One step of each command (95_test_vectors.md parts 2, 7, 8) -/

/-- 7.2 a. -/
theorem test_vfilt6_interpolates :
    sampleAfter (step (one 0x750 0x1004 k6 [100, 200, 300, 400, 500, 600])) 0x2000 = some 350 := by decide +kernel
/-- 7.1 e. -/
theorem test_vfilt6_bd16 :
    sampleAfter (step (one 0xE80 0x1004 [0, 0, 16384] [0, 0, 40000, 0, 0, 0])) 0x2000 = some 40000 := by decide +kernel
/-- 7.2 b. -/
theorem test_vfilt8_interpolates :
    sampleAfter (step (one 0x751 0x1006 k8 [512, 512, 512, 0, 1023, 512, 512, 512])) 0x2000 = some 511 := by decide +kernel
/-- 7.2 c: a negative sum. -/
theorem test_vfilt8_clamps_low :
    sampleAfter (step (one 0x751 0x1006 k8 [0, 0, 1023, 0, 0, 1023, 0, 0])) 0x2000 = some 0 := by decide +kernel
/-- 7.2 d. -/
theorem test_vfilt12_interpolates :
    sampleAfter (step (one 0x752 0x100A k12 [10, 20, 30, 40, 50, 60, 70, 80, 90, 100, 110, 120])) 0x2000 = some 65 := by
  decide +kernel
/-- 7.2 e. -/
theorem test_vfilt12_clamps_high :
    sampleAfter (step (one 0x752 0x100A k12 [0, 0, 0, 0, 0, 1023, 1023, 0, 0, 0, 0, 0])) 0x2000 = some 1023 := by
  decide +kernel
/-- 8.2 d: two shifts give 424, one would give 423. -/
theorem test_hfilt6_two_shifts :
    sampleAfter (step (one 0x3754 0x1004 k6 [445, 520, 495, 388, 529, 281])) 0x2000 = some 424 := by decide +kernel
/-- 8.4: `ROUND0` = `FBITS`. -/
theorem test_hfilt6_one_shift :
    sampleAfter (step (one 0x7754 0x1004 k6 [445, 520, 495, 388, 529, 281])) 0x2000 = some 423 := by decide +kernel
/-- 8.2 e: the intermediate is not clamped. -/
theorem test_hfilt8_intermediate :
    sampleAfter (step (one 0x3755 0x1006 [0, 0, 0, 128, 16] [0, 0, 0, 1023, 1023, 0, 0, 0])) 0x2000 = some 1023 := by
  decide +kernel
/-- 8.1 b. -/
theorem test_hfilt8_identity :
    sampleAfter (step (one 0x3755 0x1006 [0, 0, 0, 128] [5, 6, 7, 8, 9, 10, 11, 12])) 0x2000 = some 8 := by decide +kernel
/-- 8.1 e. -/
theorem test_hfilt12_identity :
    sampleAfter (step (one 0x5766 0x100A [0, 0, 0, 0, 0, 128] [0, 0, 0, 0, 0, 4095])) 0x2000 = some 4095 := by decide +kernel
/-- 8.5, output (2,2). -/
theorem test_hfilt12_interpolates :
    sampleAfter (step (one 0x5766 0x100A k12 [1239, 1900, 1911, 98, 3972, 1493, 2152, 2309, 33, 1193, 3432, 3024])) 0x2000
      = some 1529 := by decide +kernel

/-! ### Blocks of more than one tile or strip -/

/-- Program P3, 12 taps vertical: a 4-row tile and a 2-row tile, column 0 of width 1. -/
theorem test_vertical_short_tile :
    let s := demo 0x762 0x100A 1 0x2000 1 0x00060001 k12
      (samples [] 0x1000 [0, 0, 0, 0, 0, 4095, 4095, 4095, 4095, 4095, 4095])
    (List.range 6).map (fun r => sampleAfter (step s) (0x2000 + BitVec.ofNat 32 (2 * r))) =
      [some 4095, some 3967, some 4095, some 3967, some 4095, some 2048] := by decide +kernel

/-- Program P2, row 2: one row of 8 columns, the wide path. -/
theorem test_horizontal_wide :
    let s := demo 0x3754 0x1004 16 0x2000 8 0x00010008 k6
      (samples [] 0x1000 [957, 470, 480, 141, 445, 520, 495, 388, 529, 281, 383, 75, 522])
    (List.range 8).map (fun c => sampleAfter (step s) (0x2000 + BitVec.ofNat 32 (2 * c))) =
      [some 296, some 260, some 512, some 519, some 424, some 472, some 405, some 342] := by decide +kernel

/-- The identity kernel on three rows, the narrow path: a strip of two rows and one of one row (8.1, 5.5). -/
theorem test_horizontal_narrow_strips :
    let s := demo 0x7754 0x1004 6 0x2000 1 0x00030001 [0, 0, 128]
      (samples [] 0x1000 [1, 2, 3, 4, 5, 6, 11, 12, 13, 14, 15, 16, 21, 22, 23, 24, 25, 26])
    (List.range 3).map (fun r => sampleAfter (step s) (0x2000 + BitVec.ofNat 32 (2 * r))) =
      [some 3, some 13, some 23] := by decide +kernel

/-! ### The arithmetic unit (95_test_vectors.md 2.1 to 2.3) -/

theorem test_roundShift :
    [(63, 7), (64, 7), (191, 7), (192, 7), (-64, 7), (-65, 7), (-192, 7), (-193, 7), (-1, 1), (-11, 1), (-1, 0),
      (16384, 15), (16383, 15)].map (fun p : Int × Nat => roundShift p.1 p.2) =
      [0, 1, 1, 2, 0, -1, -1, -2, 0, -5, -1, 1, 0] := by decide
theorem test_clamp : [-1, 0, 1023, 1024, 1135].map (fun x : Int => clamp x 0 (maxSample 10)) = [0, 0, 1023, 1023, 1023] := by
  decide

/-! ### The register port (95_test_vectors.md part 4, 9.1) -/

/-- What the host reads at `off` after its writes, from the reset state. -/
def readAfter (ws : List (Nat × Word)) (off : Nat) : Option Word :=
  match runSteps (ws.length + 1) { State.reset with
      inbox := ws.map (fun p => Event.host (.regWrite p.1 p.2)) ++ [.host (.regRead off)] } with
  | .next t => some t.rdata
  | _ => none

theorem test_id_constant : readAfter [(0x00, 0xFFFFFFFF)] 0x00 = some 0x56540100 := by decide +kernel
theorem test_tap_sign_extended :
    readAfter [(0x44, 0x0001FFF4)] 0x44 = some 0xFFFFFFF4 ∧ readAfter [(0x40, 0x12347FFF)] 0x40 = some 0x7FFF := by
  decide +kernel
theorem test_reserved_offset : readAfter [(0x24, 0xDEADBEEF)] 0x24 = some 0 ∧ readAfter [] 0xFC = some 0 := by decide +kernel
theorem test_ctrl_reserved_bits : readAfter [(0x04, 0xFFFFFFFE)] 0x04 = some 2 := by decide +kernel
theorem test_size_stored_whole : readAfter [(0x20, 0xFFFFFFFF)] 0x20 = some 0xFFFFFFFF := by decide +kernel
theorem test_cmd_high_half : readAfter [(0x0C, 0xABCD3754)] 0x0C = some 0x3754 := by decide +kernel

/-- 4.5: `STATUS` writes from 0x24. -/
theorem test_status_w1c :
    let s := { State.reset with err := true, ecode := 2 }
    [2, 0, 4, 0xF1].map (fun v => statusWord (clearStatus v s)) = [0x24, 0x24, 0x00, 0x24] := by decide

/-! ### Errors and zero dimensions (95_test_vectors.md 5.1, 9) -/

/-- `STATUS` when the command of a descriptor has ended, at address 0x1000 and 0x2000. -/
def statusOf (word src spitch dst dpitch size : Word) : Option Word :=
  statusAfter (step (demo word src spitch dst dpitch size [] []))

theorem test_error_priority :
    statusOf 0x9007 0x1001 0 0x2001 0 0x4000C = some 0x14 ∧ statusOf 0x1004 0x1001 0 0x2001 0 0x4000C = some 0x24 ∧
      statusOf 0x8755 0x1001 0 0x2001 0 0x4000C = some 0x34 ∧ statusOf 0x750 0x1001 2 0x2000 2 0x40007 = some 0x44 ∧
        statusOf 0x750 0x1000 3 0x2000 3 0x4 = some 0x54 ∧ statusOf 0x750 0x1001 8 0x2000 8 0x40000 = some 0x64 := by
  decide +kernel
theorem test_zero_dimensions :
    statusOf 0x750 0x1000 0 0x2000 0 0x40000 = some 2 ∧ statusOf 0x750 0x1000 65528 0x2000 65528 0xFFF8 = some 2 := by
  decide +kernel

/-- 9.5: a bus error on a destination address. -/
theorem test_bus_error :
    statusAfter (step { one 0x750 0x1004 k6 [1, 2, 3] with unmapped := [(0x2000, 0x2001)] }) = some 0x74 := by decide +kernel

/-- Program P5, the interrupt line at its end states. -/
theorem test_interrupt :
    holdsAfter (step { demo 0 0 0 0 0 0 [] [] with ie := true }) (fun t => t.irq && statusWord t == 0x24) = true := by
  decide +kernel

/-- `WAIT` lets the engine move, then reads `STATUS`. -/
theorem test_wait :
    holdsAfter (runSteps 2 { demo 0 0 0 0 0 0 [] [] with inbox := [.wait] }) (fun t => t.rdata == 0x24 && t.inbox == []) =
      true := by decide +kernel

/-- 3.3: the assembler's expansion of the last writes of a line after `IRQON`. -/
theorem test_assemble :
    (assemble false [.irqOn, .hfilt .six 10 7 3 0x1004 16 0x2000 8 8 3]).map (fun es => es.drop 6) =
      some [.host (.regWrite 0x20 0x00030008), .host (.regWrite 0x04 3)] := by decide +kernel

/-! ### Witnesses: encoding -/

/-- For DecodeUndoesEncode: every field at its highest value, in every constructor. -/
theorem wit_encode :
    [Instr.vfilt6 31 15 15, .vfilt8 31 15 15, .vfilt12 31 15 15, .hfilt6 31 15 15, .hfilt8 31 15 15, .hfilt12 31 15 15].all
      Instr.wellFormed = true := by decide
/-- For EncodeUndoesDecode and DecoderReadsFiveFields: a word for each opcode. -/
theorem wit_decode :
    decode 0xFFFFFFF8 = .ok (.vfilt6 31 15 15) ∧ decode 0xFFFFFFF9 = .ok (.vfilt8 31 15 15) ∧
      decode 0xFFFFFFFA = .ok (.vfilt12 31 15 15) ∧ decode 0xFFFFFFFB = .error (.reservedOpcode 3) ∧
        decode 0xFFFFFFFC = .ok (.hfilt6 31 15 15) ∧ decode 0xFFFFFFFD = .ok (.hfilt8 31 15 15) ∧
          decode 0xFFFFFFFE = .ok (.hfilt12 31 15 15) ∧ decode 0xFFFFFFFF = .error (.reservedOpcode 7) := by decide

/-! ### Witnesses: starting and the dispatch step -/

theorem alone_of_empty {s : State} (h : s.inbox = []) : EngineIsNext s ∧ RunsToEnd s := by
  constructor
  · intro op rest he
    rw [h] at he
    cases he
  · unfold RunsToEnd
    rw [h]
    exact fun he => by cases he

theorem engineIsNext_of_event {s : State} {rest : List Event} (h : s.inbox = .engine :: rest) : EngineIsNext s := by
  intro op r he
  rw [h] at he
  cases he

/-- The conditions of `JustStarted`, and no event waiting, as a computation. -/
def freshStart (i : Instr) (s : State) : Bool :=
  decide (s.decoded = .ok i) && s.phase == .dispatch && s.cx == 0 && s.cy == 0 && s.launchMem == s.mem &&
    s.acc == Vector.replicate 8 none && !s.err && s.ecode == 0 && s.raced == [] && s.inbox == []

theorem started_of {i : Instr} {s : State} (h : freshStart i s = true) :
    JustStarted i s ∧ EngineIsNext s ∧ RunsToEnd s := by
  simp only [freshStart, Bool.and_eq_true, decide_eq_true_eq, beq_iff_eq, Bool.not_eq_true'] at h
  obtain ⟨⟨⟨⟨⟨⟨⟨⟨⟨decoded, phase⟩, cx⟩, cy⟩, launchMem⟩, acc⟩, err⟩, ecode⟩, raced⟩, inbox⟩ := h
  exact ⟨{ decoded, phase, cx, cy, launchMem, acc, noError := ⟨err, ecode⟩, raced }, alone_of_empty inbox⟩

/-- The conditions of `Launch` as a computation, on a platform that answers everywhere and has no device. -/
def launchable (i : Instr) (s : State) : Bool :=
  freshStart i s && (firstError (commandOf i) s).isNone && s.unmapped == [] && s.devices == [] &&
    !contested (commandOf i) s

theorem mapped_of_none {s : State} (h : s.unmapped = []) (c : Command) : FootprintsMapped c s := by
  have hall : ∀ a, s.mapped a = true := by
    intro a
    rw [State.mapped, h]
    rfl
  exact ⟨fun _ _ _ _ => hall _, fun _ _ _ _ => hall _⟩

theorem launch_of {i : Instr} {s : State} (h : launchable i s = true) : Launch i s := by
  simp only [launchable, Bool.and_eq_true, Option.isNone_iff_eq_none, beq_iff_eq, Bool.not_eq_true'] at h
  obtain ⟨⟨⟨⟨hs, legal⟩, hmap⟩, hdev⟩, hfree⟩ := h
  obtain ⟨started, _, alone⟩ := started_of hs
  obtain ⟨_, noAlias, distinct⟩ := contested_eq_false.mp hfree
  exact { started, alone, legal, mapped := mapped_of_none hmap _, ordinary := ordinaryMemory_of_none hdev, noAlias, distinct }

/-- The demo of a vertical 6-tap command with one output. -/
def demo6 : State := one 0x750 0x1004 k6 [100, 200, 300, 400, 500, 600]

/-- For StepRunsDecodedInstruction: both ways a busy engine comes to its turn, and an idle one with nothing to do. -/
theorem wit_turn :
    demo6.phase ≠ .idle ∧ demo6.decoded = .ok (.vfilt6 10 7 0) ∧ EngineIsNext demo6 ∧
      EngineIsNext { demo6 with inbox := [.engine] } ∧ State.reset.phase = .idle ∧ State.reset.inbox = [] :=
  ⟨by decide, by decide, (alone_of_empty rfl).1, engineIsNext_of_event rfl, rfl, rfl⟩
/-- An idle engine, its last command stopped by `ERR_BD`, starts nothing of itself and keeps its registers; `WAIT` reads its
`STATUS` (30_encoding.md R102, 60_exceptions.md R234). -/
theorem test_idle :
    let s := { State.reset with err := true, ecode := 2, cmd := 0x738, cx := 3 }
    holdsAfter (step s) (fun t => decide (t = s)) = true ∧
      holdsAfter (step { s with inbox := [.engine] }) (fun t => decide (t = s)) = true ∧
      holdsAfter (step { s with inbox := [.wait] }) (fun t => decide (t = { s with rdata := 0x24 })) = true := by
  decide +kernel
/-- For OnlyDeviceLaunchesRefused and StartedCommandEnds: a device under the last byte of the destination, under the first
of the source, next to both, and under an illegal and an empty command. -/
theorem wit_device :
    let i := Instr.vfilt6 10 7 0
    let at' := fun s lo hi => refusedWith (exec i { s with devices := [(lo, hi)] })
    at' demo6 0x2001 0x2002 = some .deviceLaunch ∧ at' demo6 0x1000 0x1001 = some .deviceLaunch ∧
      at' demo6 0x2002 0x3000 = none ∧ at' demo6 0x100C 0x2000 = none ∧
      at' (demo 0x750 0x1005 1 0x2000 1 0x00010001 [] []) 0x2000 0x2001 = none ∧
      at' (demo 0x750 0x1004 1 0x2000 1 0x00010000 [] []) 0x2000 0x2001 = none ∧
      demo6.phase = .dispatch ∧ firstError (commandOf i) demo6 = none := by decide +kernel
/-- For LoadedWordRuns: a row's bits alone, and a whole word. -/
theorem wit_load :
    decode (tableWord 8 0x750) = .ok (.vfilt6 10 0 0) ∧ decode (tableWord 32 0xFFFFFFFE) = .ok (.hfilt12 31 15 15) ∧
      State.reset.acc = Vector.replicate 8 none := by decide
/-- For ReservedOpcodeStops: both reserved opcodes. -/
theorem wit_reserved :
    [(0x753 : Word), 0xFFFFFFFF].all (fun w =>
      (demo w 0 0 0 0 0 [] []).phase == .dispatch && (demo w 0 0 0 0 0 [] []).cmd.getLsbD 0 &&
        (demo w 0 0 0 0 0 [] []).cmd.getLsbD 1 && (demo w 0 0 0 0 0 [] []).inbox == []) = true := by decide +kernel
/-- For StartFollowsItsRule: an accepted start over a set `ERR`, a start while busy, a write without a start. -/
theorem wit_start :
    let a := { State.reset with err := true, ecode := 2, inbox := [.host (.regWrite 0x04 3)] }
    let b := { demo6 with inbox := [.host (.regWrite 0x04 1)] }
    a.phase = .idle ∧ a.resetLine = false ∧ (3 : Word).getLsbD 0 = true ∧ b.phase ≠ .idle ∧ b.resetLine = false ∧
      (1 : Word).getLsbD 0 = true ∧ (2 : Word).getLsbD 0 = false := by decide
/-- For LegalityChecksInOrder: each code, at its boundary value. -/
theorem wit_codes :
    let code := fun (w src spitch dst dpitch size : Word) =>
      let s := demo w src spitch dst dpitch size [] []
      (s.phase == .dispatch && s.inbox == [], dispatchCode s)
    code 0x753 0x1000 8 0x2000 8 0x40004 = (true, some 1) ∧ code 0x738 0x1000 8 0x2000 8 0x40004 = (true, some 2) ∧
      code 0x788 0x1000 8 0x2000 8 0x40004 = (true, some 2) ∧ code 0x8755 0x1000 8 0x2000 8 0x40004 = (true, some 3) ∧
      code 0x750 0x1000 8 0x2000 8 0x40005 = (true, some 4) ∧ code 0x750 0x1000 7 0x2000 8 0x40008 = (true, some 5) ∧
      code 0x750 0x1000 8 0x2000 3 0x40004 = (true, some 5) ∧ code 0x750 0x1001 8 0x2000 8 0x40004 = (true, some 6) ∧
      code 0x750 0x1000 8 0x2001 8 0x40004 = (true, some 6) := by decide +kernel
/-- For NoCheckFailsIffLegal: the other boundary values are legal: `BD` 8 and 16, `ROUND0` = `FBITS`, an ignored
`ROUND0`, width 4 and 8, pitch = width. -/
theorem wit_legal :
    let code := fun (w src spitch dst dpitch size : Word) => dispatchCode (demo w src spitch dst dpitch size [] [])
    code 0x740 0x1000 8 0x2000 8 0x40004 = none ∧ code 0x780 0x1000 8 0x2000 8 0x40004 = none ∧
      code 0x7755 0x1000 8 0x2000 8 0x40004 = none ∧ code 0x8751 0x1000 4 0x2000 4 0x40004 = none ∧
        code 0x750 0x1000 8 0x2000 8 0x40008 = none := by decide +kernel
/-- For DispatchHandsOver. -/
theorem wit_handover :
    let s := { demo6 with inbox := [.engine] }
    (s.phase = .dispatch ∧ LegalDescriptor (commandOf (.vfilt6 10 7 0)) s ∧ 0 < s.width ∧ 0 < s.height) ∧
      OrdinaryMemory (commandOf (.vfilt6 10 7 0)) s :=
  ⟨by unfold LegalDescriptor; decide +kernel, ordinaryMemory_of_none rfl⟩
/-- For ZeroDimensionsComplete: `W` = 0 and `H` = 0. -/
theorem wit_zero :
    let s := demo 0x750 0x1000 0 0x2000 0 0x40000 [] []
    let t := demo 0x750 0x1000 8 0x2000 8 0x8 [] []
    JustStarted (.vfilt6 10 7 0) s ∧ JustStarted (.vfilt6 10 7 0) t ∧
      LegalDescriptor (commandOf (.vfilt6 10 7 0)) s ∧ LegalDescriptor (commandOf (.vfilt6 10 7 0)) t ∧
      s.width = 0 ∧ t.height = 0 :=
  ⟨(started_of (by decide +kernel)).1, (started_of (by decide +kernel)).1, by unfold LegalDescriptor; decide +kernel⟩

/-! ### Witnesses: launches -/

/-- For VerticalCommandsComplete: one output of each vertical command. -/
theorem wit_vertical :
    Launch (.vfilt6 10 7 0) demo6 ∧ Launch (.vfilt8 16 15 15) (one 0xFF81 0x1006 k8 [1, 2, 3]) ∧
      Launch (.vfilt12 8 0 0) (one 0x42 0x100A k12 [1, 2, 3]) := by
  refine ⟨launch_of ?_, launch_of ?_, launch_of ?_⟩ <;> decide +kernel
/-- For HorizontalCommandsComplete: one output of each, `ROUND0` at 0, in between and at `FBITS`. -/
theorem wit_horizontal :
    Launch (.hfilt6 10 7 3) (one 0x3754 0x1004 k6 [1, 2, 3]) ∧ Launch (.hfilt8 16 15 15) (one 0xFF85 0x1006 k8 [1, 2, 3]) ∧
      Launch (.hfilt12 8 0 0) (one 0x46 0x100A k12 [1, 2, 3]) := by
  refine ⟨launch_of ?_, launch_of ?_, launch_of ?_⟩ <;> decide +kernel
/-- With `wit_vertical` for StartedCommandEnds, MemoryMeetsReference, OutputsInRange, EngineWritesNoRegister: the launch
goes on and ends with `DONE`. -/
theorem wit_done : ∃ t, exec (.vfilt6 10 7 0) demo6 = .next t ∧ t.done = true := by
  have h : holdsAfter (exec (.vfilt6 10 7 0) demo6) (fun t => t.done) = true := by decide +kernel
  unfold holdsAfter at h
  split at h
  next t ht => exact ⟨t, ht, h⟩
  · cases h
/-- A command of two outputs, one below the other, of which the first lies on the last sample of the second's support. -/
def inPlace : State :=
  demo 0x750 0x1004 1 0x100C 1 0x00020001 [0, 0, 64, 0, 0, 64] (samples [] 0x1000 [0, 0, 100, 200, 0, 300, 400])

/-- For OverlappingCommandCompletes: one output in place is undisturbed; of two one disturbs the other. -/
theorem wit_overlap :
    let i := Instr.vfilt6 10 7 0
    let c := commandOf i
    let s := demo 0x750 0x1004 1 0x1004 1 0x00010001 k6 (samples [] 0x1000 [1, 2, 3])
    (JustStarted i s ∧ RunsToEnd s ∧ OrdinaryMemory c s ∧ FootprintsMapped c s) ∧
      (JustStarted i inPlace ∧ RunsToEnd inPlace ∧ OrdinaryMemory c inPlace ∧ FootprintsMapped c inPlace) ∧
      LegalDescriptor c s ∧ ¬NoAlias c s ∧ Undisturbed c s 0 0 ∧ LegalDescriptor c inPlace ∧
      ¬Undisturbed c inPlace 1 0 := by
  have hs := started_of (i := .vfilt6 10 7 0)
    (s := demo 0x750 0x1004 1 0x1004 1 0x00010001 k6 (samples [] 0x1000 [1, 2, 3])) (by decide +kernel)
  have ht := started_of (i := .vfilt6 10 7 0) (s := inPlace) (by decide +kernel)
  refine ⟨⟨hs.1, hs.2.2, ordinaryMemory_of_none rfl, mapped_of_none rfl _⟩,
    ⟨ht.1, ht.2.2, ordinaryMemory_of_none rfl, mapped_of_none rfl _⟩, ?_, ?_, ?_, ?_, ?_⟩
  · unfold LegalDescriptor
    decide +kernel
  · unfold NoAlias
    decide +kernel
  · unfold Undisturbed HostKeepsOff
    decide +kernel
  · unfold LegalDescriptor
    decide +kernel
  · unfold Undisturbed HostKeepsOff
    decide +kernel
/-- Where outputs lie on the source each read gets the old or the new sample (20_memory.md R77, R79): the second output
reads the first one's place before it is written (200 and 400 give 300) or after it (200 and 200 give 200). -/
theorem test_in_place_orders :
    let out := fun (o : AccessOrder) r =>
      (Memory.readSample (orderedMemory (commandOf (.vfilt6 10 7 0)) inPlace o fun _ _ => true) (destAddr inPlace r 0)).toNat
    let early : AccessOrder := ⟨fun _ _ => 0, fun _ _ => 0, fun _ => 0⟩
    let late : AccessOrder := ⟨fun i _ => if i = 6 then 9 else 0, fun _ _ => 0, fun _ => 0⟩
    [out early 0, out early 1, out late 0, out late 1] = [200, 300, 200, 200] := by decide +kernel
/-- `demo6` with one destination byte that does not answer. -/
def demoBus : State := { demo6 with unmapped := [(0x2000, 0x2001)] }
/-- For UnmappedAddressStops and BusErrorLeavesMixture. -/
theorem wit_bus :
    let c := commandOf (.vfilt6 10 7 0)
    (JustStarted (.vfilt6 10 7 0) demoBus ∧ RunsToEnd demoBus ∧ OrdinaryMemory c demoBus) ∧
      (LegalDescriptor c demoBus ∧ 0 < demoBus.width ∧ 0 < demoBus.height ∧ ¬FootprintsMapped c demoBus ∧
        NoAlias c demoBus ∧ Undisturbed c demoBus 0 0 ∧ demoBus.mapped (destAddr demoBus 0 0) = false) ∧
      ∃ t, exec (.vfilt6 10 7 0) demoBus = .next t ∧ t.ecode = 7 := by
  have hs := started_of (i := .vfilt6 10 7 0) (s := demoBus) (by decide +kernel)
  refine ⟨⟨hs.1, hs.2.2, ordinaryMemory_of_none rfl⟩, ?_, ?_⟩
  · unfold LegalDescriptor FootprintsMapped NoAlias Undisturbed HostKeepsOff
    decide +kernel
  · have h : holdsAfter (exec (.vfilt6 10 7 0) demoBus) (fun t => t.ecode == 7) = true := by decide +kernel
    unfold holdsAfter at h
    split at h
    next t ht => exact ⟨t, ht, by simpa using h⟩
    · cases h
/-- For IdentityKernelCopies: `FBITS` = 7, and the samples at `maxv`. -/
theorem wit_identity :
    let s := one 0x750 0x1004 [0, 0, 128] [1023, 0, 1023, 0, 0, 1023]
    let c := commandOf (.vfilt6 10 7 0)
    Launch (.vfilt6 10 7 0) s ∧
      (∀ k < tapsOf c, tapValue s k = if k = tapsOf c / 2 - 1 then 2 ^ c.fbits else 0) ∧
      ∀ k < (sourcePlane c s).rows, ∀ j < (sourcePlane c s).cols,
        ((Memory.readSample s.mem (sourceAddr c s k j)).toNat : Int) ≤ 2 ^ c.bd - 1 :=
  ⟨launch_of (by decide +kernel), by decide +kernel⟩
/-- For ZeroSourceGivesZero. -/
theorem wit_zero_source :
    let s := one 0x5766 0x100A [-32768, 32767] []
    let c := commandOf (.hfilt12 12 7 5)
    Launch (.hfilt12 12 7 5) s ∧ ∀ k < (sourcePlane c s).rows, ∀ j < (sourcePlane c s).cols,
      Memory.readSample s.mem (sourceAddr c s k j) = 0 :=
  ⟨launch_of (by decide +kernel), by decide +kernel⟩
/-- For UnusedTapsIgnored (with `wit_vertical`): tap 6 differs. -/
theorem wit_taps :
    let taps' := tapBank [2, -12, 74, 74, -12, 2, 99]
    (∀ k : Fin 12, k.val < tapsOf (commandOf (.vfilt6 10 7 0)) → taps'[k] = demo6.taps[k]) ∧ taps' ≠ demo6.taps := by
  decide +kernel

/-! ### Witnesses: the invariant, and the engine steps of a pass -/

theorem inv_demo {word src spitch dst dpitch size : Word} {ts : List Int} {m : Memory} (hm : Memory.wf m = true) :
    Inv (demo word src spitch dst dpitch size ts m) :=
  Inv.acceptStart (Inv.of_idle rfl hm rfl (by intro h; cases h.1)
    (by exact (by decide : (false = true ↔ (0 : BitVec 4) ≠ 0) ∧ (0 : BitVec 4).toNat ≤ 7)) rfl rfl rfl) rfl

theorem inv_stepped {i : Instr} : ∀ {n : Nat} {s : State}, Inv s → s.decoded = .ok i → Inv (stepped i n s)
  | 0, _, h, _ => h
  | n + 1, s, h, hd => by
    unfold stepped
    split
    next t ht =>
      have hdt : t.decoded = .ok i := by
        unfold State.decoded
        rw [(stepFrame_engineStep ht).frame.operands.cmd]
        exact hd
      by_cases hp : s.phase = .idle
      · unfold engineStep at ht
        rw [hp] at ht
        cases ht
        exact inv_stepped h hd
      · exact inv_stepped (h.engineStep hd hp ht) hdt
    · exact h

/-- A command of the given size with zero source and taps, `n` engine steps on, an `engine` event waiting. -/
def midway (word src pitch size : Word) (i : Instr) (n : Nat) : State :=
  { stepped i n (demo word src pitch 0x2000 pitch size [] []) with inbox := [.engine] }

theorem inv_midway {word src pitch size : Word} {i : Instr} {n : Nat}
    (hd : (demo word src pitch 0x2000 pitch size [] []).decoded = .ok i) : Inv (midway word src pitch size i n) :=
  (inv_stepped (inv_demo rfl) hd).inbox _

/-- The conditions of the engine-step statements that a computation decides. -/
def stepReady (i : Instr) (s : State) (p : Phase) : Bool :=
  decide (s.decoded = .ok i) && s.phase == p && s.inbox == [.engine] && s.unmapped == [] && !contested (commandOf i) s

theorem ready_of {i : Instr} {s : State} {p : Phase} (h : stepReady i s p = true) :
    s.decoded = .ok i ∧ s.phase = p ∧ s.inbox = [.engine] ∧ FootprintsMapped (commandOf i) s ∧
      Uncontested (commandOf i) s := by
  simp only [stepReady, Bool.and_eq_true, decide_eq_true_eq, beq_iff_eq, Bool.not_eq_true'] at h
  obtain ⟨⟨⟨⟨h1, h2⟩, h3⟩, h4⟩, h5⟩ := h
  exact ⟨h1, h2, h3, mapped_of_none h4 _, contested_eq_false.mp h5⟩

/-- `midway` with a race: the host has written a byte of the source footprint, and an `engine` event waits. -/
def racedMidway (word src pitch size : Word) (i : Instr) (n : Nat) : State :=
  { hostWrite [0x1003] (.byte 0x1003 7) (midway word src pitch size i n) with inbox := [.engine] }

theorem inv_racedMidway {word src pitch size : Word} {i : Instr} {n : Nat}
    (hd : (demo word src pitch 0x2000 pitch size [] []).decoded = .ok i) : Inv (racedMidway word src pitch size i n) :=
  ((inv_midway hd).hostWrite fun x hx => by simpa [HostAccess.covers] using hx).inbox _

/-- For CompletionStep: a vertical and a horizontal command at their completion step, and one the host has raced with. -/
theorem wit_complete :
    let i := Instr.vfilt6 10 7 0
    let s := racedMidway 0x750 0x1004 1 0x00010001 i 3
    (Inv (midway 0x750 0x1004 1 0x00010001 i 3) ∧ Inv (midway 0x3754 0x1004 1 0x00010001 (.hfilt6 10 7 3) 3) ∧ Inv s) ∧
      stepReady i (midway 0x750 0x1004 1 0x00010001 i 3) .complete = true ∧
      stepReady (.hfilt6 10 7 3) (midway 0x3754 0x1004 1 0x00010001 (.hfilt6 10 7 3) 3) .complete = true ∧
      s.decoded = .ok i ∧ s.phase = .complete ∧ s.raced = [.byte 0x1003 7] := by
  refine ⟨⟨inv_midway ?_, inv_midway ?_, inv_racedMidway ?_⟩, ?_⟩ <;> decide +kernel
/-- For UnmappedAddressStops and BusErrorLeavesMixture, their second clauses: a prime that reads an address that does not
answer, a tile that does, after a race of the host, and a tile that writes one. -/
theorem wit_bus_step :
    let i := Instr.vfilt6 10 7 0
    let c := commandOf i
    let a := { midway 0x750 0x1004 1 0x00010001 i 1 with unmapped := [(0x1000, 0x1001)] }
    let b := { racedMidway 0x750 0x1004 1 0x00010001 i 2 with unmapped := [(0x100A, 0x100C)] }
    let d := { midway 0x750 0x1004 1 0x00010001 i 2 with unmapped := [(0x2000, 0x2001)] }
    let runs := fun s : State => s.decoded = .ok i ∧ s.running = true ∧ s.inbox = [.engine]
    (Inv a ∧ Inv b ∧ Inv d) ∧ (runs a ∧ runs b ∧ runs d) ∧
      (∃ p ∈ stepReads c a, a.mapped (sourceAddr c a p.1 p.2) = false) ∧ Undisturbed c a 0 0 ∧
      holdsAfter (exec i a) (fun t => t.ecode == 7) = true ∧
      (∃ p ∈ stepReads c b, b.mapped (sourceAddr c b p.1 p.2) = false) ∧ NoAlias c b ∧
      holdsAfter (exec i b) (fun t => t.ecode == 7) = true ∧
      (∃ p ∈ stepWrites c d, d.mapped (destAddr d p.1 p.2) = false) := by
  refine ⟨⟨(inv_midway ?_).unmapped _, (inv_racedMidway ?_).unmapped _, (inv_midway ?_).unmapped _⟩, ?_⟩
  · decide +kernel
  · decide +kernel
  · decide +kernel
  · unfold Undisturbed HostKeepsOff NoAlias
    decide +kernel
/-- For PrimeFillsWindow: a vertical prime, and a horizontal one. -/
theorem wit_prime :
    Inv (midway 0x750 0x1004 1 0x00010001 (.vfilt6 10 7 0) 1) ∧ Inv (midway 0x3754 0x1004 1 0x00010001 (.hfilt6 10 7 3) 1) ∧
      stepReady (.vfilt6 10 7 0) (midway 0x750 0x1004 1 0x00010001 (.vfilt6 10 7 0) 1) .prime = true ∧
      stepReady (.hfilt6 10 7 3) (midway 0x3754 0x1004 1 0x00010001 (.hfilt6 10 7 3) 1) .prime = true := by
  refine ⟨inv_midway ?_, inv_midway ?_, ?_⟩ <;> decide +kernel
/-- For VerticalTileStep: a tile with more below it (`H` = 5), one with another strip to its right (`W` = 16, `H` = 1), the
last one of a narrow block and the last one of a wide block (`W` = 8). -/
theorem wit_vertical_tile :
    let i := Instr.vfilt6 10 7 0
    let a := midway 0x750 0x1004 1 0x00050001 i 2
    let b := midway 0x750 0x1004 16 0x00010010 i 2
    let c := midway 0x750 0x1004 4 0x00040004 i 2
    let d := midway 0x750 0x1004 8 0x00010008 i 2
    let bottom := fun s : State => s.cy.toNat + min 4 (s.height - s.cy.toNat)
    (Inv a ∧ Inv b ∧ Inv c ∧ Inv d) ∧ ([a, b, c, d].all fun s => stepReady i s .tile) = true ∧
      bottom a < a.height ∧ bottom b = b.height ∧ b.cx.toNat + 8 < b.width ∧ bottom c = c.height ∧ c.width = 4 ∧
      bottom d = d.height ∧ d.cx.toNat + 8 = d.width := by
  refine ⟨⟨inv_midway ?_, inv_midway ?_, inv_midway ?_, inv_midway ?_⟩, ?_⟩ <;> decide +kernel
/-- For HorizontalTileStep: a tile with more to its right (`W` = 16), one with another strip below it (`W` = 8, `H` = 2, and
`W` = 1, `H` = 3), the last one. -/
theorem wit_horizontal_tile :
    let i := Instr.hfilt6 10 7 3
    let a := midway 0x3754 0x1004 16 0x00010010 i 2
    let b := midway 0x3754 0x1004 8 0x00020008 i 2
    let c := midway 0x3754 0x1004 1 0x00030001 i 2
    let d := midway 0x3754 0x1004 4 0x00020004 i 2
    (Inv a ∧ Inv b ∧ Inv c ∧ Inv d) ∧ ([a, b, c, d].all fun s => stepReady i s .tile) = true ∧
      a.cx.toNat + 8 < a.width ∧ b.cx.toNat + 8 = b.width ∧ b.cy.toNat + 1 < b.height ∧
      c.cx.toNat + c.width = c.width ∧ c.cy.toNat + 2 < c.height ∧ d.cx.toNat + d.width = d.width ∧
      d.cy.toNat + 2 = d.height := by
  refine ⟨⟨inv_midway ?_, inv_midway ?_, inv_midway ?_, inv_midway ?_⟩, ?_⟩ <;> decide +kernel
/-- For LastStepSetsOneFlag, EngineWritesOnlyDestination, EveryStepKeepsInvariant, InvariantStatesNeverFault: a step that
ends a command and one that does not. -/
theorem wit_invariant :
    EngineIsNext demo6 ∧ Inv demo6 ∧ Inv (midway 0x750 0x1004 1 0x00050001 (.vfilt6 10 7 0) 2) ∧ demo6.busy = true ∧
      holdsAfter (step demo6) (fun t => !t.busy) = true ∧
      holdsAfter (step (midway 0x750 0x1004 1 0x00050001 (.vfilt6 10 7 0) 2)) (fun t => t.phase == .tile) = true := by
  refine ⟨(alone_of_empty rfl).1, inv_demo ?_, inv_midway ?_, ?_⟩ <;> decide +kernel
/-- For SourceReadOnce and DestinationWrittenOnce: what a two-strip command reads and writes. -/
theorem wit_accesses :
    Launch (.hfilt6 10 7 3) (demo 0x3754 0x1004 6 0x2000 1 0x00030001 [] []) ∧
      (let s := demo 0x3754 0x1004 6 0x2000 1 0x00030001 [] []
      (runReads (commandOf (.hfilt6 10 7 3)) (stepBound s) s).length = 18 ∧
        runWrites (commandOf (.hfilt6 10 7 3)) (stepBound s) s = [(0, 0), (1, 0), (2, 0)]) :=
  ⟨launch_of (by decide +kernel), by decide +kernel⟩
/-! ### Witnesses: arithmetic, memory, addresses -/

/-- For RoundShiftHalfUp and RoundShiftLaws: the least shift, both signs, each of the three cases in which two shifts are
one. -/
theorem wit_roundShift :
    (1 : Nat) ≤ 1 ∧ (-65 : Int) ≤ -64 ∧ (0 : Int) ≤ 0 ∧ (-1 : Int) < 0 ∧ (2 ^ (3 + 4) : Int) ∣ 128 ∧
      roundShift (roundShift 60 0) 7 = roundShift 60 7 ∧ roundShift (roundShift 60 7) 0 = roundShift 60 7 ∧
      roundShift (roundShift 128 3) 4 = roundShift 128 7 := by decide
/-- For ClampSaturates: next to both bounds, and on them. -/
theorem wit_clamp : (-1 : Int) < 0 ∧ maxSample 10 < 1024 ∧ (0 : Int) ≤ 0 ∧ (0 : Int) ≤ maxSample 10 ∧ (1023 : Int) ≤ maxSample 10 := by
  decide
/-- For AccumulatorNeverOverflows: the most negative sum is reached by twelve taps, and the largest shift. -/
theorem wit_accumulator :
    (List.replicate 12 (0x8000 : Coeff)).length ≤ 12 ∧ (15 : Nat) ≤ 15 ∧
      exactSum (List.replicate 12 0x8000) (List.replicate 12 0xFFFF) = -25769410560 := by decide
/-- For TwoShiftsAreNotOne: `ROUND0` = 0 and `ROUND0` = `FBITS`. -/
theorem wit_one_shift : ((0 : Nat) = 0 ∨ (0 : Nat) = 7) ∧ ((7 : Nat) = 0 ∨ (7 : Nat) = 7) := by decide
/-- For SamplesLittleEndian: the neighbours of a sample (6.1), at the top of the address space too. -/
theorem wit_sample :
    (0x2002 : Word) ≠ 0x2000 ∧ (0x2002 : Word) ≠ 0x2000 + 1 ∧ (1 : Word) ≠ 0xFFFFFFFF ∧ (1 : Word) ≠ 0xFFFFFFFF + 1 := by
  decide
/-- For KernelIsCentred, its third clause: one tap that is not 0. -/
theorem wit_centre :
    let s := demo 0x751 0x1006 1 0x2000 1 0x00010001 [0, 0, 0, -5] []
    let c := commandOf (.vfilt8 10 7 0)
    ∀ k < tapsOf c, tapValue s k = if k = tapsOf c / 2 - 1 then -5 else 0 := by decide +kernel
/-- For AddressesAsStated, KernelIsCentred, SourceFootprint (5.3, 6.2, 6.3): a vertical and a horizontal command, and
`W` = 0. -/
theorem wit_addresses :
    let s := demo 0x751 0x1030 8 0x2000 4 0x00040004 [] []
    let v := commandOf (.vfilt8 10 7 0)
    let h := commandOf (.hfilt8 10 7 0)
    v.dir = .vertical ∧ h.dir = .horizontal ∧ windowBase v s = 0x1000 ∧ windowBase h s = 0x102A ∧
      sourceAddr v s 10 3 = 0x10A6 ∧ destAddr s 3 3 = 0x201E ∧ 0 < s.width ∧ 0 < s.height ∧
      (demo 0x751 0x1030 8 0x2000 4 0x00040000 [] []).width = 0 := by decide +kernel
/-- For AccessesAligned and OutputsAtDistinctAddresses: the last sample of the address space as destination. -/
theorem wit_distinct :
    let s := demo 0x750 0x1004 1 0xFFFFFFFE 1 0x00010001 [] []
    LegalDescriptor (commandOf (.vfilt6 10 7 0)) s ∧ s.width ≤ s.dpitch.toNat ∧
      s.dst.toNat + 2 * ((s.height - 1) * s.dpitch.toNat + s.width) = 2 ^ 32 := by
  unfold LegalDescriptor
  decide +kernel

/-! ### Witnesses: the host's acts -/

/-- `s` with one host act waiting. -/
def asked (s : State) (op : HostOp) : State := { s with inbox := [.host op] }

/-- For RegisterReadsArePure: every clause's offset, the reserved ranges at both ends. -/
theorem wit_reads :
    [0x00, 0x04, 0x08, 0x0C, 0x10, 0x14, 0x18, 0x1C, 0x20, 0x24, 0x3C, 0x40, 0x6C, 0x70, 0xFC].all (fun off =>
      (asked State.reset (.regRead off)).inbox == [.host (.regRead off)] && off % 4 == 0 && off ≤ 0xFC) = true := by decide
/-- For RegistersReadBack: the first and last offset of each kind, idle, `RESET` released; a write to a tap leaves the
others as they are. -/
theorem wit_readBack :
    State.reset.phase = .idle ∧ State.reset.resetLine = false ∧
      [0x00, 0x04, 0x0C, 0x10, 0x20, 0x24, 0x3C, 0x40, 0x6C, 0x70, 0xFC].all (fun off =>
        off % 4 == 0 && off ≤ 0xFC && off != 0x08 && (off != 0x04 || !(0xFFFFFFFE : Word).getLsbD 0)) = true ∧
      readAfter [(0x40, 5), (0x44, 6)] 0x40 = some 5 := by decide +kernel
/-- For BusyGateDropsWrites: the first and last offset of every range, `ID` and `CTRL`. -/
theorem wit_busyGate :
    demo6.busy = true ∧ demo6.resetLine = false ∧
      [0x00, 0x04, 0x0C, 0x20, 0x24, 0x3C, 0x40, 0x6C, 0x70, 0xFC].all (fun off => off % 4 == 0 && off ≤ 0xFC) = true := by
  decide
/-- For StatusWriteOneToClear: a set error, both bits written, on a released machine. -/
theorem wit_status :
    let s := asked { State.reset with err := true, ecode := 2 } (.regWrite 0x08 6)
    s.inbox = [.host (.regWrite 0x08 6)] ∧ s.resetLine = false := by decide
/-- For InterruptFollowsStatus: masked; busy; cleared; an accepted `START` over a set `DONE`; the last step of a command
that completes and of one that stops; a failed check; and a launch with `IE` = 1 that goes on. -/
theorem wit_interrupt :
    let ended := { State.reset with ie := true, done := true }
    (Inv demo6 ∧ Launch (.vfilt6 10 7 0) { demo6 with ie := true } ∧ EngineIsNext (demo 0 0 0 0 0 0 [] [])) ∧
      State.reset.ie = false ∧ demo6.busy = true ∧
      holdsAfter (step (asked ended (.regWrite 0x08 6))) (fun t => !t.irq) = true ∧
      (asked ended (.regWrite 0x04 3)).phase = .idle ∧
      holdsAfter (step (asked ended (.regWrite 0x04 3))) (fun t => t.busy && !t.irq) = true ∧
      holdsAfter (step { demo6 with ie := true }) (fun t => !t.busy && t.irq && t.done) = true ∧
      dispatchCode (demo 0 0 0 0 0 0 [] []) = some 2 ∧
      holdsAfter (step { demo 0 0 0 0 0 0 [] [] with ie := true }) (fun t => !t.busy && t.irq && t.err) = true ∧
      holdsAfter (exec (.vfilt6 10 7 0) { demo6 with ie := true }) (fun t => t.irq) = true := by
  refine ⟨⟨inv_demo ?_, launch_of ?_, (alone_of_empty rfl).1⟩, ?_⟩ <;> decide +kernel
/-- For OnlyUndefinedOffsetsRefused: a misaligned offset, the first one past the window, the last one in it; read and
written. -/
theorem wit_port :
    let r := fun off => refusedWith (step (asked State.reset (.regRead off)))
    let w := fun off => refusedWith (step (asked State.reset (.regWrite off 1)))
    r 1 = some (.undefinedPortAccess 1) ∧ w 0xFE = some (.undefinedPortAccess 0xFE) ∧
      r 0x100 = some (.undefinedPortAccess 0x100) ∧ w 0x100 = some (.undefinedPortAccess 0x100) ∧
      r 0xFC = none ∧ w 0xFC = none := by decide +kernel
/-- For HostRacesAct: a running legal command, whose destination and source hold the first and last byte of each and not the
byte after; an undisturbed output; an idle machine; a busy one without a legal command; no device, and one. -/
theorem wit_race :
    let c := commandOf (.vfilt6 10 7 0)
    let reserved := demo 0x753 0 0 0 0 0 [] []
    let o : AccessOrder := ⟨fun _ _ => 0, fun _ _ => 0, fun _ => 0⟩
    let answers := fun r col => demo6.mapped (destAddr demo6 r col)
    MaySee c demo6 (progressAt c demo6 o answers (hostTick o demo6.raced.length + 1)).mem ∧
      demo6.decoded = .ok (.vfilt6 10 7 0) ∧ LegalDescriptor c demo6 ∧ Undisturbed c demo6 0 0 ∧
      destAddr demo6 0 0 = 0x2000 ∧
      ([0x2000, 0x2001, 0x2002].map fun a => (destPlane demo6).holds a) = [true, true, false] ∧
      ([0x0FFF, 0x1000, 0x100B, 0x100C].map fun a => (sourcePlane c demo6).holds a) = [false, true, true, false] ∧
      [demo6, State.reset, reserved].map State.busy = [true, false, true] ∧
      reserved.decoded = .error (.reservedOpcode 3) ∧
      demo6.device 0x2000 = false ∧ { demo6 with devices := [(0x2000, 0x2001)] }.device 0x2000 = true := by
  refine ⟨⟨_, rfl⟩, ?_⟩
  unfold LegalDescriptor Undisturbed HostKeepsOff
  decide +kernel
/-- A race is noted, byte by byte or sample by sample, an access elsewhere is not, a read of the destination is, and an
access to a device is refused (20_memory.md R68, R73, R79). -/
theorem test_race :
    let bytes := fun a => holdsAfter (step (asked demo6 (.memWrite a 7))) (fun t =>
      t.raced == [.byte a 7] && Memory.readByte t.mem a.toNat == 7)
    let whole := fun i => holdsAfter (step (asked demo6 (.sampleWrite i 0x1234))) (fun t =>
      t.raced == [.sample (sampleAddr i) 0x1234] && Memory.readSample t.mem (sampleAddr i) == 0x1234)
    [bytes 0x2000, bytes 0x1000, bytes 0x100C, whole 0x800, whole 0x805, whole 0x806] =
        [true, true, false, true, true, false] ∧
      holdsAfter (step (asked demo6 (.memRead 0x2001))) (fun t => t.raced == [.look]) = true ∧
      holdsAfter (step (asked demo6 (.sampleRead 0x802))) (fun t => t.rdata == 300 && t.raced == []) = true ∧
      refusedWith (step { asked demo6 (.sampleRead 0x800) with devices := [(0x1001, 0x1002)] }) =
        some (.deviceAccess 0x1001) := by decide +kernel
/-- What a race can give (20_memory.md R68, R79): before the host's write of a sample the one at `START`, after it the new
one, never a mixture; two writes of one byte each are two acts, and a read can come between them. -/
theorem test_race_moments :
    let o := fun k : Nat => AccessOrder.mk (fun _ _ => k) (fun _ _ => 0) (fun _ => 1)
    let c := commandOf (.vfilt6 10 7 0)
    let got := fun ws k => ((progressAt c { demo6 with raced := ws } (o k) (fun _ _ => true) 9).got 1 0).toNat
    (List.range 3).map (got [.sample 0x1002 0x1234]) = [200, 0x1234, 0x1234] ∧
      (List.range 3).map (got [.byte 0x1002 0x34, .byte 0x1003 0x12]) = [200, 0x34, 0x1234] := by decide +kernel
/-- For CommandLineStarts: every field at its highest value. -/
theorem wit_commandLine :
    let m := 4294967295
    let es := commandEvents true .horizontal .twelve 31 15 15 m m m m 65535 65535
    let s := { State.reset with inbox := es }
    s.phase = .idle ∧ s.resetLine = false ∧ s.inbox = es ++ [] ∧ 31 < 32 ∧ 15 < 16 ∧ 65535 < 65536 ∧ m < 2 ^ 32 := by decide

/-! ### Witnesses: reset -/

/-- For ResetGivesResetState: `RESET` asserted on an idle machine and on one in its dispatch step, a write while it is
asserted, its release. -/
theorem wit_reset :
    (asked State.reset .assertReset).phase = .idle ∧ (asked demo6 .assertReset).phase = .dispatch ∧
      (let s := asked { State.reset with resetLine := true } (.regWrite 0xFC 1)
      s.resetLine = true ∧ 0xFC % 4 = 0 ∧ 0xFC ≤ 0xFC) ∧
      (asked { State.reset with resetLine := true } .releaseReset).inbox = [.host .releaseReset] := by decide
/-- For ResetAbandonsCommand: `RESET` after the first tile of two, at the completion step, and after a race of the host. -/
theorem wit_abandon :
    let i := Instr.vfilt6 10 7 0
    let a := asked (midway 0x750 0x1004 1 0x00050001 i 3) .assertReset
    let b := asked (midway 0x750 0x1004 1 0x00010001 i 3) .assertReset
    let c := asked (racedMidway 0x750 0x1004 1 0x00010001 i 2) .assertReset
    (Inv a ∧ Inv b ∧ Inv c) ∧ ([a, b, c].all fun s => s.running && decide (s.decoded = .ok i)) = true ∧
      a.phase = .tile ∧ Undisturbed (commandOf i) a 4 0 ∧ b.phase = .complete ∧ c.raced = [.byte 0x1003 7] := by
  refine ⟨⟨(inv_midway ?_).inbox _, (inv_midway ?_).inbox _, (inv_racedMidway ?_).inbox _⟩, ?_⟩
  · decide +kernel
  · decide +kernel
  · decide +kernel
  · unfold Undisturbed HostKeepsOff
    decide +kernel
end Sys2Proof.Tests
end

section
/-! SUPPORT. The register port read and written by the host, in bits and by offset (10_state.md R24 to R36). -/

namespace Sys2Proof.Machine

open Sys2Proof

/-! ### `STATUS` and `CTRL` as read -/

/-- The fields of `STATUS` do not overlap and fit the word (10_state.md R29). -/
theorem statusWord_toNat (s : State) :
    (statusWord s).toNat = s.busy.toNat + 2 * s.done.toNat + 4 * s.err.toNat + 16 * s.ecode.toNat := by
  have hb := s.busy.toNat_le
  have hd := s.done.toNat_le
  have he := s.err.toNat_le
  have hc := s.ecode.isLt
  rw [statusWord, BitVec.toNat_ofNat]
  omega

/-- A bit that a number holds at place `k` as a truth value is that truth value. -/
theorem getLsbD_of_toNat {n : Nat} {v : BitVec n} {k : Nat} {b : Bool} (h : v.toNat / 2 ^ k % 2 = b.toNat) :
    v.getLsbD k = b := by
  rw [BitVec.getLsbD, Nat.testBit_eq_decide_div_mod_eq, h]
  cases b <;> rfl

/-- `STATUS` as read, bit by bit (10_state.md R29). -/
theorem statusWord_bits (s : State) :
    (statusWord s).getLsbD 0 = s.busy ∧ (statusWord s).getLsbD 1 = s.done ∧ (statusWord s).getLsbD 2 = s.err ∧
      (statusWord s).getLsbD 3 = false ∧ (statusWord s).extractLsb' 4 4 = s.ecode ∧
        (statusWord s).extractLsb' 8 24 = 0 := by
  have hn := statusWord_toNat s
  have hb := s.busy.toNat_le
  have hd := s.done.toNat_le
  have he := s.err.toNat_le
  have hc := s.ecode.isLt
  refine ⟨getLsbD_of_toNat ?_, getLsbD_of_toNat ?_, getLsbD_of_toNat ?_, getLsbD_of_toNat ?_,
    BitVec.eq_of_toNat_eq ?_, BitVec.eq_of_toNat_eq ?_⟩
  · omega
  · omega
  · omega
  · rw [Bool.toNat_false]
    omega
  · rw [BitVec.extractLsb'_toNat, Nat.shiftRight_eq_div_pow]
    omega
  · rw [BitVec.extractLsb'_toNat, Nat.shiftRight_eq_div_pow]
    show _ = 0
    omega

theorem ctrlWord_eq (s : State) : ctrlWord s = if s.ie then 2 else 0 := by
  cases h : s.ie <;> simp [ctrlWord, h]

/-- A write-one-to-clear bit: a 1 clears the flag, a 0 keeps it (10_state.md R29). -/
theorem and_not_eq_ite (a b : Bool) : (a && !b) = if b then false else a := by
  cases b <;> simp

/-! ### What the stored bits read as -/

/-- `IE` is bit 1 of the written word (10_state.md R28). -/
theorem and_ieBit (v : Word) : v &&& 2 = if v.getLsbD 1 then 2 else 0 := by
  have hbit : (v &&& 2).toNat = (v.getLsbD 1).toNat * 2 ^ 1 := by
    rw [BitVec.toNat_and]
    exact Nat.and_two_pow v.toNat 1
  apply BitVec.eq_of_toNat_eq
  rw [hbit]
  cases v.getLsbD 1 <;> rfl

/-- `CMD` keeps bits 15:0 of the written word (10_state.md R30). -/
theorem zeroExtend_cmdBits (v : Word) : (v.extractLsb' 0 16).zeroExtend 32 = v &&& 0xFFFF := by
  apply BitVec.eq_of_toNat_eq
  have hmask : (v &&& 0xFFFF).toNat = v.toNat % 2 ^ 16 := by
    rw [BitVec.toNat_and]
    exact Nat.and_two_pow_sub_one_eq_mod v.toNat 16
  rw [hmask, BitVec.zeroExtend, BitVec.toNat_setWidth, BitVec.extractLsb'_toNat, Nat.shiftRight_zero]
  omega

theorem readBack_operand {off : Nat} (h : 0x10 ≤ off ∧ off ≤ 0x20) (v : Word) : readBack off v = v := by
  unfold readBack
  rw [if_neg (by omega), if_neg (by omega), if_neg (by omega), if_pos h]

theorem readBack_tap {off : Nat} (h : 0x40 ≤ off ∧ off ≤ 0x6C) (v : Word) :
    readBack off v = (v.extractLsb' 0 16).signExtend 32 := by
  unfold readBack
  rw [if_neg (by omega), if_neg (by omega), if_neg (by omega), if_neg (by omega), if_pos h]

theorem readBack_reserved {off : Nat} (h : 0x20 < off) (ht : ¬(0x40 ≤ off ∧ off ≤ 0x6C)) (v : Word) :
    readBack off v = 0 := by
  unfold readBack
  rw [if_neg (by omega), if_neg (by omega), if_neg (by omega), if_neg (by omega), if_neg ht]

theorem registerWord_tap (s : State) (k : Fin 12) : registerWord s (0x40 + 4 * k.val) = s.taps[k].signExtend 32 := by
  rw [registerWord_high s (by omega), tapIndex_tap]

theorem registerWord_reserved (s : State) {off : Nat} (h : 0x20 < off) (ht : ¬(0x40 ≤ off ∧ off ≤ 0x6C)) :
    registerWord s off = 0 := by
  rw [registerWord_high s h, tapIndex_none ht]

/-- A descriptor or tap register reads back the bits that were stored; `ID` and a reserved offset ignore the write
(10_state.md R24, R27, R30 to R36). -/
theorem registerWord_writeDescriptor_same {off : Nat} (h : off % 4 = 0) (h4 : off ≠ 0x04) (h8 : off ≠ 0x08) (v : Word)
    (s : State) : registerWord (writeDescriptor off v s) off = readBack off v := by
  by_cases hlow : off ≤ 0x20
  · have hoff : off = 0x00 ∨ off = 0x0C ∨ off = 0x10 ∨ off = 0x14 ∨ off = 0x18 ∨ off = 0x1C ∨ off = 0x20 := by omega
    rcases hoff with rfl | rfl | hop
    · rfl
    · exact zeroExtend_cmdBits v
    · rw [readBack_operand (by omega)]
      rcases hop with rfl | rfl | rfl | rfl | rfl <;> rfl
  · have hhigh : 0x20 < off := by omega
    by_cases ht : 0x40 ≤ off ∧ off ≤ 0x6C
    · obtain ⟨k, hk⟩ := tapIndex_some ht
      rw [writeDescriptor_high s hhigh, registerWord_high _ hhigh, readBack_tap ht, hk]
      simp only [Fin.getElem_fin, Vector.getElem_set_self]
    · rw [registerWord_reserved _ hhigh ht, readBack_reserved hhigh ht]

/-! ### A write to an idle engine -/

/-- What a write of the host that starts nothing may do, in a state with an idle engine and `RESET` released: it sets
registers of the port, its own offset reads back the stored bits, and every other register reads as before. -/
structure StoresAt (off : Nat) (v : Word) (s t : State) : Prop where
  frame : t = { s with
    ie := t.ie, cmd := t.cmd, src := t.src, spitch := t.spitch, dst := t.dst, dpitch := t.dpitch, size := t.size,
    taps := t.taps }
  same : registerWord t off = readBack off v
  others : ∀ off' : Nat, off' % 4 = 0 → off' ≠ off → registerWord t off' = registerWord s off'

theorem storesAt_ctrl {s : State} {v : Word} (hr : s.resetLine = false) (hv : v.getLsbD 0 = false) :
    StoresAt 0x04 v s (writeRegister 0x04 v s) := by
  rw [writeRegister_ctrl hr, writeCtrl_noStart (Or.inl hv)]
  refine ⟨rfl, (ctrlWord_eq _).trans (and_ieBit v).symm, fun off' _ hne => ?_⟩
  simp only [registerWord, if_neg hne]
  rfl

theorem storesAt_descriptor {s : State} {off : Nat} (hr : s.resetLine = false) (hp : s.phase = .idle)
    (h : off % 4 = 0) (h4 : off ≠ 0x04) (h8 : off ≠ 0x08) (v : Word) : StoresAt off v s (writeRegister off v s) := by
  rw [writeRegister_idle hr hp h4 h8]
  refine ⟨?_, registerWord_writeDescriptor_same h h4 h8 v s,
    fun off' h' hne => registerWord_writeDescriptor_other h h' hne v s⟩
  have hie : (writeDescriptor off v s).ie = s.ie := by rw [writeDescriptor_eq]
  rw [hie]
  exact writeDescriptor_eq off v s

theorem storesAt_writeRegister {s : State} {off : Nat} {v : Word} (hr : s.resetLine = false) (hp : s.phase = .idle)
    (h : off % 4 = 0) (h8 : off ≠ 0x08) (hv : off = 0x04 → v.getLsbD 0 = false) :
    StoresAt off v s (writeRegister off v s) := by
  by_cases h4 : off = 0x04
  · subst h4
    exact storesAt_ctrl hr (hv rfl)
  · exact storesAt_descriptor hr hp h h4 h8 v

/-! ### The host's register accesses as steps -/

theorem step_regRead {s : State} {off : Nat} {rest : List Event} (hin : s.inbox = .host (.regRead off) :: rest)
    (h : off % 4 = 0) (hle : off ≤ 0xFC) :
    step s = .next { s with rdata := registerWord s off, inbox := rest } :=
  (step_of_host hin).trans (hostAct_regRead ((portOffset_iff off).mpr ⟨h, hle⟩) _)

theorem step_regWrite {s : State} {off : Nat} {v : Word} {rest : List Event}
    (hin : s.inbox = .host (.regWrite off v) :: rest) (h : off % 4 = 0) (hle : off ≤ 0xFC) :
    step s = .next (writeRegister off v { s with inbox := rest }) :=
  (step_of_host hin).trans (hostAct_regWrite ((portOffset_iff off).mpr ⟨h, hle⟩) v _)

/-- A write of the host leaves what the port makes of it. -/
theorem step_regWrite_eq {s t : State} {off : Nat} {v : Word} {rest : List Event}
    (hin : s.inbox = .host (.regWrite off v) :: rest) (h : off % 4 = 0) (hle : off ≤ 0xFC)
    (hw : writeRegister off v { s with inbox := rest } = t) : step s = .next t :=
  hw ▸ step_regWrite hin h hle

theorem portOffset_eq_false {off : Nat} (h : off % 4 ≠ 0 ∨ 0xFC < off) : portOffset off = false := by
  rw [← Bool.not_eq_true, portOffset_iff]
  omega

theorem step_port_refused {s : State} {off : Nat} {v : Word} {rest : List Event}
    (hin : s.inbox = .host (.regRead off) :: rest ∨ s.inbox = .host (.regWrite off v) :: rest)
    (h : off % 4 ≠ 0 ∨ 0xFC < off) : step s = .refused (.undefinedPortAccess off) := by
  rcases hin with hin | hin
  all_goals
    rw [step_of_host hin, hostAct, portOffset_eq_false h]
    rfl

/-- Settles O48: the write stores bits, and the read that follows sees them. -/
theorem registersReadBack : Obligations.RegistersReadBack := by
  intro s off v rest hin hp hr h hle h8 hv
  have hw := storesAt_writeRegister (s := { s with inbox := .host (.regRead off) :: rest }) hr hp h h8 hv
  have hstep := step_regWrite hin h hle
  generalize writeRegister off v _ = t at hw hstep
  have hread : t.inbox = .host (.regRead off) :: rest := by rw [hw.frame]
  have hrun : runSteps 2 s = .next { t with rdata := registerWord t off, inbox := rest } := by
    rw [runSteps_succ hstep, runSteps_succ (step_regRead hread h hle), runSteps_zero]
  exact ⟨_, hrun, hw.same, fun off' h' _ hne => hw.others off' h' hne,
    congrArg (fun u : State => { u with rdata := registerWord t off, inbox := rest }) hw.frame⟩

/-- Settles O47, by the offset that is read. -/
theorem registerReadsArePure : Obligations.RegisterReadsArePure := by
  intro s off rest hin h hle
  refine ⟨registerWord s off, step_regRead hin h hle,
    ?id, ?ctrl, ?status, ?cmd, ?src, ?spitch, ?dst, ?dpitch, ?size, ?tap, ?reserved⟩
  case ctrl => rintro rfl; exact ctrlWord_eq s
  case status => rintro rfl; exact statusWord_bits s
  case tap => rintro k rfl; exact registerWord_tap s k
  case reserved => exact fun hres => registerWord_reserved s (by omega) (by omega)
  all_goals rintro rfl; rfl

/-- Settles O49: the `BUSY` gate drops the write, and `CTRL` is not behind it. -/
theorem busyGateDropsWrites : Obligations.BusyGateDropsWrites := by
  intro s off v rest hin hb hr h hle
  refine ⟨fun h4 h8 => step_regWrite_eq hin h hle ?_, fun h4 => step_regWrite_eq hin h hle ?_⟩
  · exact writeRegister_busy (s := { s with inbox := rest }) hb h4 h8 v
  · rw [h4]
    exact (writeRegister_ctrl (s := { s with inbox := rest }) hr v).trans
      (writeCtrl_noStart (Or.inr (ne_idle_of_busy hb)))

/-- Settles O50: `STATUS` is not behind the `BUSY` gate, and its bits clear on a 1. -/
theorem statusWriteOneToClear : Obligations.StatusWriteOneToClear := by
  intro s v rest hin hr
  refine step_regWrite_eq hin rfl (by decide) ((writeRegister_status (s := { s with inbox := rest }) hr v).trans ?_)
  simp only [clearStatus, and_not_eq_ite]

/-- Settles O52: the port refuses by the offset alone. -/
theorem onlyUndefinedOffsetsRefused : Obligations.OnlyUndefinedOffsetsRefused := by
  intro s off v rest hin
  refine ⟨step_port_refused hin, fun h hle => ?_⟩
  rcases hin with hin | hin
  · exact ⟨_, step_regRead hin h hle⟩
  · exact ⟨_, step_regWrite hin h hle⟩

/-- Settles O9: a `START` is accepted by an idle engine alone. -/
theorem startFollowsItsRule : Obligations.StartFollowsItsRule := by
  refine ⟨fun s v rest hin hr => ?_, ?_⟩
  · have hstep : ∀ {t}, writeCtrl v { s with inbox := rest } = t → step s = .next t := fun ht =>
      step_regWrite_eq hin rfl (by decide) ((writeRegister_ctrl (s := { s with inbox := rest }) hr v).trans ht)
    refine ⟨fun hv hp => hstep ?_, fun _ hp => hstep ?_, fun hv => hstep ?_⟩
    · exact writeCtrl_start (s := { s with inbox := rest }) hp hv
    · exact writeCtrl_noStart (Or.inr hp)
    · exact writeCtrl_noStart (Or.inl hv)
  · exact ⟨_, _, rfl, rfl, rfl, rfl⟩

end Sys2Proof.Machine
end

section
/-! SUPPORT. The next step of the machine, said once: whose turn it is, and what the command in `CMD` does in it. -/

namespace Sys2Proof.Machine

open Sys2Proof

/-- Everything a step of the machine can be, by whose turn it is (log 2). -/
inductive StepIs (s : State) : Prop where
  /-- The host acts. -/
  | host (op : HostOp) (rest : List Event) (waiting : s.inbox = .host op :: rest)
      (eq : step s = hostAct op { s with inbox := rest })
  /-- `WAIT` ends at `BUSY` = 0. -/
  | waitEnds (rest : List Event) (idle : s.phase = .idle) (waiting : s.inbox = .wait :: rest)
      (eq : step s = .next { s with rdata := statusWord s, inbox := rest })
  /-- An idle engine has the turn. -/
  | idles (idle : s.phase = .idle) (eq : step s = .next (dropEngineEvent s))
  /-- A busy engine runs the command that `CMD` holds. -/
  | runs (i : Instr) (busy : s.phase ≠ .idle) (decoded : s.decoded = .ok i) (eq : step s = exec i s)
  /-- A busy engine finds a reserved opcode. -/
  | reserved (busy : s.phase ≠ .idle) (eq : step s = .next (raiseErr .opcode (dropEngineEvent s)))

theorem dropEngineEvent_of_none {s : State} (h : s.inbox = []) : dropEngineEvent s = s := by
  rw [dropEngineEvent, h]

theorem engineTurn_of_idle {s : State} (hp : s.phase = .idle) : engineTurn s = .next (dropEngineEvent s) := by
  rw [engineTurn, if_pos hp]

theorem engineTurn_of_reserved {s : State} {e : DecodeError} (hp : s.phase ≠ .idle) (hd : s.decoded = .error e) :
    engineTurn s = .next (raiseErr .opcode (dropEngineEvent s)) := by
  rw [engineTurn, if_neg hp, hd]

theorem step_of_engine {s : State} {rest : List Event} (h : s.inbox = .engine :: rest) : step s = engineTurn s := by
  rw [step, takeTurn, h]

theorem step_of_none {s : State} (h : s.inbox = []) : step s = engineTurn s := by
  rw [step, takeTurn, h]

theorem step_of_wait {s : State} {rest : List Event} (h : s.inbox = .wait :: rest) : step s = waitTurn rest s := by
  rw [step, takeTurn, h]

theorem waitTurn_of_idle {s : State} (hp : s.phase = .idle) (rest : List Event) :
    waitTurn rest s = .next { s with rdata := statusWord s, inbox := rest } := by
  rw [waitTurn, State.busy, hp]
  rfl

theorem waitTurn_of_busy {s : State} (hp : s.phase ≠ .idle) (rest : List Event) : waitTurn rest s = engineTurn s := by
  rw [waitTurn, if_pos (busy_of_ne_idle hp)]

theorem StepIs.of_engineTurn {s : State} (h : step s = engineTurn s) : StepIs s := by
  by_cases hp : s.phase = .idle
  · exact .idles hp (h.trans (engineTurn_of_idle hp))
  · cases hd : s.decoded with
    | ok i => exact .runs i hp hd (h.trans (engineTurn_of_decoded hp hd))
    | error e => exact .reserved hp (h.trans (engineTurn_of_reserved hp hd))

/-- The next event says whose turn it is; with none waiting it is the engine's. -/
theorem stepIs (s : State) : StepIs s := by
  match hin : s.inbox with
  | [] => exact .of_engineTurn (step_of_none hin)
  | .engine :: rest => exact .of_engineTurn (step_of_engine hin)
  | .host op :: rest => exact .host op rest hin (step_of_host hin)
  | .wait :: rest =>
    by_cases hp : s.phase = .idle
    · exact .waitEnds rest hp hin ((step_of_wait hin).trans (waitTurn_of_idle hp rest))
    · exact .of_engineTurn ((step_of_wait hin).trans (waitTurn_of_busy hp rest))

/-- A command makes the engine step that an event lets it make, or runs to its end (log 3). -/
theorem exec_cases (i : Instr) (s : State) :
    (∃ rest, s.inbox = .engine :: rest ∧ exec i s = engineStep (commandOf i) { s with inbox := rest }) ∨
      (RunsToEnd s ∧ exec i s = runEngine (commandOf i) (stepBound s) s) := by
  rw [exec_eq_runCommand]
  by_cases ha : RunsToEnd s
  · exact Or.inr ⟨ha, runCommand_of_alone ha⟩
  · obtain ⟨rest, hin⟩ := List.head?_eq_some_iff.mp (not_not.mp ha)
    exact Or.inl ⟨rest, hin, runCommand_of_engine hin⟩

theorem engineFrame_inbox (s : State) (es : List Event) : EngineFrame s { s with inbox := es } :=
  ⟨sameOperands_of_eq rfl, rfl, rfl, rfl, rfl⟩

/-- What no command changes, in every state. -/
theorem engineFrame_exec {i : Instr} {s t : State} (h : exec i s = .next t) : EngineFrame s t := by
  rcases exec_cases i s with ⟨rest, _, he⟩ | ⟨_, he⟩
  · exact (engineFrame_inbox s rest).trans (stepFrame_engineStep (he.symm.trans h)).frame
  · exact (stepFrame_runEngine (he.symm.trans h)).frame

/-! ### The invariant over a step -/

/-- The invariant of the pass of the command that `CMD` holds. -/
theorem Inv.passInv {s : State} {i : Instr} (h : Inv s) (hr : s.running = true) (hd : s.decoded = .ok i) :
    PassInv (commandOf i) s := by
  obtain ⟨j, hj, hpass⟩ := h.run hr
  obtain rfl : i = j := Except.ok.inj (hd.symm.trans hj)
  exact hpass

theorem Inv.dropEngineEvent {s : State} (h : Inv s) : Inv (dropEngineEvent s) := by
  rw [dropEngineEvent_eq]
  exact h.inbox _

/-- What the command in `CMD` does keeps the invariant. -/
theorem Inv.exec_next {s t : State} {i : Instr} (h : Inv s) (hd : s.decoded = .ok i) (hp : s.phase ≠ .idle)
    (ht : exec i s = .next t) : Inv t := by
  rcases exec_cases i s with ⟨rest, _, he⟩ | ⟨_, he⟩
  · exact (h.inbox rest).engineStep hd hp (he.symm.trans ht)
  · exact h.runEngine hd (he.symm.trans ht)

/-- The command in `CMD` does not fault. -/
theorem Inv.exec_noFault {s : State} {i : Instr} (h : Inv s) (hd : s.decoded = .ok i) (hp : s.phase ≠ .idle)
    (f : Fault) : exec i s ≠ .fault f := by
  rcases exec_cases i s with ⟨rest, _, he⟩ | ⟨_, he⟩ <;> rw [he]
  · exact (h.inbox rest).engineStep_noFault hd hp f
  · exact h.runEngine_noFault hd

/-- A command that finds a reserved opcode stops in a state with the invariant. -/
theorem Inv.raiseOpcode {s : State} (h : Inv s) (hp : s.phase ≠ .idle) :
    Inv (Machine.raiseErr .opcode (Machine.dropEngineEvent s)) := by
  rw [dropEngineEvent_eq]
  exact (h.inbox (Machine.dropEngineEvent s).inbox).raiseErr (h.resetLine_of_busy (busy_of_ne_idle hp)) .opcode h.mem

theorem atOrdinaryMemory_noFault (as : List Word) (s t : State) (f : Fault) : atOrdinaryMemory as s t ≠ .fault f := by
  unfold atOrdinaryMemory
  split <;> exact nofun

/-- No act of the host faults. -/
theorem hostAct_noFault (op : HostOp) (s : State) (f : Fault) : hostAct op s ≠ .fault f := by
  cases op with
  | regRead off | regWrite off v =>
    simp only [hostAct]
    split <;> exact nofun
  | memRead | memWrite | sampleRead | sampleWrite => exact atOrdinaryMemory_noFault _ _ _ f
  | assertReset | releaseReset => exact nofun

/-- Settles O59, by whose turn it is. -/
theorem everyStepKeepsInvariant : Obligations.EveryStepKeepsInvariant := by
  intro s t h ht
  cases stepIs s with
  | host op rest _ eq => exact (h.inbox rest).hostAct op (eq.symm.trans ht)
  | waitEnds rest _ _ eq =>
    obtain rfl := Host.Outcome.next.inj (eq.symm.trans ht)
    exact (h.rdata (statusWord s)).inbox rest
  | idles _ eq =>
    obtain rfl := Host.Outcome.next.inj (eq.symm.trans ht)
    exact h.dropEngineEvent
  | runs i busy decoded eq => exact h.exec_next decoded busy (eq.symm.trans ht)
  | reserved busy eq =>
    obtain rfl := Host.Outcome.next.inj (eq.symm.trans ht)
    exact h.raiseOpcode busy

/-- Settles O60, by whose turn it is: the engine and the host have no faulting step from such a state. -/
theorem invariantStatesNeverFault : Obligations.InvariantStatesNeverFault := by
  intro s f h
  cases stepIs s with
  | host op rest _ eq => exact eq ▸ hostAct_noFault op _ f
  | waitEnds _ _ _ eq | idles _ eq | reserved _ eq => exact eq ▸ nofun
  | runs i busy decoded eq => exact eq ▸ h.exec_noFault decoded busy f

/-- Settles O28: neither one engine step nor a run of them writes a register. -/
theorem engineWritesNoRegister : Obligations.EngineWritesNoRegister := fun _ _ _ h => engineFrame_exec h

/-- Settles O5, by whose turn it is. -/
theorem stepRunsDecodedInstruction : Obligations.StepRunsDecodedInstruction := by
  refine ⟨fun i s hp hd hnext => ?_, fun s hp => ⟨fun hin => ?_, fun rest hin => ?_, fun rest hin => ?_⟩⟩
  · rw [step_of_engineIsNext (busy_of_ne_idle hp) hnext, engineTurn_of_decoded hp hd]
  · rw [step_of_none hin, engineTurn_of_idle hp, dropEngineEvent_of_none hin]
  · rw [step_of_engine hin, engineTurn_of_idle hp, dropEngineEvent_of_engine hin]
  · obtain ⟨hbusy, hbits⟩ := statusWord_bits s
    have hidle : s.busy = false := by rw [State.busy, hp]; rfl
    exact ⟨statusWord s, (step_of_wait hin).trans (waitTurn_of_idle hp rest), hbusy.trans hidle, hbits⟩

end Sys2Proof.Machine
end

section
/-! SUPPORT. The reset state, and what `RESET` makes of an idle, a started and a running engine (10_state.md R52,
70_reset_and_hazards.md R240, R241). -/

namespace Sys2Proof.Machine

open Sys2Proof

theorem memoryAtReset_of_notRunning {s : State} (h : s.phase = .idle ∨ s.phase = .dispatch) :
    memoryAtReset s = s.mem := by
  unfold memoryAtReset
  rcases h with hp | hp <;> rw [hp]

/-- Settles O56, by the host's act: asserting `RESET`, writing while it is asserted, releasing it. -/
theorem resetGivesResetState : Obligations.ResetGivesResetState := by
  refine fun s rest => ⟨fun hin hp => ?_, fun off v hin hr h hle => ?_, fun hin => ?_⟩
  · rw [step_of_host hin]
    simp only [hostAct, assertReset]
    rw [memoryAtReset_of_notRunning (s := { s with inbox := rest }) hp]
  · exact step_regWrite_eq hin h hle (writeRegister_reset (s := { s with inbox := rest }) hr off v)
  · exact step_of_host hin

/-- Settles O57: the outputs are those that a command cut short leaves. -/
theorem resetAbandonsCommand : Obligations.ResetAbandonsCommand := by
  intro i s rest hinv hrun hd hin
  have hstep : step s = .next (assertReset { s with inbox := rest }) := step_of_host hin
  have hmem : (assertReset { s with inbox := rest }).mem = stoppedMemory (commandOf i) { s with inbox := rest } :=
    memoryAtReset_of_running hrun hd
  have hleft : LeftMixed (commandOf i) s (assertReset { s with inbox := rest }) :=
    LeftMixed.congr (engineFrame_inbox s rest).operands rfl (fun _ _ => rfl)
      (leftMixed_stopped (hinv.passInv hrun hd).legal hmem)
  exact ⟨_, hstep, rfl, rfl, rfl, rfl, rfl, hleft.outside, hleft.mixture, hleft.ordered⟩

/-- Settles O58: the reset state is idle, with empty memories, no flag and an invalid window. -/
theorem resetHasInvariant : Obligations.ResetHasInvariant :=
  Inv.of_idle rfl rfl rfl (by decide) (by decide) rfl rfl rfl

/-- Settles O55, register by register. -/
theorem resetStateAsStated : Obligations.ResetStateAsStated := by
  refine ⟨rfl, rfl, rfl, rfl, rfl, rfl, rfl, rfl, rfl, rfl, rfl, rfl, rfl, ?_, ?_, rfl, rfl, ?_, rfl, rfl⟩
  · exact fun k => Vector.getElem_replicate k.isLt
  · exact fun e l => windowLane_empty e l
  · exact fun l => Vector.getElem_replicate l.isLt

end Sys2Proof.Machine
end

section
/-! SUPPORT. A prime as a step of the engine, and a launch run to its end (41_vertical.md R152, 42_horizontal.md R172,
40_dispatch.md R130 to R136). -/

namespace Sys2Proof.Machine

open Sys2Proof

/-! ### The prime of a strip -/

/-- A prime changes window, phase and cursor alone. -/
theorem primed_eq (c : Command) (s : State) (w : Window) :
    primed c s w = { s with win := w, phase := .tile, cx := (primed c s w).cx, cy := (primed c s w).cy } := by
  unfold primed stripStart
  cases c.dir <;> rfl

theorem primed_vertical {c : Command} (hd : c.dir = .vertical) (s : State) (w : Window) :
    (primed c s w).cx = s.cx ∧ (primed c s w).cy = 0 := by
  simp only [primed, stripStart, hd, and_self]

theorem primed_horizontal {c : Command} (hd : c.dir = .horizontal) (s : State) (w : Window) :
    (primed c s w).cx = 0 ∧ (primed c s w).cy = s.cy := by
  simp only [primed, stripStart, hd, and_self]

theorem engineStep_of_primeStep {c : Command} {s t : State} (hp : s.phase = .prime) (h : primeStep c s = .ok t) :
    engineStep c s = .next t := by
  rw [engineStep_of_prime hp, h, afterAccesses]

/-- Settles O30: where the addresses answer, the engine stands at the first tile of the strip, with the invariant of its
pass. -/
theorem primeFillsWindow : Obligations.PrimeFillsWindow := by
  intro i s rest hinv hd hp hin hm
  have hrun : s.running = true := (running_iff s).mpr (Or.inl hp)
  have hpass : PassInv (commandOf i) { s with inbox := rest } := (hinv.inbox rest).passInv hrun hd
  obtain ⟨w, hok, hprimed⟩ := primeStep_mapped hpass hp hm
  have hexec : exec i s = .next (primed (commandOf i) { s with inbox := rest } w) := by
    rw [exec_eq_runCommand, runCommand_of_engine hin]
    exact engineStep_of_primeStep hp hok
  refine ⟨_, hexec, rfl, fun _ => hprimed.window rfl, ?_, ?_, ?_, engineFrame_exec hexec, ?_, ?_, ?_, ?cursor⟩
  case cursor =>
    split
    next hdir => exact primed_vertical hdir _ w
    next hdir => exact primed_horizontal hdir _ w
  all_goals rw [primed_eq]

/-! ### A launch -/

/-- An empty command completes with nothing to write (40_dispatch.md R125). -/
theorem completed_of_empty {i : Instr} {s : State} (h : JustStarted i s) (hz : s.width = 0 ∨ s.height = 0) :
    Completed s (completeCommand s) ∧ LeftComplete (commandOf i) s (completeCommand s) := by
  have hnone : ∀ {r col : Nat}, r < s.height → col < s.width → False := by omega
  refine ⟨⟨rfl, rfl, h.noError, rfl, h.acc, (stepFrame_completeCommand s).frame, fun _ _ => rfl⟩,
    fun _ _ => rfl, fun r hr col hc => (hnone hr hc).elim, Config.accessOrder s.launches, ?_⟩
  exact destinationIs_of_samples fun r hr col hc => (hnone hr hc).elim

/-- A launch completes, and leaves what a completed command leaves. -/
theorem Launch.completes {i : Instr} {s : State} (h : Launch i s) :
    ∃ t, exec i s = .next t ∧ Completed s t ∧ LeftComplete (commandOf i) s t := by
  rcases exec_started h.started h.alone fun _ => h.ordinary with
    ⟨e, he, _⟩ | ⟨_, hz, hexec⟩ | ⟨_, _, _, u, t, hexec, hu, hframe, hout, hstep, hend, _⟩
  · exact absurd (h.legal.symm.trans he) nofun
  · exact ⟨_, hexec, completed_of_empty h.started hz⟩
  · cases hend with
    | completed idle done flags win acc mem was =>
      obtain ⟨hdone, _, hleft⟩ := completed_of_ended hu hframe hout hstep idle done flags win acc mem was
      exact ⟨t, hexec, hdone, hleft⟩
    | stopped _ unmapped => exact absurd ((hframe.frame.operands.footprintsMapped _).mpr h.mapped) unmapped

/-- No order of the accesses of a launch can show in its outputs. -/
theorem Launch.uncontested {i : Instr} {s : State} (h : Launch i s) : Uncontested (commandOf i) s := by
  refine ⟨fun w hw => ?_, h.noAlias, h.distinct⟩
  rw [h.started.raced] at hw
  cases hw

/-! ### The taps that a command does not use -/

/-- The taps from `TAP[taps]` on are no part of the kernel (10_state.md R22). -/
theorem kernel_withTaps {c : Command} {s : State} {taps' : Vector Coeff 12}
    (h : ∀ k : Fin 12, k.val < tapsOf c → taps'[k] = s.taps[k]) : kernel c { s with taps := taps' } = kernel c s := by
  unfold kernel
  refine List.ext_getElem (by simp) fun k hk _ => ?_
  have hk' : k < tapsOf c ∧ k < 12 := by simpa using hk
  simpa using h ⟨k, hk'.2⟩ hk'.1

theorem referenceSample_withTaps {c : Command} {s : State} {taps' : Vector Coeff 12}
    (h : ∀ k : Fin 12, k.val < tapsOf c → taps'[k] = s.taps[k]) (r col : Nat) :
    referenceSample c { s with taps := taps' } r col = referenceSample c s r col := by
  unfold referenceSample outputFrom
  rw [kernel_withTaps h]
  rfl

/-- Whether a launch is as the spec asks does not depend on the taps. -/
theorem Launch.withTaps {i : Instr} {s : State} (h : Launch i s) (taps' : Vector Coeff 12) :
    Launch i { s with taps := taps' } where
  started := ⟨h.started.decoded, h.started.phase, h.started.cx, h.started.cy, h.started.launchMem, h.started.acc,
    h.started.noError, h.started.raced⟩
  alone := h.alone
  legal := h.legal
  mapped := h.mapped
  ordinary := h.ordinary
  noAlias := h.noAlias
  distinct := h.distinct

/-- Settles O27: outside the destination neither launch writes, and inside it both leave the same reference values. -/
theorem unusedTapsIgnored : Obligations.UnusedTapsIgnored := by
  intro i s taps' h htaps
  have h' := h.withTaps taps'
  obtain ⟨t, hexec, hdone, hleft⟩ := h.completes
  obtain ⟨t', hexec', hdone', hleft'⟩ := h'.completes
  refine ⟨t, t', hexec, hexec', hdone.done, hdone'.done, hdone.frame.operands.taps, hdone'.frame.operands.taps, ?_⟩
  have hdest : DestinationIs s t' t.mem := destinationIs_of_samples fun r hr col hc => by
    rw [hleft.outputs r hr col hc (h.uncontested.undisturbed hr hc), ← referenceSample_withTaps htaps]
    exact hleft'.outputs r hr col hc (h'.uncontested.undisturbed hr hc)
  intro a
  cases ha : (destPlane s).holds a
  · exact (hleft'.outside a ha).trans (hleft.outside a ha).symm
  · exact hdest a ha

end Sys2Proof.Machine
end

section
/-! SUPPORT. Samples in memory, and the addresses that a command forms (20_memory.md R62 to R71). -/

namespace Sys2Proof.Machine

open Sys2Proof

/-! ### Samples -/

/-- A sample as a number: the byte at its address is the less significant one (20_memory.md R64). -/
theorem Memory.readSample_toNat (m : Memory) (a : Word) :
    (m.readSample a).toNat = (m.readByte a.toNat).toNat + 256 * (m.readByte (a + 1).toNat).toNat := by
  have hlow := (m.readByte a.toNat).isLt
  rw [Memory.readSample, BitVec.toNat_append, Nat.shiftLeft_eq, Nat.mul_comm, ← Nat.two_pow_add_eq_or_of_lt hlow]
  omega

/-- The two bytes of a sample as numbers. -/
theorem sampleBytes_toNat (v : Sample) :
    (v.extractLsb' 0 8).toNat = v.toNat % 256 ∧ (v.extractLsb' 8 8).toNat = v.toNat / 256 := by
  have hv := v.isLt
  simp only [BitVec.extractLsb'_toNat, Nat.shiftRight_eq_div_pow]
  omega

theorem Memory.readByte_writeSample_low (m : Memory) (a : Word) (v : Sample) :
    (m.writeSample a v).readByte a.toNat = v.extractLsb' 0 8 := by
  rw [Memory.readByte_writeSample, if_neg (by bv_omega), if_pos rfl]

theorem Memory.readByte_writeSample_high (m : Memory) (a : Word) (v : Sample) :
    (m.writeSample a v).readByte (a + 1).toNat = v.extractLsb' 8 8 := by
  rw [Memory.readByte_writeSample, if_pos rfl]

/-- Settles O40: each of the two bytes by its half of the sample, every other byte by the frame of a write. -/
theorem samplesLittleEndian : Obligations.SamplesLittleEndian := by
  intro m a v
  obtain ⟨hlow, hhigh⟩ := sampleBytes_toNat v
  refine ⟨m.readSample_toNat a, ?_, ?_, fun x h0 h1 => Memory.readByte_writeSample_other h0 h1⟩
  · rw [Memory.readByte_writeSample_low, hlow]
  · rw [Memory.readByte_writeSample_high, hhigh]

/-! ### Addresses -/

/-- Settles O41, by the direction. -/
theorem addressesAsStated : Obligations.AddressesAsStated := by
  intro c s i j
  refine ⟨fun hd => ?_, fun hd => ?_, sourceAddr_eq c s i j, rfl⟩ <;> simp only [windowBase, hd, offsetOf]

/-- An empty command reads nothing (20_memory.md R69). -/
theorem sourcePlane_empty {c : Command} {s : State} (h : s.width = 0 ∨ s.height = 0) :
    (sourcePlane c s).rows = 0 ∧ (sourcePlane c s).cols = 0 := by
  rw [sourcePlane, if_pos h]
  exact ⟨rfl, rfl⟩

/-- Settles O43: the shape of a non-empty command by its direction, and that of an empty one. -/
theorem sourceFootprint : Obligations.SourceFootprint := by
  intro c s
  refine ⟨fun hw hh hd => ?_, fun hw hh hd => ?_, sourcePlane_empty⟩
  all_goals simpa only [hd] using sourcePlane_shape c s hw hh

/-- Settles O44: bases are even, and a sample lies an even number of bytes on from its base. -/
theorem accessesAligned : Obligations.AccessesAligned :=
  fun _ _ h i j => ⟨sourceAddr_even h i j, destAddr_even h i j⟩

/-- Without wrap-around the address of an output is that of the rule over the natural numbers (20_memory.md R66, R67). -/
theorem destAddr_toNat {s : State}
    (hwrap : s.dst.toNat + 2 * ((s.height - 1) * s.dpitch.toNat + s.width) ≤ 2 ^ 32) {r col : Nat} (hr : r < s.height)
    (hc : col < s.width) : (destAddr s r col).toNat = s.dst.toNat + 2 * (r * s.dpitch.toNat + col) := by
  have hword : destAddr s r col = BitVec.ofNat 32 (s.dst.toNat + 2 * (r * s.dpitch.toNat + col)) := by
    simp only [BitVec.ofNat_add, BitVec.ofNat_mul, BitVec.ofNat_toNat, BitVec.setWidth_eq]
    rfl
  have hrow : r * s.dpitch.toNat ≤ (s.height - 1) * s.dpitch.toNat := Nat.mul_le_mul_right _ (by omega)
  rw [hword, BitVec.toNat_ofNat]
  exact Nat.mod_eq_of_lt (by omega)

/-- A place in rows of `pitch` columns determines its row and its column. -/
theorem coords_of_place {pitch r col r' col' : Nat} (hc : col < pitch) (hc' : col' < pitch)
    (h : r * pitch + col = r' * pitch + col') : r = r' ∧ col = col' := by
  have hpos : 0 < pitch := Nat.zero_lt_of_lt hc
  obtain ⟨hdiv, hmod⟩ := (Nat.div_mod_unique hpos).mpr ⟨show col + pitch * r = r * pitch + col by ring, hc⟩
  obtain ⟨hdiv', hmod'⟩ := (Nat.div_mod_unique hpos).mpr ⟨show col' + pitch * r' = r * pitch + col by rw [h]; ring, hc'⟩
  exact ⟨hdiv.symm.trans hdiv', hmod.symm.trans hmod'⟩

/-- Settles O45: the addresses as numbers, each of which is one place in rows of `DPITCH` columns. -/
theorem outputsAtDistinctAddresses : Obligations.OutputsAtDistinctAddresses := by
  intro s hpitch hwrap r hr col hc r' hr' col' hc' he
  have hnat := congrArg BitVec.toNat he
  rw [destAddr_toNat hwrap hr hc, destAddr_toNat hwrap hr' hc'] at hnat
  exact coords_of_place (pitch := s.dpitch.toNat) (by omega) (by omega) (by omega)

end Sys2Proof.Machine
end

section
/-! SUPPORT. Which launches are refused: none but the legal ones at a device (20_memory.md R73). -/

namespace Sys2Proof.Machine

open Sys2Proof

/-! ### The phase after an engine step -/

theorem writeOutput_phase {c : Command} {s t : State} {o : Output} (h : writeOutput c s o = .ok t) :
    t.phase = s.phase := by
  unfold writeOutput at h
  split at h
  · cases h
  · simp only at h
    split at h
    · cases h
    · split at h
      · cases h
      · cases h
        rfl

theorem writeOutputs_phase {c : Command} {outs : List Output} {s t : State} (h : writeOutputs c outs s = .ok t) :
    t.phase = s.phase := by
  induction outs generalizing s with
  | nil =>
    cases h
    rfl
  | cons o rest ih =>
    unfold writeOutputs at h
    split at h
    · cases h
    next u hu => exact (ih h).trans (writeOutput_phase hu)

theorem advance_phase (c : Command) (s t : State) :
    (advance c s t).phase = t.phase ∨ (advance c s t).phase = .prime ∨ (advance c s t).phase = .complete := by
  unfold advance verticalAdvance horizontalAdvance
  split
  · simp only
    split
    · exact Or.inl rfl
    · split
      · exact Or.inr (Or.inr rfl)
      · split
        · exact Or.inr (Or.inl rfl)
        · exact Or.inr (Or.inr rfl)
  · simp only
    split
    · exact Or.inl rfl
    · split
      · exact Or.inr (Or.inl rfl)
      · exact Or.inr (Or.inr rfl)

theorem primeStep_phase {c : Command} {s t : State} (h : primeStep c s = .ok t) : t.phase = .tile := by
  unfold primeStep at h
  simp only at h
  split at h
  · cases h
  · cases h
    rfl

theorem tileStep_phase {c : Command} {s t : State} (h : tileStep c s = .ok t) :
    t.phase = s.phase ∨ t.phase = .prime ∨ t.phase = .complete := by
  unfold tileStep at h
  split at h
  · cases h
  next w _ =>
    split at h
    · cases h
    next u hu =>
      cases h
      have hphase : u.phase = s.phase := writeOutputs_phase (s := { s with win := w }) hu
      rw [← hphase]
      exact advance_phase c s _

/-- What the accesses of a step leave: the state they come to or, after a bus error, an idle engine. -/
theorem afterAccesses_next {c : Command} {s t : State} {r : Except Stop State} (h : afterAccesses c s r = .next t) :
    r = .ok t ∨ t.phase = .idle := by
  unfold afterAccesses at h
  split at h
  · cases h
    exact Or.inl rfl
  · cases h
    exact Or.inr rfl
  · cases h

theorem afterAccesses_notRefused (c : Command) (s : State) (r : Except Stop State) (e : Refusal) :
    afterAccesses c s r ≠ .refused e := by
  unfold afterAccesses
  split <;> exact nofun

/-- An engine is in `DISPATCH` after a `START` and never again before the command ends (10_state.md R49). -/
theorem engineStep_leavesDispatch {c : Command} {s t : State} (h : engineStep c s = .next t) : t.phase ≠ .dispatch := by
  cases hp : s.phase with
  | idle =>
    rw [engineStep, hp] at h
    cases h
    simp [hp]
  | dispatch =>
    rw [engineStep_of_dispatch hp (ordinary_of_next hp h)] at h
    cases h
    rcases dispatchStep_cases c s with ⟨e, _, hs⟩ | ⟨_, _, hs⟩ | ⟨_, _, _, hs⟩ <;> rw [hs] <;> exact nofun
  | prime =>
    rw [engineStep_of_prime hp] at h
    rcases afterAccesses_next h with hok | hidle
    · simp [primeStep_phase hok]
    · simp [hidle]
  | tile =>
    rw [engineStep_of_tile hp] at h
    rcases afterAccesses_next h with hok | hidle
    · rcases tileStep_phase hok with hsame | hnext | hnext
      · simp [hsame, hp]
      · simp [hnext]
      · simp [hnext]
    · simp [hidle]
  | complete =>
    rw [engineStep_of_complete hp] at h
    cases h
    exact nofun

/-! ### Refusals -/

theorem engineStep_notRefused {c : Command} {s : State} (hp : s.phase ≠ .dispatch) (r : Refusal) :
    engineStep c s ≠ .refused r := by
  unfold engineStep
  split
  · exact nofun
  next hd => exact absurd hd hp
  · exact afterAccesses_notRefused _ _ _ r
  · exact afterAccesses_notRefused _ _ _ r
  · exact nofun

/-- The refusals of an engine step, said once. -/
theorem engineStep_refused_iff {c : Command} {s : State} {r : Refusal} :
    engineStep c s = .refused r ↔
      r = .deviceLaunch ∧ s.phase = .dispatch ∧ LegalDescriptor c s ∧ ¬OrdinaryMemory c s := by
  by_cases hp : s.phase = .dispatch
  · rw [engineStep, hp]
    by_cases hdev : launchesAtDevice c s = true
    · simp only [if_pos hdev, launchesAtDevice_iff.mp hdev]
      simp [eq_comm]
    · have hnot := mt launchesAtDevice_iff.mpr hdev
      simp only [if_neg hdev]
      exact ⟨nofun, fun h => absurd h.2.2 hnot⟩
  · exact ⟨fun h => absurd h (engineStep_notRefused hp r), fun h => absurd h.2.1 hp⟩

theorem runEngine_of_idle {c : Command} {s : State} (hp : s.phase = .idle) (n : Nat) : runEngine c n s = .next s := by
  cases n with
  | zero => rfl
  | succ n => rw [runEngine, if_pos hp]

/-- After its dispatch step a command is not refused. -/
theorem runEngine_notRefused {c : Command} {n : Nat} {s : State} (hp : s.phase ≠ .dispatch) (r : Refusal) :
    runEngine c n s ≠ .refused r := by
  induction n generalizing s with
  | zero => exact nofun
  | succ n ih =>
    unfold runEngine
    split
    · exact nofun
    · split
      next t ht => exact ih (engineStep_leavesDispatch ht)
      · exact nofun
      next e he => exact absurd he (engineStep_notRefused hp e)

/-- A run is refused exactly where its first step is. -/
theorem runEngine_refused_iff {c : Command} {n : Nat} {s : State} {r : Refusal} :
    runEngine c (n + 1) s = .refused r ↔ engineStep c s = .refused r := by
  unfold runEngine
  split
  next hp => rw [engineStep, hp]
  · split
    next t ht => rw [ht]; exact ⟨fun h => absurd h (runEngine_notRefused (engineStep_leavesDispatch ht) r), nofun⟩
    next f hf => rw [hf]
    next e he => rw [he]

/-- A run to the end makes at least one engine step. -/
theorem stepBound_pos (s : State) : 0 < stepBound s := Nat.mul_pos (by omega) (by omega)

/-- Settles O8: a command is refused where its first engine step is. -/
theorem onlyDeviceLaunchesRefused : Obligations.OnlyDeviceLaunchesRefused := by
  intro i s r
  rcases exec_cases i s with ⟨rest, _, he⟩ | ⟨_, he⟩ <;> rw [he]
  · exact engineStep_refused_iff
  · obtain ⟨n, hn⟩ := Nat.exists_eq_add_one.mpr (stepBound_pos s)
    rw [hn]
    exact runEngine_refused_iff.trans engineStep_refused_iff

end Sys2Proof.Machine
end

section
/-! SUPPORT. What the engine leaves outside the destination, and what a command leaves at its end, its footprints
overlapping or not (20_memory.md R72, R77, R79; 40_dispatch.md R130, R131). -/

namespace Sys2Proof.Machine

open Sys2Proof

/-! ### Outside the destination -/

theorem OutsideDestSame.refl (s : State) : OutsideDestSame s s := fun _ _ => rfl

theorem OutsideDestSame.trans {s t u : State} (ho : SameOperands s t) (h : OutsideDestSame s t)
    (k : OutsideDestSame t u) : OutsideDestSame s u :=
  fun a ha => (k a (by rw [ho.destPlane]; exact ha)).trans (h a ha)

theorem OutsideDestSame.of_mem {s t : State} (h : t.mem = s.mem) : OutsideDestSame s t := fun _ _ => by rw [h]

/-- The dispatch step makes no memory access (40_dispatch.md R121, R125). -/
theorem dispatchStep_mem (c : Command) (s : State) : (dispatchStep c s).mem = s.mem := by
  rcases dispatchStep_cases c s with ⟨e, _, hs⟩ | ⟨_, _, hs⟩ | ⟨_, _, _, hs⟩ <;> rw [hs] <;> rfl

/-- An engine step of the command in `CMD`, in any phase, writes no byte outside the destination. -/
theorem Inv.engineStep_outside {s t : State} {i : Instr} (h : Inv s) (hd : s.decoded = .ok i)
    (ht : Machine.engineStep (commandOf i) s = .next t) : OutsideDestSame s t := by
  have ofRunning : s.running = true → OutsideDestSame s t := fun hr => by
    obtain ⟨j, hj, hrun⟩ := h.running hr
    obtain rfl : i = j := Except.ok.inj (hd.symm.trans hj)
    obtain ⟨u, hu, hout, _⟩ := engineStep_running hrun
    obtain rfl : t = u := Host.Outcome.next.inj (ht.symm.trans hu)
    exact hout
  cases hp : s.phase with
  | idle =>
    rw [Machine.engineStep, hp] at ht
    cases ht
    exact OutsideDestSame.refl s
  | dispatch =>
    rw [engineStep_of_dispatch hp (ordinary_of_next hp ht)] at ht
    cases ht
    exact OutsideDestSame.of_mem (dispatchStep_mem _ s)
  | prime => exact ofRunning ((running_iff s).mpr (Or.inl hp))
  | tile => exact ofRunning ((running_iff s).mpr (Or.inr (Or.inl hp)))
  | complete => exact ofRunning ((running_iff s).mpr (Or.inr (Or.inr hp)))

/-- Nor does any number of its engine steps. -/
theorem Inv.runEngine_outside {i : Instr} {n : Nat} {s t : State} (h : Inv s) (hd : s.decoded = .ok i)
    (ht : Machine.runEngine (commandOf i) n s = .next t) : OutsideDestSame s t := by
  induction n generalizing s with
  | zero =>
    cases ht
    exact OutsideDestSame.refl _
  | succ n ih =>
    by_cases hp : s.phase = .idle
    · rw [runEngine_of_idle hp] at ht
      cases ht
      exact OutsideDestSame.refl _
    · rw [Machine.runEngine, if_neg hp] at ht
      split at ht
      next u hu =>
        have hop := (stepFrame_engineStep hu).frame.operands
        exact OutsideDestSame.trans hop (h.engineStep_outside hd hu)
          (ih (h.engineStep hd hp hu) (hop.decoded.trans hd) ht)
      · cases ht
      · cases ht

theorem Inv.exec_outside {s t : State} {i : Instr} (h : Inv s) (hd : s.decoded = .ok i) (ht : exec i s = .next t) :
    OutsideDestSame s t := by
  rcases exec_cases i s with ⟨rest, _, he⟩ | ⟨_, he⟩
  · exact (h.inbox rest).engineStep_outside hd (he.symm.trans ht)
  · exact h.runEngine_outside hd (he.symm.trans ht)

theorem dropEngineEvent_mem (s : State) : (dropEngineEvent s).mem = s.mem := by rw [dropEngineEvent_eq]

/-- Settles O29, by what the engine's turn can be. -/
theorem engineWritesOnlyDestination : Obligations.EngineWritesOnlyDestination := by
  intro s t h hnext ht
  cases stepIs s with
  | host op rest waiting _ => exact absurd waiting (hnext op rest)
  | waitEnds _ _ _ eq =>
    obtain rfl := Host.Outcome.next.inj (eq.symm.trans ht)
    exact OutsideDestSame.of_mem rfl
  | idles _ eq =>
    obtain rfl := Host.Outcome.next.inj (eq.symm.trans ht)
    exact OutsideDestSame.of_mem (dropEngineEvent_mem s)
  | runs i _ decoded eq => exact h.exec_outside decoded (eq.symm.trans ht)
  | reserved _ eq =>
    obtain rfl := Host.Outcome.next.inj (eq.symm.trans ht)
    exact OutsideDestSame.of_mem (dropEngineEvent_mem s)

/-! ### The completion step -/

/-- At its completion a command ends in one engine step, whether an event lets it make that one or it runs to its end. -/
theorem exec_of_complete {i : Instr} {s : State} (hp : s.phase = .complete) :
    exec i s = .next (completeCommand (settleOutputs (commandOf i) (dropEngineEvent s))) := by
  rcases exec_cases i s with ⟨rest, hin, he⟩ | ⟨ha, he⟩ <;> rw [he]
  · rw [dropEngineEvent_of_engine hin]
    exact engineStep_of_complete (s := { s with inbox := rest }) hp
  · obtain ⟨n, hn⟩ := Nat.exists_eq_add_one.mpr (stepBound_pos s)
    rw [dropEngineEvent_of_alone ha, hn, runEngine, if_neg (by rw [hp]; decide), engineStep_of_complete hp]
    exact runEngine_of_idle rfl n

/-- Settles O14: the outputs are those that a completed command leaves. -/
theorem completionStep : Obligations.CompletionStep := by
  intro i s h hd hp
  have hrun : s.running = true := (running_iff s).mpr (Or.inr (Or.inr hp))
  have hdrop := dropEngineEvent_eq s
  have hexec := exec_of_complete (i := i) hp
  generalize (dropEngineEvent s).inbox = es at hdrop
  rw [hdrop] at hexec ⊢
  have hpass : PassInv (commandOf i) { s with inbox := es } := (h.inbox es).passInv hrun hd
  have hleft : LeftComplete (commandOf i) s (completeCommand (settleOutputs (commandOf i) { s with inbox := es })) :=
    LeftComplete.congr (engineFrame_inbox s es).operands rfl (OutsideDestSame.of_mem rfl)
      (leftComplete_settled hpass hp rfl)
  refine ⟨_, hexec, ?_, hleft.outside, fun hu => ?_, hleft.outputs, hleft.ordered⟩
  · rw [settleOutputs_eq]
    rfl
  · rw [settleOutputs_of_uncontested (s := { s with inbox := es }) hu]
    rfl

/-! ### A command whose footprints may overlap -/

/-- A started legal command in ordinary memory whose addresses answer completes, whatever lies on its outputs. -/
theorem JustStarted.completes {i : Instr} {s : State} (h : JustStarted i s) (ha : RunsToEnd s)
    (hl : LegalDescriptor (commandOf i) s) (hm : FootprintsMapped (commandOf i) s) (ho : OrdinaryMemory (commandOf i) s) :
    ∃ t, exec i s = .next t ∧ Completed s t ∧ t.inbox = s.inbox ∧ LeftComplete (commandOf i) s t := by
  rcases exec_started h ha fun _ => ho with
    ⟨e, he, _⟩ | ⟨_, hz, hexec⟩ | ⟨_, _, _, u, t, hexec, hu, hframe, hout, hstep, hend, _⟩
  · exact absurd (hl.symm.trans he) nofun
  · obtain ⟨hdone, hleft⟩ := completed_of_empty h hz
    exact ⟨_, hexec, hdone, rfl, hleft⟩
  · cases hend with
    | completed idle done flags win acc mem was =>
      exact ⟨t, hexec, completed_of_ended hu hframe hout hstep idle done flags win acc mem was⟩
    | stopped _ unmapped => exact absurd ((hframe.frame.operands.footprintsMapped _).mpr hm) unmapped

/-- Settles O20: the command completes, and its reference values are those of the rules. -/
theorem overlappingCommandCompletes : Obligations.OverlappingCommandCompletes := by
  intro i s h ha hl hm ho
  obtain ⟨t, hexec, hdone, hinbox, hleft⟩ := h.completes ha hl hm ho
  refine ⟨t, hexec, hdone, hinbox, hleft.ordered, fun r hr col hc hu => ?_⟩
  rw [sampleAt_dest, hleft.outputs r hr col hc hu]
  exact referenceSample_value hl h.launchMem r col

end Sys2Proof.Machine
end

section
/-! SUPPORT. The accesses of a started command, from its dispatch step to its end (20_memory.md R70, R71). -/

namespace Sys2Proof.Machine

open Sys2Proof

/-- An idle engine accesses nothing. -/
theorem runReads_of_idle {c : Command} {s : State} (hp : s.phase = .idle) (n : Nat) : runReads c n s = [] := by
  induction n with
  | zero => rfl
  | succ n ih => simp only [runReads, engineStep, stepReads, hp, ih, List.append_nil]

theorem runWrites_of_idle {c : Command} {s : State} (hp : s.phase = .idle) (n : Nat) : runWrites c n s = [] := by
  induction n with
  | zero => rfl
  | succ n ih => simp only [runWrites, engineStep, stepWrites, hp, ih, List.append_nil]

/-- The dispatch step accesses nothing (40_dispatch.md R121). -/
theorem runReads_of_dispatch {c : Command} {s : State} (hp : s.phase = .dispatch)
    (ho : LegalDescriptor c s → OrdinaryMemory c s) (n : Nat) :
    runReads c (n + 1) s = runReads c n (dispatchStep c s) := by
  simp only [runReads, engineStep_of_dispatch hp ho, stepReads, hp, List.nil_append]

theorem runWrites_of_dispatch {c : Command} {s : State} (hp : s.phase = .dispatch)
    (ho : LegalDescriptor c s → OrdinaryMemory c s) (n : Nat) :
    runWrites c (n + 1) s = runWrites c n (dispatchStep c s) := by
  simp only [runWrites, engineStep_of_dispatch hp ho, stepWrites, hp, List.nil_append]

/-- The bound on a run leaves enough steps for the pass after the dispatch step (40_dispatch.md R132). -/
theorem stepsLeft_of_start {c : Command} {s : State} (hx : s.cx = 0) (hy : s.cy = 0) :
    stepsLeft c { s with phase := .prime } + 1 ≤ stepBound s := by
  have hop : SameOperands s { s with phase := .prime } := sameOperands_of_eq rfl
  have hbound : stepBound s = s.width * s.height + 2 * s.width + 2 * s.height + 4 := by
    rw [stepBound]
    ring
  have hcols : s.width * (s.height + 1) = s.width * s.height + s.width := by ring
  have hrows : s.height * (s.width + 1) = s.width * s.height + s.height := by ring
  rw [hbound]
  unfold stepsLeft
  rw [hop.width, hop.height]
  cases c.dir <;> simp only [hx, hy, BitVec.ofNat_eq_ofNat, BitVec.toNat_zero, Nat.sub_zero] <;> omega

/-- What a command that completes accesses: each coordinate of its two footprints once, and no other. -/
structure AccessesOnce (c : Command) (s : State) (reads writes : List (Nat × Nat)) : Prop where
  readsNodup : reads.Nodup
  mem_reads : ∀ p, p ∈ reads ↔ p.1 < (sourcePlane c s).rows ∧ p.2 < (sourcePlane c s).cols
  writesNodup : writes.Nodup
  mem_writes : ∀ p, p ∈ writes ↔ p.1 < s.height ∧ p.2 < s.width

theorem accessesOnce_of_empty {c : Command} {s : State} (h : s.width = 0 ∨ s.height = 0) :
    AccessesOnce c s [] [] := by
  obtain ⟨hrows, hcols⟩ := sourcePlane_empty (c := c) h
  refine ⟨List.nodup_nil, fun p => ?_, List.nodup_nil, fun p => ?_⟩
  · simp [hrows]
  · simp only [List.not_mem_nil, false_iff]
    omega

/-- By the dispatch step: an empty command ends there, any other has both footprints before it. -/
theorem JustStarted.accessesOnce {i : Instr} {s : State} (h : JustStarted i s) (hl : LegalDescriptor (commandOf i) s)
    (hm : FootprintsMapped (commandOf i) s) (ho : OrdinaryMemory (commandOf i) s) :
    AccessesOnce (commandOf i) s (runReads (commandOf i) (stepBound s) s) (runWrites (commandOf i) (stepBound s) s) := by
  obtain ⟨n, hn⟩ := Nat.exists_eq_add_one.mpr (stepBound_pos s)
  rw [hn, runReads_of_dispatch h.phase fun _ => ho, runWrites_of_dispatch h.phase fun _ => ho]
  rcases dispatchStep_cases (commandOf i) s with ⟨e, he, _⟩ | ⟨_, hz, hs⟩ | ⟨_, hw, hh, hs⟩
  · exact absurd (hl.symm.trans he) nofun
  · rw [hs, runReads_of_idle rfl, runWrites_of_idle rfl]
    exact accessesOnce_of_empty hz
  · have hrun := running_of_dispatch hl ho hw hh h.cx h.cy (sourceUntouched_of_eq h.launchMem) h.acc h.noError
    have hleft := stepsLeft_of_start (c := commandOf i) h.cx h.cy
    have hpending := pending_of_start (c := commandOf i) hw hh h.cx h.cy
    obtain ⟨⟨hreads, hread⟩, hwrites, hwrite⟩ := runAccesses_running hrun (n := n) (by omega) hm
    rw [hs]
    exact ⟨hreads, fun p => (hread p).trans (hpending p).1, hwrites, fun p => (hwrite p).trans (hpending p).2⟩

/-- Settles O33. -/
theorem sourceReadOnce : Obligations.SourceReadOnce := fun _ _ h hl hm ho =>
  have hacc := h.accessesOnce hl hm ho
  ⟨hacc.readsNodup, hacc.mem_reads⟩

/-- Settles O34. -/
theorem destinationWrittenOnce : Obligations.DestinationWrittenOnce := fun _ _ h hl hm ho =>
  have hacc := h.accessesOnce hl hm ho
  ⟨hacc.writesNodup, hacc.mem_writes⟩

end Sys2Proof.Machine
end

section
/-! SUPPORT. The host's own accesses to memory: which are races, what a read sees, which are refused (20_memory.md R73,
R79; 70_reset_and_hazards.md R249, R250). -/

namespace Sys2Proof.Machine

open Sys2Proof

/-! ### The bytes of one access -/

/-- The bytes at `as` are those of one access at `a`: no footprint splits them (20_memory.md R61, R68). -/
def OneAccess (as : List Word) (a : Word) : Prop :=
  ∀ p : Plane, p.base.toNat % 2 = 0 → as.any p.holds = p.holds a

theorem oneAccess_byte (a : Word) : OneAccess [a] a := fun _ _ => by simp

theorem sampleAddr_even (i : BitVec 31) : (sampleAddr i).toNat % 2 = 0 := by
  rw [sampleAddr, BitVec.toNat_append, Nat.shiftLeft_eq]
  simp

theorem oneAccess_sample (i : BitVec 31) : OneAccess [sampleAddr i, sampleAddr i + 1] (sampleAddr i) := fun p hp => by
  rw [List.any_cons, List.any_cons, List.any_nil, p.holds_next hp (sampleAddr_even i), Bool.or_false, Bool.or_self]

/-! ### Whose footprints count -/

/-- An idle engine and one whose command is not legal have no running command (log 24). -/
theorem runningCommand_eq_none {s : State}
    (h : s.busy = false ∨ ∀ i, s.decoded = .ok i → ¬LegalDescriptor (commandOf i) s) : runningCommand s = none := by
  cases hc : runningCommand s with
  | none => rfl
  | some c =>
    obtain ⟨i, hi, rfl, hl, hb⟩ := runningCommand_some hc
    rcases h with hidle | hillegal
    · exact absurd (hb.symm.trans hidle) nofun
    · exact absurd hl (hillegal i hi)

theorem inFootprints_of_none {s : State} (h : runningCommand s = none) (a : Word) : inFootprints s a = false := by
  rw [inFootprints, h]

/-- An access meets the footprints of the running command where its first byte does. -/
theorem any_inFootprints {s : State} {c : Command} (h : runningCommand s = some c) {as : List Word} {a : Word}
    (has : OneAccess as a) : as.any (inFootprints s) = ((destPlane s).holds a || (sourcePlane c s).holds a) := by
  obtain ⟨i, _, rfl, hl, _⟩ := runningCommand_some h
  rw [← has _ (destPlane_even hl), ← has _ (sourcePlane_even hl), funext (inFootprints_eq h), Bool.eq_iff_iff]
  simp only [List.any_eq_true, Bool.or_eq_true, and_or_left, exists_or]

/-- A read of the host meets the destination of a running command, and which command that is. -/
theorem commandWriting_eq_some {s : State} {c : Command} {as : List Word} {a : Word} (has : OneAccess as a) :
    commandWriting s as = some c ↔ runningCommand s = some c ∧ (destPlane s).holds a = true := by
  rw [commandWriting, Option.filter_eq_some_iff]
  refine and_congr_right fun h => ?_
  obtain ⟨i, _, rfl, hl, _⟩ := runningCommand_some h
  rw [has _ (destPlane_even hl)]

/-! ### Writes -/

/-- A write is noted as a race exactly inside the footprints of a running legal command. -/
theorem hostNotes_hostWrite {as : List Word} {a : Word} (has : OneAccess as a) (w : HostAccess) (s : State) :
    HostNotes s (hostWrite as w s) a w := by
  have hraced : (hostWrite as w s).raced = if as.any (inFootprints s) then s.raced ++ [w] else s.raced := rfl
  refine ⟨fun i hb hd hl => ?_, fun hnone => ?_⟩
  · rw [hraced, any_inFootprints (runningCommand_eq hb hd hl) has]
    refine ⟨fun hin => ?_, fun hdest hsrc => ?_⟩
    · rw [if_pos (by rwa [Bool.or_eq_true])]
    · rw [hdest, hsrc]
      rfl
  · rw [hraced, funext (inFootprints_of_none (runningCommand_eq_none hnone)), if_neg (by simp)]

/-! ### Reads -/

/-- What the host sees while a command runs is what the accesses before its read leave in the command's order. -/
theorem maySee_memoryMeanwhile (c : Command) (s : State) : MaySee c s (memoryMeanwhile c s) :=
  ⟨Config.accessOrder s.launches, rfl⟩

/-- A read of the host looks at a memory it may see, and changes what it has read and the note of its races alone. -/
theorem hostRead_sees {as : List Word} {a : Word} (has : OneAccess as a) (look : Memory → Word) (s : State) :
    ∃ m, HostSees s a m ∧
      hostRead as look s = { s with rdata := look m, raced := (hostRead as look s).raced } := by
  rcases hostRead_cases as look s with ⟨c, hc, he⟩ | ⟨hnone, he⟩
  · obtain ⟨hrun, hdest⟩ := (commandWriting_eq_some has).mp hc
    obtain ⟨j, hj, rfl, hl, hb⟩ := runningCommand_some hrun
    refine ⟨memoryMeanwhile (commandOf j) s, ⟨fun i _ hi _ _ => ?_, fun hout => ?_⟩, by rw [he]; rfl⟩
    · obtain rfl : j = i := Except.ok.inj (hj.symm.trans hi)
      exact maySee_memoryMeanwhile _ s
    · rcases hout with hidle | hillegal | houtside
      · exact absurd (hb.symm.trans hidle) nofun
      · exact absurd hl (hillegal j hj)
      · exact absurd (hdest.symm.trans houtside) nofun
  · refine ⟨s.mem, ⟨fun i hb hi hl hdest => ?_, fun _ => rfl⟩, by rw [he]⟩
    have hsome := (commandWriting_eq_some has).mpr ⟨runningCommand_eq hb hi hl, hdest⟩
    exact absurd (hnone.symm.trans hsome) nofun

/-- Which events wait does not matter for what the host sees. -/
theorem HostSees.of_inbox {s : State} {es : List Event} {a : Word} {m : Memory}
    (h : HostSees { s with inbox := es } a m) : HostSees s a m := by
  refine ⟨fun i hb hi hl hdest => ?_, h.2⟩
  obtain ⟨o, hm⟩ := h.1 i hb hi hl hdest
  refine ⟨o, hm.trans (congrArg Progress.mem ?_)⟩
  exact (engineFrame_inbox s es).operands.progressAt rfl _ o _ _

/-! ### Refusals -/

theorem atOrdinaryMemory_refused {as : List Word} {s t : State} {a : Word} (h : as.find? s.device = some a) :
    atOrdinaryMemory as s t = .refused (.deviceAccess a) := by
  rw [atOrdinaryMemory, h]

theorem atOrdinaryMemory_byte {s t : State} {a : Word} (h : s.device a = true) :
    atOrdinaryMemory [a] s t = .refused (.deviceAccess a) :=
  atOrdinaryMemory_refused (by rw [List.find?_cons_of_pos h])

/-- A sample access at a device is refused at the first of its bytes that is the device's. -/
theorem atOrdinaryMemory_sample {s t : State} {a : Word} :
    (s.device a = true → atOrdinaryMemory [a, a + 1] s t = .refused (.deviceAccess a)) ∧
      (s.device a = false → s.device (a + 1) = true →
        atOrdinaryMemory [a, a + 1] s t = .refused (.deviceAccess (a + 1))) ∧
      (s.device a = false → s.device (a + 1) = false → atOrdinaryMemory [a, a + 1] s t = .next t) := by
  refine ⟨fun h => ?_, fun h0 h1 => ?_, fun h0 h1 => ?_⟩
  · exact atOrdinaryMemory_refused (by rw [List.find?_cons_of_pos h])
  · exact atOrdinaryMemory_refused (by rw [List.find?_cons_of_neg (by simp [h0]), List.find?_cons_of_pos h1])
  · exact atOrdinaryMemory_eq (List.forall_mem_cons.mpr ⟨h0, List.forall_mem_singleton.mpr h1⟩) t

/-! ### The accesses as steps -/

/-- A write of the host that goes on stores what it writes and notes the race. -/
theorem step_of_hostWrite {s : State} {rest : List Event} {as : List Word} {a : Word} {w : HostAccess}
    (has : OneAccess as a) (h : step s = .next (hostWrite as w { s with inbox := rest })) :
    ∃ t, step s = .next t ∧ t = { s with inbox := rest, mem := w.apply s.mem, raced := t.raced } ∧ HostNotes s t a w :=
  ⟨_, h, rfl, hostNotes_hostWrite has w { s with inbox := rest }⟩

/-- A read of the host that goes on looks at a memory it may see. -/
theorem step_of_hostRead {s : State} {rest : List Event} {as : List Word} {a : Word} {look : Memory → Word}
    (has : OneAccess as a) (h : step s = .next (hostRead as look { s with inbox := rest })) :
    ∃ m, HostSees s a m ∧ ∃ t, step s = .next t ∧ t = { s with inbox := rest, rdata := look m, raced := t.raced } := by
  obtain ⟨m, hsees, he⟩ := hostRead_sees has look { s with inbox := rest }
  exact ⟨m, hsees.of_inbox, _, h, he⟩

/-- Settles O53, by the kind of access; what a read may see of an undisturbed output is what any order leaves there. -/
theorem hostRacesAct : Obligations.HostRacesAct := by
  intro s rest
  refine ⟨fun a b hin => ?byteWrite, fun i v hin => ?sampleWrite, fun a hin => ?byteRead, fun i hin => ?sampleRead,
    fun i m hl hm r hr col hc hu => hm.undisturbed hl hr hc hu⟩
  case byteWrite =>
    have hstep := step_of_host hin
    refine ⟨fun hdev => hstep.trans (atOrdinaryMemory_byte hdev), fun hmem => ?_⟩
    exact step_of_hostWrite (oneAccess_byte a) (hstep.trans (atOrdinaryMemory_eq (List.forall_mem_singleton.mpr hmem) _))
  case byteRead =>
    have hstep := step_of_host hin
    refine ⟨fun hdev => hstep.trans (atOrdinaryMemory_byte hdev), fun hmem => ?_⟩
    exact step_of_hostRead (oneAccess_byte a) (hstep.trans (atOrdinaryMemory_eq (List.forall_mem_singleton.mpr hmem) _))
  case sampleWrite =>
    obtain ⟨hfirst, hsecond, hnext⟩ := atOrdinaryMemory_sample (s := { s with inbox := rest }) (a := sampleAddr i)
    have hstep := step_of_host hin
    refine ⟨fun hdev => hstep.trans (hfirst hdev), fun h0 hdev => hstep.trans (hsecond h0 hdev), fun h0 h1 => ?_⟩
    exact step_of_hostWrite (oneAccess_sample i) (hstep.trans (hnext h0 h1))
  case sampleRead =>
    obtain ⟨hfirst, hsecond, hnext⟩ := atOrdinaryMemory_sample (s := { s with inbox := rest }) (a := sampleAddr i)
    have hstep := step_of_host hin
    refine ⟨fun hdev => hstep.trans (hfirst hdev), fun h0 hdev => hstep.trans (hsecond h0 hdev), fun h0 h1 => ?_⟩
    exact step_of_hostRead (oneAccess_sample i) (hstep.trans (hnext h0 h1))

end Sys2Proof.Machine
end

section
/-! SUPPORT. Encoding and decoding command words: each is said once, through the command that an instruction stands for
(30_encoding.md R91 to R101). -/

namespace Sys2Proof.Machine

open Sys2Proof

/-! ### Instructions and the commands they stand for -/

theorem opcodeOf_lt (d : Dir) (n : TapCount) : opcodeOf d n < 8 := by
  cases d <;> cases n <;> decide

/-- The opcode an instruction is written with (30_encoding.md R96). -/
def opcodeOfInstr (i : Instr) : Nat := opcodeOf (commandOf i).dir (commandOf i).tapCount

theorem encode_eq (i : Instr) :
    encode i = commandWord (opcodeOfInstr i) (commandOf i).bd (commandOf i).fbits (commandOf i).round0 := by
  cases i <;> rfl

theorem wellFormed_eq (i : Instr) :
    i.wellFormed = fieldsFit (commandOf i).bd (commandOf i).fbits (commandOf i).round0 := by
  cases i <;> rfl

/-- Every command has its row in the opcode table (30_encoding.md R96). -/
theorem exists_commandOf (c : Command) : ∃ i, commandOf i = c := by
  obtain ⟨d, n, bd, fbits, round0⟩ := c
  match d, n with
  | .vertical, .six => exact ⟨.vfilt6 bd fbits round0, rfl⟩
  | .vertical, .eight => exact ⟨.vfilt8 bd fbits round0, rfl⟩
  | .vertical, .twelve => exact ⟨.vfilt12 bd fbits round0, rfl⟩
  | .horizontal, .six => exact ⟨.hfilt6 bd fbits round0, rfl⟩
  | .horizontal, .eight => exact ⟨.hfilt8 bd fbits round0, rfl⟩
  | .horizontal, .twelve => exact ⟨.hfilt12 bd fbits round0, rfl⟩

/-! ### The decoder -/

/-- The instruction a word decodes to is the one whose opcode and fields the word holds. -/
theorem decode_eq_ok_iff (w : Word) (i : Instr) :
    decode w = .ok i ↔ opcodeField w = opcodeOfInstr i ∧ bdField w = (commandOf i).bd ∧
      fbitsField w = (commandOf i).fbits ∧ round0Field w = (commandOf i).round0 := by
  constructor
  · intro h
    unfold decode at h
    split at h
    case h_7 => cases h
    all_goals
      rename_i hop
      cases h
      exact ⟨hop, rfl, rfl, rfl⟩
  · rintro ⟨hop, hbd, hfbits, hround0⟩
    unfold decode
    rw [hop, hbd, hfbits, hround0]
    cases i <;> rfl

/-- A reserved opcode is refused by name (30_encoding.md R98). -/
theorem decode_reserved {w : Word} (h : w.toNat % 4 = 3) : decode w = .error (.reservedOpcode (w.toNat % 8)) := by
  have hop : w.toNat % 8 = 3 ∨ w.toNat % 8 = 7 := by omega
  rcases hop with hop | hop <;> simp only [decode, opcodeField_eq, hop]

/-- Putting the fields of a word together again gives its 16 existing bits. -/
theorem commandWord_of_fields (w : Word) :
    commandWord (opcodeField w) (bdField w) (fbitsField w) (round0Field w) = w &&& 0xFFFF := by
  apply BitVec.eq_of_toNat_eq
  rw [toNat_lowHalf, commandWord, BitVec.toNat_ofNat, opcodeField_eq, bdField_eq, fbitsField_eq, round0Field_eq]
  omega

theorem decode_lowHalf (w : Word) : decode (w &&& 0xFFFF) = decode w :=
  decode_congr (by rw [toNat_lowHalf, Nat.mod_mod])

/-- The decoder on the fields as numbers, in a word's 16 existing bits. -/
theorem decode_of_lowHalf {w : Word} {i : Instr} (hop : w.toNat % 65536 % 8 = opcodeOfInstr i)
    (hbd : w.toNat % 65536 / 8 % 32 = (commandOf i).bd) (hfbits : w.toNat % 65536 / 256 % 16 = (commandOf i).fbits)
    (hround0 : w.toNat % 65536 / 4096 % 16 = (commandOf i).round0) : decode w = .ok i := by
  rw [← decode_lowHalf, decode_eq_ok_iff, opcodeField_eq, bdField_eq, fbitsField_eq, round0Field_eq, toNat_lowHalf]
  exact ⟨hop, hbd, hfbits, hround0⟩

/-- Settles O1: the word that `encode` puts together from fields that fit holds these fields. -/
theorem decodeUndoesEncode : Obligations.DecodeUndoesEncode := by
  intro i hfit
  rw [decode_eq_ok_iff, encode_eq]
  rw [wellFormed_eq] at hfit
  exact fields_commandWord (opcodeOf_lt _ _) hfit

/-- Settles O2: the instruction that is read has the word's own fields, each of which fits its bits. -/
theorem encodeUndoesDecode : Obligations.EncodeUndoesDecode := by
  intro w i h
  obtain ⟨hop, hbd, hfbits, hround0⟩ := (decode_eq_ok_iff w i).mp h
  rw [wellFormed_eq, encode_eq, ← hop, ← hbd, ← hfbits, ← hround0]
  exact ⟨fieldsFit_fields w, commandWord_of_fields w⟩

/-- Settles O3: a clause for each opcode that is a command's, and one for the two that are reserved. -/
theorem decoderReadsFiveFields : Obligations.DecoderReadsFiveFields := by
  refine fun w => ⟨(decode_lowHalf w).symm, ?_, ?_, ?_, ?_, ?_, ?_, fun hreserved => ?reserved⟩
  case reserved =>
    have hmod : w.toNat % 65536 % 8 = w.toNat % 8 := by omega
    rw [hmod]
    exact decode_reserved (by omega)
  all_goals exact fun hop => decode_of_lowHalf hop rfl rfl rfl

/-- Settles O4: each word is the encoding of its command. -/
theorem sampleWordsDecode : Obligations.SampleWordsDecode :=
  ⟨decodeUndoesEncode (.vfilt6 10 7 0) rfl, decodeUndoesEncode (.vfilt8 10 7 0) rfl,
    decodeUndoesEncode (.vfilt12 12 7 0) rfl, decodeUndoesEncode (.hfilt6 10 7 3) rfl,
    decodeUndoesEncode (.hfilt8 8 7 7) rfl, decodeUndoesEncode (.hfilt12 12 7 5) rfl⟩

end Sys2Proof.Machine
end

section
/-! SUPPORT. The command that `CMD` holds: loaded, checked, refused, and launched by the host's writes
(30_encoding.md R97 to R102, 40_dispatch.md R120, R122, R126). -/

namespace Sys2Proof.Machine

open Sys2Proof

/-! ### `CMD` and its check -/

/-- `CMD` keeps of a written word what the decoder reads of it (10_state.md R30). -/
theorem decoded_of_cmdBits {s : State} {w : Word} (h : s.cmd = w.extractLsb' 0 16) : s.decoded = decode w := by
  rw [State.decoded, h, zeroExtend_cmdBits, decode_lowHalf]

theorem toNat_cmdWord (s : State) : (s.cmd.zeroExtend 32).toNat = s.cmd.toNat :=
  BitVec.toNat_setWidth_of_le (by decide)

/-- The fields of the command that `CMD` holds, as numbers (30_encoding.md R91). -/
theorem fields_of_decoded {s : State} {i : Instr} (h : s.decoded = .ok i) :
    s.cmd.toNat % 4 ≠ 3 ∧ (commandOf i).bd = s.cmd.toNat / 8 % 32 ∧ (commandOf i).fbits = s.cmd.toNat / 256 % 16 ∧
      (commandOf i).round0 = s.cmd.toNat / 4096 ∧ ((commandOf i).dir = .horizontal ↔ s.cmd.toNat / 4 % 2 = 1) := by
  obtain ⟨htaps, hbd, hfbits, hround0, hdir⟩ := decode_ok h
  have hbits := s.cmd.isLt
  rw [bdField_eq, toNat_cmdWord] at hbd
  rw [fbitsField_eq, toNat_cmdWord] at hfbits
  rw [round0Field_eq, toNat_cmdWord] at hround0
  rw [toNat_cmdWord] at htaps hdir
  exact ⟨htaps, hbd, hfbits, by omega, hdir⟩

/-- `TAPS` = 0b11 is the first of the checks (40_dispatch.md R122). -/
theorem dispatchCode_of_reserved {s : State} {e : DecodeError} (h : s.decoded = .error e) : dispatchCode s = some 1 := by
  have htaps : s.cmd.toNat % 4 = 3 := by
    rw [← toNat_cmdWord]
    exact (decode_error_iff _).mp ⟨e, h⟩
  exact if_pos htaps

/-- The other five, read from the register bits, are those that the dispatch step makes of the decoded command
(40_dispatch.md R122). -/
theorem dispatchCode_of_decoded {s : State} {i : Instr} (h : s.decoded = .ok i) :
    dispatchCode s = (firstError (commandOf i) s).map errCode := by
  obtain ⟨htaps, hbd, hfbits, hround0, hdir⟩ := fields_of_decoded h
  simp only [dispatchCode, if_neg htaps, firstError, hbd, hfbits, hround0, hdir, width_eq, getLsbD_zero,
    decide_eq_true_eq, apply_ite (Option.map errCode), Option.map_some, Option.map_none, errCode]

/-- Settles O11: a reserved opcode fails the first check, a decoded command fails the others or none. -/
theorem noCheckFailsIffLegal : Obligations.NoCheckFailsIffLegal := by
  intro s
  cases hd : s.decoded with
  | error e => simp only [dispatchCode_of_reserved hd, reduceCtorEq, false_and, exists_false]
  | ok i =>
    simp only [dispatchCode_of_decoded hd, Option.map_eq_none_iff, Except.ok.injEq, exists_eq_left']
    rfl

/-- `TAPS` = 0b11 in `CMD` (30_encoding.md R98). -/
theorem decoded_reserved {s : State} (h0 : s.cmd.getLsbD 0 = true) (h1 : s.cmd.getLsbD 1 = true) :
    ∃ e, s.decoded = .error e := by
  rw [BitVec.getLsbD, Nat.testBit_eq_decide_div_mod_eq, decide_eq_true_eq] at h0 h1
  rw [State.decoded, decode_error_iff, toNat_cmdWord]
  omega

/-- An error stop at dispatch sets the flags and the code, and changes nothing else (60_exceptions.md R214). -/
theorem stoppedWith_raiseErr (e : ErrCause) (s : State) (es : List Event) :
    StoppedWith (errCode e) s (raiseErr e { s with inbox := es }) where
  idle := rfl
  notDone := rfl
  error := ⟨rfl, rfl⟩
  win := rfl
  frame := (engineFrame_inbox s es).trans (stepFrame_raiseErr e _).frame
  outside := fun _ _ => rfl

/-- Settles O7: the engine's turn finds no command in `CMD`. -/
theorem reservedOpcodeStops : Obligations.ReservedOpcodeStops := by
  intro s hp h0 h1 hnext
  have hbusy : s.phase ≠ .idle := by rw [hp]; decide
  obtain ⟨e, hd⟩ := decoded_reserved h0 h1
  have hstep : step s = .next (raiseErr .opcode (dropEngineEvent s)) := by
    rw [step_of_engineIsNext (busy_of_ne_idle hbusy) hnext, engineTurn_of_reserved hbusy hd]
  rw [dropEngineEvent_eq] at hstep
  exact ⟨_, hstep, stoppedWith_raiseErr .opcode s _, rfl⟩

/-- Settles O6: `CMD` holds the word's existing bits, and no event stands before the engine's turn. -/
theorem loadedWordRuns : Obligations.LoadedWordRuns := by
  intro s nbits w i h
  have hd : (s.withFetchWord nbits w).decoded = .ok i := (decoded_of_cmdBits rfl).trans h
  have hstep : step (s.withFetchWord nbits w) = exec i (s.withFetchWord nbits w) :=
    (step_of_none rfl).trans (engineTurn_of_decoded nofun hd)
  exact ⟨hstep, fun hacc => ⟨hd, rfl, rfl, rfl, rfl, hacc, ⟨rfl, rfl⟩, rfl⟩, nofun⟩

/-! ### A split block -/

/-- A base that lies `8q` samples on has at column `j` the address of column `8q + j` (20_memory.md R66). -/
theorem addr_shiftBase (base row : Word) (q j : Nat) :
    base + BitVec.ofNat 32 (16 * q) + 2 * (row + BitVec.ofNat 32 j) = base + 2 * (row + BitVec.ofNat 32 (8 * q + j)) := by
  bv_omega

/-- The window base moves with `SRC` (40_dispatch.md R127). -/
theorem windowBase_shiftSrc (c : Command) (s : State) (k dst : Word) :
    windowBase c { s with src := s.src + k, dst := dst } = windowBase c s + k := by
  unfold windowBase
  cases c.dir <;> exact (sub_add_eq_add_sub ..).symm

/-- Settles O46: both bases move by `8q` samples, and neither pitch changes. -/
theorem splitBlockSameAddresses : Obligations.SplitBlockSameAddresses := by
  intro c s q i j
  refine ⟨?_, addr_shiftBase s.dst (BitVec.ofNat 32 i * s.dpitch) q j⟩
  rw [sourceAddr_eq, sourceAddr_eq, windowBase_shiftSrc]
  exact addr_shiftBase (windowBase c s) (BitVec.ofNat 32 i * s.spitch) q j

/-! ### Operand writes to an idle engine -/

/-- The offsets at which a write goes to a descriptor or tap register, to a reserved one or to `ID`. -/
def operandOffset (off : Nat) : Bool := portOffset off && off != 0x04 && off != 0x08

/-- The host's acts that write each word at its offset. -/
def regWrites (ws : List (Nat × Word)) : List Event := ws.map fun w => .host (.regWrite w.1 w.2)

/-- What these writes leave, where the engine is idle. -/
def writeDescriptors (ws : List (Nat × Word)) (s : State) : State :=
  ws.foldl (fun t w => writeDescriptor w.1 w.2 t) s

theorem writeDescriptor_inbox (off : Nat) (v : Word) (s : State) (es : List Event) :
    writeDescriptor off v { s with inbox := es } = { writeDescriptor off v s with inbox := es } := by
  simp only [writeDescriptor]
  split_ifs
  case neg => cases tapIndex off <;> rfl
  all_goals rfl

theorem step_writeDescriptor {s : State} {off : Nat} (v : Word) (rest : List Event) (hp : s.phase = .idle)
    (hr : s.resetLine = false) (hoff : operandOffset off = true) :
    step { s with inbox := .host (.regWrite off v) :: rest } = .next { writeDescriptor off v s with inbox := rest } := by
  simp only [operandOffset, Bool.and_eq_true, bne_iff_ne] at hoff
  obtain ⟨⟨hport, h4⟩, h8⟩ := hoff
  rw [step_of_host rfl, hostAct_regWrite hport, ← writeDescriptor_inbox]
  exact congrArg _ (writeRegister_idle (s := { s with inbox := rest }) hr hp h4 h8 v)

/-- An idle engine takes operand writes one after the other (10_state.md R21, R25). -/
theorem runSteps_regWrites (n : Nat) (rest : List Event) : ∀ (ws : List (Nat × Word)) {s : State}, s.phase = .idle →
    s.resetLine = false → ws.all (fun w => operandOffset w.1) = true →
      runSteps (ws.length + n) { s with inbox := regWrites ws ++ rest } =
        runSteps n { writeDescriptors ws s with inbox := rest }
  | [], s, _, _, _ => by rw [List.length_nil, Nat.zero_add]; rfl
  | w :: ws, s, hp, hr, hoff => by
    obtain ⟨hw, hws⟩ := Bool.and_eq_true_iff.mp hoff
    have hp' : (writeDescriptor w.1 w.2 s).phase = .idle := by rw [writeDescriptor_eq, hp]
    have hr' : (writeDescriptor w.1 w.2 s).resetLine = false := by rw [writeDescriptor_eq, hr]
    rw [List.length_cons, Nat.add_right_comm]
    exact (runSteps_succ (step_writeDescriptor w.2 _ hp hr hw)).trans (runSteps_regWrites n rest ws hp' hr' hws)

/-! ### A command line -/

/-- A number is written as the word that holds it. -/
theorem regWriteEvent_natCast (off v : Nat) : regWriteEvent off v = .host (.regWrite off (BitVec.ofNat 32 v)) := by
  rw [regWriteEvent, BitVec.ofInt_natCast]

theorem startEvent_bits (ie : Bool) :
    (BitVec.ofInt 32 (1 + 2 * ie.toNat)).getLsbD 0 = true ∧ (BitVec.ofInt 32 (1 + 2 * ie.toNat)).getLsbD 1 = ie := by
  cases ie <;> decide

/-- The operands of a command line (30_encoding.md R101). -/
structure CommandLine where
  command : Command
  src : Nat
  spitch : Nat
  dst : Nat
  dpitch : Nat
  width : Nat
  height : Nat

namespace CommandLine

variable (l : CommandLine)

/-- The command word of a line. -/
def word : Word := commandWord (opcodeOf l.command.dir l.command.tapCount) l.command.bd l.command.fbits l.command.round0

/-- The six operand writes of a line, in order. -/
def writes : List (Nat × Word) :=
  [(0x0C, l.word), (0x10, BitVec.ofNat 32 l.src), (0x14, BitVec.ofNat 32 l.spitch), (0x18, BitVec.ofNat 32 l.dst),
    (0x1C, BitVec.ofNat 32 l.dpitch), (0x20, BitVec.ofNat 32 (l.width + 65536 * l.height))]

/-- The seven writes of a line as the assembler gives them. -/
def events (ie : Bool) : List Event :=
  commandEvents ie l.command.dir l.command.tapCount l.command.bd l.command.fbits l.command.round0 l.src l.spitch l.dst
    l.dpitch l.width l.height

/-- The registers of an idle engine after the six operand writes. -/
def loaded (s : State) : State :=
  { s with
    cmd := l.word.extractLsb' 0 16
    src := BitVec.ofNat 32 l.src
    spitch := BitVec.ofNat 32 l.spitch
    dst := BitVec.ofNat 32 l.dst
    dpitch := BitVec.ofNat 32 l.dpitch
    size := BitVec.ofNat 32 (l.width + 65536 * l.height) }

theorem writeDescriptors_writes (s : State) : writeDescriptors l.writes s = l.loaded s := rfl

/-- A line is its operand writes, then `START` (30_encoding.md R101). -/
theorem events_eq (ie : Bool) : l.events ie = regWrites l.writes ++ [startEvent ie] := by
  have hcmd := regWriteEvent_natCast 0x0C
    (opcodeOf l.command.dir l.command.tapCount + 8 * l.command.bd + 256 * l.command.fbits + 4096 * l.command.round0)
  have hsize := regWriteEvent_natCast 0x20 (l.width + 65536 * l.height)
  push_cast at hcmd hsize
  simp only [events, commandEvents, hcmd, hsize, regWriteEvent_natCast]
  rfl

/-- `CMD` holds the command of the line. -/
theorem decode_word (hfit : fieldsFit l.command.bd l.command.fbits l.command.round0 = true) :
    ∃ i, decode l.word = .ok i ∧ commandOf i = l.command := by
  obtain ⟨i, hi⟩ := exists_commandOf l.command
  have hword : l.word = encode i := by
    rw [encode_eq, opcodeOfInstr, hi]
    rfl
  rw [hword]
  exact ⟨i, decodeUndoesEncode i (by rw [wellFormed_eq, hi, hfit]), hi⟩

/-- `SIZE` holds width and height side by side (10_state.md R35). -/
theorem size_loaded (s : State) (hw : l.width < 65536) (hh : l.height < 65536) :
    (l.loaded s).width = l.width ∧ (l.loaded s).height = l.height := by
  have hsize : (l.loaded s).size.toNat = l.width + 65536 * l.height := by
    rw [loaded, BitVec.toNat_ofNat]
    omega
  rw [width_eq, height_eq, hsize]
  omega

/-- The writes of a line load its operands and start its command (30_encoding.md R101, 40_dispatch.md R120). -/
theorem runSteps_events {ie : Bool} {s : State} {rest : List Event} (hp : s.phase = .idle) (hr : s.resetLine = false)
    (hin : s.inbox = l.events ie ++ rest) :
    runSteps 7 s = .next (acceptStart { l.loaded s with ie := ie, inbox := rest }) := by
  obtain ⟨hstart, hie⟩ := startEvent_bits ie
  have hinbox : s.inbox = regWrites l.writes ++ startEvent ie :: rest := by
    rw [hin, l.events_eq, List.append_assoc, List.singleton_append]
  have hoff : l.writes.all (fun w => operandOffset w.1) = true := by
    simp [writes, operandOffset, portOffset]
  have hload := runSteps_regWrites 1 (startEvent ie :: rest) l.writes hp hr hoff
  rw [← hinbox, l.writeDescriptors_writes] at hload
  have hlast := (startFollowsItsRule.1 { l.loaded s with inbox := startEvent ie :: rest } _ rest rfl hr).1 hstart hp
  rw [hie] at hlast
  exact hload.trans (runSteps_succ hlast)

end CommandLine

/-- Settles O54: the state after the seven writes, read register by register. -/
theorem commandLineStarts : Obligations.CommandLineStarts := by
  intro ie d n bd fbits round0 src spitch dst dpitch w h s rest hp hr hin hbd hfbits hround0 hw hh hsrc hspitch hdst
    hdpitch
  let l : CommandLine := ⟨⟨d, n, bd, fbits, round0⟩, src, spitch, dst, dpitch, w, h⟩
  have hrun : runSteps 7 s = .next (acceptStart { l.loaded s with ie := ie, inbox := rest }) :=
    l.runSteps_events hp hr hin
  obtain ⟨i, hdecode, hcommand⟩ := l.decode_word (by simp [fieldsFit, l, hbd, hfbits, hround0])
  obtain ⟨hwidth, hheight⟩ := l.size_loaded s hw hh
  have hheld : ∀ {v : Nat}, v < 2 ^ 32 → (BitVec.ofNat 32 v).toNat = v := Nat.mod_eq_of_lt
  exact ⟨_, i, hrun, (decoded_of_cmdBits rfl).trans hdecode, hcommand, hheld hsrc, hheld hspitch, hheld hdst,
    hheld hdpitch, hwidth, hheight, rfl, rfl, rfl, rfl, rfl, rfl, rfl, rfl, rfl, rfl, rfl⟩

end Sys2Proof.Machine
end

section
/-! SUPPORT. `ROUND0` in a vertical command: it stands in the shift check and in the value of an output, and a vertical
command uses it in neither (30_encoding.md R99). -/

namespace Sys2Proof.Machine

open Sys2Proof

/-- The command with another `ROUND0`. -/
def withRound0 (c : Command) (r : Nat) : Command := { c with round0 := r }

/-- Where a window sample lies and what is read there do not depend on `ROUND0`. -/
theorem fetchSample_withRound0 (c : Command) (r : Nat) (s : State) (i j : Nat) :
    fetchSample (withRound0 c r) s i j = fetchSample c s i j := rfl

theorem loadWindow_withRound0 (c : Command) (r : Nat) (s : State) : ∀ (loads : List Load) (w : Window),
    loadWindow (withRound0 c r) s loads w = loadWindow c s loads w
  | [], _ => rfl
  | ld :: rest, w => by
    rw [loadWindow, loadWindow, fetchSample_withRound0]
    cases fetchSample c s ld.row ld.col with
    | none => rfl
    | some v => exact loadWindow_withRound0 c r s rest _

theorem primeStep_withRound0 (c : Command) (r : Nat) (s : State) : primeStep (withRound0 c r) s = primeStep c s := by
  unfold primeStep
  simp only [loadWindow_withRound0]
  rfl

section Vertical

variable {c : Command} (hd : c.dir = .vertical) (r : Nat)

include hd

/-- The shift check is the horizontal commands' (40_dispatch.md R122). -/
theorem firstError_withRound0 (s : State) : firstError (withRound0 c r) s = firstError c s := by
  simp only [firstError, withRound0, hd, reduceCtorEq, false_and, if_false]

/-- One rounding shift, by `FBITS` (41_vertical.md R151). -/
theorem outputSample_withRound0 (sum : Int) : outputSample (withRound0 c r) sum = outputSample c sum := by
  simp only [outputSample, roundAndClamp, withRound0, hd]

theorem outputFrom_withRound0 (s : State) : outputFrom (withRound0 c r) s = outputFrom c s := by
  funext got row col
  exact outputSample_withRound0 hd r _

theorem progressAt_withRound0 (s : State) (o : AccessOrder) (written : Nat → Nat → Bool) : ∀ n : Nat,
    progressAt (withRound0 c r) s o written n = progressAt c s o written n
  | 0 => rfl
  | n + 1 => by
    rw [progressAt, progressAt, progressAt_withRound0 s o written n]
    unfold tick writeOutputsAt
    rw [outputFrom_withRound0 hd]
    rfl

theorem orderedMemory_withRound0 (s : State) : orderedMemory (withRound0 c r) s = orderedMemory c s := by
  funext o written
  exact congrArg Progress.mem (progressAt_withRound0 hd r s o written (lastTick c s o))

theorem settleOutputs_withRound0 (s : State) : settleOutputs (withRound0 c r) s = settleOutputs c s := by
  unfold settleOutputs
  rw [orderedMemory_withRound0 hd]
  rfl

theorem afterAccesses_withRound0 (s : State) (res : Except Stop State) :
    afterAccesses (withRound0 c r) s res = afterAccesses c s res := by
  have hmem : stoppedMemory (withRound0 c r) s = stoppedMemory c s := by
    unfold stoppedMemory
    rw [orderedMemory_withRound0 hd]
  unfold afterAccesses
  rw [hmem]

theorem writeOutput_withRound0 (s : State) (out : Output) : writeOutput (withRound0 c r) s out = writeOutput c s out := by
  unfold writeOutput
  simp only [outputSample_withRound0 hd]
  rfl

theorem writeOutputs_withRound0 : ∀ (outs : List Output) (s : State),
    writeOutputs (withRound0 c r) outs s = writeOutputs c outs s
  | [], _ => rfl
  | out :: rest, s => by
    rw [writeOutputs, writeOutputs, writeOutput_withRound0 hd]
    cases writeOutput c s out with
    | error e => rfl
    | ok t => exact writeOutputs_withRound0 rest t

theorem tileStep_withRound0 (s : State) : tileStep (withRound0 c r) s = tileStep c s := by
  unfold tileStep
  simp only [loadWindow_withRound0, writeOutputs_withRound0 hd]
  rfl

theorem launchesAtDevice_withRound0 (s : State) : launchesAtDevice (withRound0 c r) s = launchesAtDevice c s := by
  unfold launchesAtDevice
  rw [firstError_withRound0 hd]
  rfl

theorem dispatchStep_withRound0 (s : State) : dispatchStep (withRound0 c r) s = dispatchStep c s := by
  unfold dispatchStep
  rw [firstError_withRound0 hd]

/-- No engine step of a vertical command depends on `ROUND0`. -/
theorem engineStep_withRound0 (s : State) : engineStep (withRound0 c r) s = engineStep c s := by
  unfold engineStep
  rw [launchesAtDevice_withRound0 hd, dispatchStep_withRound0 hd, primeStep_withRound0, tileStep_withRound0 hd,
    settleOutputs_withRound0 hd, afterAccesses_withRound0 hd, afterAccesses_withRound0 hd]

theorem runEngine_withRound0 : ∀ (n : Nat) (s : State), runEngine (withRound0 c r) n s = runEngine c n s
  | 0, _ => rfl
  | n + 1, s => by
    rw [runEngine, runEngine, engineStep_withRound0 hd]
    simp only [runEngine_withRound0 n]

theorem runCommand_withRound0 (s : State) : runCommand (withRound0 c r) s = runCommand c s := by
  unfold runCommand
  simp only [engineStep_withRound0 hd, runEngine_withRound0 hd]

end Vertical

/-- Settles O26: each meaning is that of its command, and the two commands differ in `ROUND0` alone. -/
theorem verticalIgnoresRound0 : Obligations.VerticalIgnoresRound0 := by
  intro bd fbits r r' s
  have key : ∀ n : TapCount,
      runCommand ⟨.vertical, n, bd, fbits, r⟩ s = runCommand ⟨.vertical, n, bd, fbits, r'⟩ s := fun n =>
    runCommand_withRound0 (c := ⟨.vertical, n, bd, fbits, r'⟩) rfl r s
  exact ⟨key .six, key .eight, key .twelve⟩

end Sys2Proof.Machine
end

section
/-! SUPPORT. The dispatch step said once per verdict: a check fails, the command is empty, or the pass begins
(40_dispatch.md R121, R122, R125). -/

namespace Sys2Proof.Machine

open Sys2Proof

theorem dispatchStep_of_firstError {c : Command} {s : State} {e : ErrCause} (h : firstError c s = some e) :
    dispatchStep c s = raiseErr e s := by
  rw [dispatchStep, h]

theorem dispatchStep_of_empty {c : Command} {s : State} (h : LegalDescriptor c s) (hz : s.width = 0 ∨ s.height = 0) :
    dispatchStep c s = completeCommand s := by
  rw [dispatchStep, h]
  exact if_pos hz

theorem dispatchStep_of_outputs {c : Command} {s : State} (h : LegalDescriptor c s) (hw : 0 < s.width)
    (hh : 0 < s.height) : dispatchStep c s = { s with phase := .prime } := by
  rw [dispatchStep, h]
  exact if_neg (by omega)

/-- A command whose descriptor fails a check stops in its dispatch step, at a device or not. -/
theorem exec_of_firstError {i : Instr} {s : State} {e : ErrCause} (hp : s.phase = .dispatch)
    (h : firstError (commandOf i) s = some e) : exec i s = .next (raiseErr e (dropEngineEvent s)) := by
  have hstep : dispatchStep (commandOf i) (dropEngineEvent s) = raiseErr e (dropEngineEvent s) := by
    rw [dropEngineEvent_eq]
    exact dispatchStep_of_firstError h
  have hillegal : ¬LegalDescriptor (commandOf i) s := fun hl => absurd (hl.symm.trans h) nofun
  rw [exec_of_dispatch hp (fun hl => absurd hl hillegal) (by rw [hstep]; rfl), hstep]

/-- A legal command without outputs completes in its dispatch step. -/
theorem exec_of_empty {i : Instr} {s : State} (hp : s.phase = .dispatch) (hl : LegalDescriptor (commandOf i) s)
    (hz : s.width = 0 ∨ s.height = 0) : exec i s = .next (completeCommand (dropEngineEvent s)) := by
  have hstep : dispatchStep (commandOf i) (dropEngineEvent s) = completeCommand (dropEngineEvent s) := by
    rw [dropEngineEvent_eq]
    exact dispatchStep_of_empty hl hz
  rw [exec_of_dispatch hp (fun _ => ordinaryMemory_of_empty hz) (by rw [hstep]; rfl), hstep]

/-- The check that `dispatchCode` finds failing is the one on which the machine's step stops: the opcode's before the
command is decoded, the others in the dispatch step of the decoded command. -/
theorem step_of_dispatchCode {s : State} {code : BitVec 4} (hp : s.phase = .dispatch) (hnext : EngineIsNext s)
    (h : dispatchCode s = some code) : ∃ e, errCode e = code ∧ step s = .next (raiseErr e (dropEngineEvent s)) := by
  have hbusy : s.phase ≠ .idle := by rw [hp]; decide
  have hturn := step_of_engineIsNext (busy_of_ne_idle hbusy) hnext
  cases hd : s.decoded with
  | error e =>
    rw [dispatchCode_of_reserved hd] at h
    exact ⟨.opcode, Option.some.inj h, hturn.trans (engineTurn_of_reserved hbusy hd)⟩
  | ok i =>
    rw [dispatchCode_of_decoded hd] at h
    obtain ⟨e, he, hcode⟩ := Option.map_eq_some_iff.mp h
    exact ⟨e, hcode, hturn.trans ((engineTurn_of_decoded hbusy hd).trans (exec_of_firstError hp he))⟩

/-- Settles O10: the step is the error stop of the check that fails. -/
theorem legalityChecksInOrder : Obligations.LegalityChecksInOrder := by
  intro s code hp hnext h
  obtain ⟨e, rfl, hstep⟩ := step_of_dispatchCode hp hnext h
  rw [dropEngineEvent_eq] at hstep
  exact ⟨_, hstep, stoppedWith_raiseErr e s _, rfl, rfl, rfl, rfl⟩

/-- Settles O12: in ordinary memory the launch is not refused, and no check fails. -/
theorem dispatchHandsOver : Obligations.DispatchHandsOver := by
  intro i s rest hp hin hl ho hw hh
  rw [exec_eq_runCommand, runCommand_of_engine hin, engineStep_of_dispatch (s := { s with inbox := rest }) hp fun _ => ho,
    dispatchStep_of_outputs (s := { s with inbox := rest }) hl hw hh]

/-- Settles O13: the completion is made in the dispatch step, which makes no access. -/
theorem zeroDimensionsComplete : Obligations.ZeroDimensionsComplete := by
  intro i s h hl hz
  have hexec := exec_of_empty h.phase hl hz
  have hdrop := dropEngineEvent_eq s
  generalize (dropEngineEvent s).inbox = es at hdrop ⊢
  rw [hdrop] at hexec
  refine ⟨_, hexec, ?_, rfl, rfl⟩
  exact ⟨rfl, rfl, h.noError, rfl, h.acc, (engineFrame_inbox s es).trans (stepFrame_completeCommand _).frame,
    OutsideDestSame.of_mem rfl⟩

end Sys2Proof.Machine
end

section
/-! SUPPORT. How a started command ends, and what it leaves in the rules' own formulas (40_dispatch.md R131, R132, R136;
41_vertical.md R155 to R157; 42_horizontal.md R175 to R177). -/

namespace Sys2Proof.Machine

open Sys2Proof

/-! ### The two ends -/

theorem errCode_ne_zero (e : ErrCause) : errCode e ≠ 0 := by
  cases e <;> decide

/-- Every end of a started command that is not refused: complete, legal and with its outputs, or stopped on an error. -/
theorem JustStarted.ends {i : Instr} {s : State} (h : JustStarted i s) (ha : RunsToEnd s)
    (ho : LegalDescriptor (commandOf i) s → OrdinaryMemory (commandOf i) s) :
    ∃ t, exec i s = .next t ∧
      ((LegalDescriptor (commandOf i) s ∧ Completed s t ∧ LeftComplete (commandOf i) s t) ∨
        ∃ e, StoppedWith (errCode e) s t) := by
  rcases exec_started h ha ho with
    ⟨e, _, hexec⟩ | ⟨hl, hz, hexec⟩ | ⟨hl, _, _, u, t, hexec, hu, hframe, hout, hstep, hend, _⟩
  · exact ⟨_, hexec, Or.inr ⟨e, stoppedWith_raiseErr e s s.inbox⟩⟩
  · exact ⟨_, hexec, Or.inl ⟨hl, completed_of_empty h hz⟩⟩
  · cases hend with
    | completed idle done flags win acc mem was =>
      obtain ⟨hdone, _, hleft⟩ := completed_of_ended hu hframe hout hstep idle done flags win acc mem was
      exact ⟨t, hexec, Or.inl ⟨hl, hdone, hleft⟩⟩
    | stopped busErr _ => exact ⟨t, hexec, Or.inr ⟨.bus, (stopped_of_ended hu hframe hout hstep busErr).1⟩⟩

/-- Settles O15: a completion sets `DONE` alone, an error stop `ERR` alone and a code that is not 0. -/
theorem startedCommandEnds : Obligations.StartedCommandEnds := by
  intro i s h ha ho
  obtain ⟨t, hexec, ⟨_, hdone, _⟩ | ⟨e, hstop⟩⟩ := h.ends ha ho
  · exact ⟨t, hexec, hdone.idle, hdone.frame, hdone.outside, Or.inl ⟨hdone.done, hdone.noError⟩⟩
  · obtain ⟨herr, hcode⟩ := hstop.error
    exact ⟨t, hexec, hstop.idle, hstop.frame, hstop.outside,
      Or.inr ⟨hstop.notDone, herr, hcode ▸ errCode_ne_zero e⟩⟩

/-! ### The outputs -/

/-- A legal launch whose step goes on is in ordinary memory (20_memory.md R73). -/
theorem ordinary_of_exec_next {i : Instr} {s t : State} (hp : s.phase = .dispatch) (ht : exec i s = .next t)
    (hl : LegalDescriptor (commandOf i) s) : OrdinaryMemory (commandOf i) s := by
  by_contra ho
  have hrefused := (onlyDeviceLaunchesRefused i s .deviceLaunch).mpr ⟨rfl, hp, hl, ho⟩
  exact absurd (ht.symm.trans hrefused) nofun

theorem JustStarted.uncontested {i : Instr} {s : State} (h : JustStarted i s) (ha : NoAlias (commandOf i) s)
    (hd : DestDistinct s) : Uncontested (commandOf i) s := by
  refine ⟨fun w hw => ?_, ha, hd⟩
  rw [h.raced] at hw
  cases hw

/-- What a completed command leaves where no order of its accesses can show is `REFV` or `REFH` in every output. -/
theorem LeftComplete.outputsAre {c : Command} {s t : State} (h : LeftComplete c s t) (hl : LegalDescriptor c s)
    (hm : s.launchMem = s.mem) (hu : Uncontested c s) : OutputsAre s t (commandValue c s) := by
  intro r hr col hc
  rw [sampleAt_dest, h.outputs r hr col hc (hu.undisturbed hr hc)]
  exact referenceSample_value hl hm r col

/-- Settles O19: an end with `DONE` is a completion. -/
theorem memoryMeetsReference : Obligations.MemoryMeetsReference := by
  intro i s t h ha hna hd ht hdone
  obtain ⟨u, hu, hend⟩ := h.ends ha (ordinary_of_exec_next h.phase ht)
  obtain rfl := Host.Outcome.next.inj (ht.symm.trans hu)
  rcases hend with ⟨hl, _, hleft⟩ | ⟨e, hstop⟩
  · exact ⟨hleft.outside, hleft.outputsAre hl h.launchMem (h.uncontested hna hd)⟩
  · exact absurd (hdone.symm.trans hstop.notDone) nofun

/-- A launch completes with every output as the rules say. -/
theorem Launch.outputs {i : Instr} {s : State} (h : Launch i s) :
    ∃ t, exec i s = .next t ∧ Completed s t ∧ t.inbox = s.inbox ∧ OutputsAre s t (commandValue (commandOf i) s) := by
  obtain ⟨t, hexec, hdone, hinbox, hleft⟩ := h.started.completes h.alone h.legal h.mapped h.ordinary
  exact ⟨t, hexec, hdone, hinbox, hleft.outputsAre h.legal h.started.launchMem h.uncontested⟩

/-- Settles O17: the centring offset is 2, 3 or 5 rows of two-byte samples. -/
theorem verticalCommandsComplete : Obligations.VerticalCommandsComplete := by
  intro bd fbits round0 s
  obtain ⟨h6, h8, h12⟩ := twice_offset
  rw [← h6, ← h8, ← h12]
  exact ⟨Launch.outputs, Launch.outputs, Launch.outputs⟩

/-- Settles O18: the centring offset is 2, 3 or 5 columns of two-byte samples. -/
theorem horizontalCommandsComplete : Obligations.HorizontalCommandsComplete := by
  intro bd fbits round0 s
  obtain ⟨h6, h8, h12⟩ := twice_offset
  rw [← h6, ← h8, ← h12]
  exact ⟨Launch.outputs, Launch.outputs, Launch.outputs⟩

/-! ### The centred tap -/

/-- The centring offset is the index of a tap (30_encoding.md R94). -/
theorem offsetOf_lt (c : Command) : offsetOf c < tapsOf c := by
  have := tapsOf_bounds c
  unfold offsetOf
  omega

/-- `off` rows below the window base of a vertical command lies `SRC` (40_dispatch.md R127). -/
theorem sourceAddr_centre_vertical {c : Command} (hd : c.dir = .vertical) (s : State) (r col : Nat) :
    sourceAddr c s (r + offsetOf c) col = s.src + 2 * (BitVec.ofNat 32 r * s.spitch + BitVec.ofNat 32 col) := by
  rw [sourceAddr_eq, BitVec.ofNat_add]
  simp only [windowBase, hd]
  ring

/-- `off` columns right of the window base of a horizontal command lies `SRC` (40_dispatch.md R127). -/
theorem sourceAddr_centre_horizontal {c : Command} (hd : c.dir = .horizontal) (s : State) (r col : Nat) :
    sourceAddr c s r (col + offsetOf c) = s.src + 2 * (BitVec.ofNat 32 r * s.spitch + BitVec.ofNat 32 col) := by
  rw [sourceAddr_eq, BitVec.ofNat_add]
  simp only [windowBase, hd]
  ring

/-- Settles O42: of the sum over the taps the centred one alone is left, and its sample is the co-sited one. -/
theorem kernelIsCentred : Obligations.KernelIsCentred := by
  refine fun c s r col => ⟨fun hd => sourceAddr_centre_vertical hd s r col,
    fun hd => sourceAddr_centre_horizontal hd s r col,
    fun x (htap : ∀ k < tapsOf c, tapValue s k = if k = offsetOf c then x else 0) => ?_⟩
  rw [supportCoords_map c (launchSample c s), exactSum_kernel,
    Finset.sum_eq_single_of_mem (offsetOf c) (Finset.mem_range.mpr (offsetOf_lt c)) fun k hk hne => ?others,
    htap _ (offsetOf_lt c), if_pos rfl]
  case others => rw [htap k (Finset.mem_range.mp hk), if_neg hne, zero_mul]
  cases hd : c.dir with
  | vertical => simp only [launchSample, sourceAddr_centre_vertical hd, sampleAt]
  | horizontal => simp only [launchSample, sourceAddr_centre_horizontal hd, sampleAt]

end Sys2Proof.Machine
end

section
/-! SUPPORT. A tile as a step of the engine: what it writes, and where it leaves the window and the cursor
(41_vertical.md R153, 42_horizontal.md R173, 40_dispatch.md R128, R129, R133). -/

namespace Sys2Proof.Machine

open Sys2Proof

/-! ### The shape of a tile -/

theorem tileHeight_eq (s : State) : tileHeight s = min 4 (s.height - s.cy.toNat) := by
  unfold tileHeight
  split <;> omega

theorem stripWidth_eq (s : State) : stripWidth s = if s.width ≤ 4 then s.width else 8 := by
  simp only [stripWidth, State.narrow, decide_eq_true_eq]

theorem tileWidth_eq (s : State) : tileWidth s = if s.width ≤ 4 then s.width else 8 := by
  simp only [tileWidth, State.narrow, decide_eq_true_eq]

theorem stripHeight_eq (s : State) : stripHeight s = if s.width ≤ 4 then min 2 (s.height - s.cy.toNat) else 1 := by
  simp only [stripHeight, State.narrow, decide_eq_true_eq]

theorem narrow_eq_false {s : State} : s.narrow = false ↔ 4 < s.width := by
  simp only [State.narrow, decide_eq_false_iff_not, not_le]

/-- How many rows of outputs a tile has (40_dispatch.md R124). -/
def tileRows (c : Command) (s : State) : Nat :=
  match c.dir with
  | .vertical => tileHeight s
  | .horizontal => stripHeight s

/-- How many columns of outputs a tile has (40_dispatch.md R124). -/
def tileCols (c : Command) (s : State) : Nat :=
  match c.dir with
  | .vertical => stripWidth s
  | .horizontal => tileWidth s

theorem tileOutputs_mem_iff (c : Command) (s : State) (r col : Nat) :
    (∃ o ∈ tileOutputs c s, o.row = r ∧ o.col = col) ↔
      (s.cy.toNat ≤ r ∧ r < s.cy.toNat + tileRows c s) ∧ s.cx.toNat ≤ col ∧ col < s.cx.toNat + tileCols c s := by
  rw [tileOutputs_mem]
  unfold tileRows tileCols
  cases c.dir <;> rfl

/-! ### The step -/

theorem engineStep_of_tileStep {c : Command} {s t : State} (hp : s.phase = .tile) (h : tileStep c s = .ok t) :
    engineStep c s = .next t := by
  rw [engineStep_of_tile hp, h, afterAccesses]

/-- What a tile that does not fail owes: the outputs of its rectangle, and nothing else. -/
theorem tileDone_tiled {c : Command} {s : State} (h : PassInv c s) (hp : s.phase = .tile) (w : Window) :
    TileDone c s (tiled c s w) s.inbox (tileRows c s) (tileCols c s) := by
  have hin : ∀ o ∈ tileOutputs c s, o.row < s.height ∧ o.col < s.width := fun o ho => by
    obtain ⟨_, _, hrow, hcol, _⟩ := tileOutputs_coords (tileFits_of_passInv h hp) ho
    exact ⟨hrow, hcol⟩
  have hframe : StepFrame s (tiled c s w) := stepFrame_mk (tiled_eq c s w)
  have hmem : (tiled c s w).mem = outputsMemory c s (tileOutputs c s) s.mem := by rw [tiled_eq]
  refine ⟨hframe.frame, hframe.inbox, ?_, ?_, fun hu r col hr hr' hc hc' => ?_, fun a ha => ?_⟩
  · rw [tiled_eq]
    exact ⟨rfl, rfl, rfl⟩
  · rw [tiled_eq]
  · obtain ⟨_, _, hdistinct⟩ := hu
    have hout := (tileOutputs_mem_iff c s r col).mpr ⟨⟨hr, hr'⟩, hc, hc'⟩
    obtain ⟨o, ho, rfl, rfl⟩ := hout
    rw [hmem, readSample_outputsMemory h.legal hdistinct (hin o ho).1 (hin o ho).2 hin, if_pos ⟨o, ho, rfl, rfl⟩]
  · rw [hmem]
    refine readByte_outputsMemory_other fun o ho => ?_
    obtain ⟨⟨hr, hr'⟩, hc, hc'⟩ := (tileOutputs_mem_iff c s o.row o.col).mp ⟨o, ho, rfl, rfl⟩
    exact ha o.row o.col hr hr' hc hc'

/-- The event that let the engine move is no part of what a tile owes. -/
theorem TileDone.of_inbox {c : Command} {s t : State} {es rest : List Event} {rows cols : Nat}
    (h : TileDone c { s with inbox := es } t rest rows cols) : TileDone c s t rest rows cols :=
  ⟨(engineFrame_inbox s es).trans h.frame, h.inbox, h.flags, h.acc, h.written, h.others⟩

/-- A tile step of the machine whose addresses answer, in either direction. -/
theorem Inv.exec_tile {i : Instr} {s : State} {rest : List Event} (h : Inv s) (hd : s.decoded = .ok i)
    (hp : s.phase = .tile) (hin : s.inbox = .engine :: rest) (hm : FootprintsMapped (commandOf i) s) :
    ∃ t, exec i s = .next t ∧ TileDone (commandOf i) s t rest (tileRows (commandOf i) s) (tileCols (commandOf i) s) ∧
      NextCursor (commandOf i) s t ∧ (t.phase = .tile → WindowHolds (commandOf i) t) := by
  have hpass : PassInv (commandOf i) { s with inbox := rest } :=
    (h.inbox rest).passInv ((running_iff s).mpr (Or.inr (Or.inl hp))) hd
  obtain ⟨w, hok, _, hnext⟩ := tileStep_mapped hpass hp h.acc hm
  refine ⟨_, ?_, (tileDone_tiled hpass hp w).of_inbox, nextCursor_tiled hpass hp w, hnext.window⟩
  rw [exec_eq_runCommand, runCommand_of_engine hin]
  exact engineStep_of_tileStep hp hok

/-- Settles O31, by where a vertical cursor goes next: down the strip, to the next strip, or to the completion. -/
theorem verticalTileStep : Obligations.VerticalTileStep := by
  intro i s rest hinv hd hdir hp hin hm
  obtain ⟨t, hexec, hdone, hnext, hwin⟩ := hinv.exec_tile hd hp hin hm
  simp only [tileRows, tileCols, NextCursor, hdir] at hdone hnext
  rw [tileHeight_eq, stripWidth_eq] at hdone
  rw [tileHeight_eq, stripWidth_eq, narrow_eq_false] at hnext
  refine ⟨t, hexec, hdone, ?_⟩
  rcases hnext with ⟨hlt, hphase, hcx, hcy⟩ | ⟨hend, hphase, hwide, hcx, hmore, hcy⟩ | ⟨hend, hphase, hlast, _, hcy⟩
  · exact ⟨hcy, fun _ => ⟨hphase, hcx, fun _ => hwin hphase⟩, by omega, by omega⟩
  · exact ⟨by omega, by omega, fun _ _ _ => ⟨hphase, hcx⟩, by omega⟩
  · exact ⟨by omega, by omega, by split at hlast <;> omega, fun _ _ => hphase⟩

/-- Settles O32, by where a horizontal cursor goes next: along the strip, to the next strip, or to the completion. -/
theorem horizontalTileStep : Obligations.HorizontalTileStep := by
  intro i s rest hinv hd hdir hp hin hm
  obtain ⟨t, hexec, hdone, hnext, hwin⟩ := hinv.exec_tile hd hp hin hm
  simp only [tileRows, tileCols, NextCursor, hdir] at hdone hnext
  rw [stripHeight_eq, tileWidth_eq] at hdone
  rw [stripHeight_eq, tileWidth_eq, narrow_eq_false] at hnext
  refine ⟨t, hexec, hdone, ?_⟩
  rcases hnext with ⟨hlt, hphase, hwide, hcx, hcy⟩ | ⟨hend, hphase, hcx, hcy, hmore⟩ | ⟨hend, hphase, hcx, _, hlast⟩
  · have htw : (if s.width ≤ 4 then s.width else 8) = 8 := if_neg (by omega)
    simp only [htw] at hlt ⊢
    exact ⟨hcx, fun _ => ⟨hphase, hcy, fun _ => hwin hphase⟩, by omega, by omega⟩
  · exact ⟨by omega, by omega, fun _ _ => ⟨hphase, hcy⟩, by omega⟩
  · exact ⟨by omega, by omega, by omega, fun _ _ => hphase⟩

end Sys2Proof.Machine
end

section
/-! SUPPORT. Sources whose sums are a whole number of shifted samples: what rounding and clamp make of them, for the
identity kernel and for an all-zero source (41_vertical.md R159, 42_horizontal.md R181). -/

namespace Sys2Proof.Machine

open Sys2Proof

/-! ### The rounding shifts of an exact multiple -/

/-- The half that is added before the shift never carries into an exact multiple (43_round_clamp.md R195). -/
theorem roundShift_pow_mul (x : Int) (s : Nat) : roundShift (2 ^ s * x) s = x := by
  by_cases hs : s = 0
  · simp [hs]
  · have hpos : (0 : Int) < 2 ^ s := by positivity
    have hhalf : (2 : Int) ^ (s - 1) < 2 ^ s := pow_lt_pow_right₀ (by decide) (by omega)
    rw [roundShift_pos _ hs, add_comm, Int.add_mul_ediv_left _ _ hpos.ne',
      Int.ediv_eq_zero_of_lt (by positivity) hhalf, zero_add]

theorem clamp_of_mem {v lo hi : Int} (hlo : lo ≤ v) (hhi : v ≤ hi) : clamp v lo hi = v := by
  rw [clamp, if_neg (by omega), if_neg (by omega)]

/-- The two shifts of a horizontal command are exact one after the other: what is left after `ROUND0` is still a multiple of
the second power. -/
theorem roundAndClamp_pow_mul {c : Command} {x : Int} (hround : c.dir = .horizontal → c.round0 ≤ c.fbits) (h0 : 0 ≤ x)
    (hmax : x ≤ maxSample c.bd) : roundAndClamp c (2 ^ c.fbits * x) = x := by
  unfold roundAndClamp
  cases hd : c.dir with
  | vertical =>
    simp only [roundShift_pow_mul]
    exact clamp_of_mem h0 hmax
  | horizontal =>
    have hsplit : (2 : Int) ^ c.fbits * x = 2 ^ c.round0 * (2 ^ (c.fbits - c.round0) * x) := by
      rw [← mul_assoc, pow_mul_pow_sub _ (hround hd)]
    simp only [hsplit, roundShift_pow_mul]
    exact clamp_of_mem h0 hmax

/-! ### The output of a launch from its exact sum -/

/-- The exact sum over the taps that output `(r, col)` is rounded from, of the memory at `START`. -/
def supportSum (c : Command) (s : State) (r col : Nat) : Int :=
  exactSum (kernel c s) ((supportCoords c r col).map fun p => launchSample c s p.1 p.2)

theorem commandValue_eq_roundAndClamp {c : Command} {s : State} (hl : LegalDescriptor c s) (hm : s.launchMem = s.mem)
    (r col : Nat) : commandValue c s r col = roundAndClamp c (supportSum c s r col) := by
  obtain ⟨⟨_, hbd⟩, _⟩ := firstError_eq_none.mp hl
  rw [← referenceSample_value hl hm]
  exact outputSample_toNat c _ hbd

/-- A launch each of whose sums is a sample value shifted left by `FBITS` leaves these values. -/
theorem Launch.outputsAre_of_supportSum {i : Instr} {s : State} (h : Launch i s) {value : Nat → Nat → Int}
    (hsum : ∀ r < s.height, ∀ col < s.width,
      supportSum (commandOf i) s r col = 2 ^ (commandOf i).fbits * value r col)
    (hval : ∀ r < s.height, ∀ col < s.width, 0 ≤ value r col ∧ value r col ≤ maxSample (commandOf i).bd) :
    ∃ t, exec i s = .next t ∧ Completed s t ∧ OutputsAre s t value := by
  obtain ⟨t, hexec, hdone, _, hout⟩ := h.outputs
  obtain ⟨_, hround, _⟩ := firstError_eq_none.mp h.legal
  refine ⟨t, hexec, hdone, fun r hr col hc => ?_⟩
  obtain ⟨h0, hmax⟩ := hval r hr col hc
  rw [hout r hr col hc, commandValue_eq_roundAndClamp h.legal h.started.launchMem, hsum r hr col hc,
    roundAndClamp_pow_mul hround h0 hmax]

/-! ### The identity kernel -/

/-- The co-sited sample of an output is a sample of the source footprint (40_dispatch.md R127, 20_memory.md R69). -/
theorem sampleAt_cosited (c : Command) {s : State} {r col : Nat} (hr : r < s.height) (hc : col < s.width) (m : Memory) :
    ∃ k < (sourcePlane c s).rows, ∃ j < (sourcePlane c s).cols,
      sampleAt m s.src s.spitch r col = ((Memory.readSample m (sourceAddr c s k j)).toNat : Int) := by
  have hoff := offsetOf_lt c
  obtain ⟨hrows, hcols⟩ := sourcePlane_shape c s (by omega) (by omega)
  cases hd : c.dir with
  | vertical =>
    simp only [hd] at hrows hcols
    exact ⟨r + offsetOf c, by omega, col, by omega, by rw [sourceAddr_centre_vertical hd, sampleAt]⟩
  | horizontal =>
    simp only [hd] at hrows hcols
    exact ⟨r, by omega, col + offsetOf c, by omega, by rw [sourceAddr_centre_horizontal hd, sampleAt]⟩

/-- Settles O24: the centred tap alone is left of each sum, and shifting its product back gives the co-sited sample. -/
theorem identityKernelCopies : Obligations.IdentityKernelCopies := by
  intro i s h htaps hmax
  refine h.outputsAre_of_supportSum (fun r _ col _ => ?_) fun r hr col hc => ?_
  · obtain ⟨_, _, hcentred⟩ := kernelIsCentred (commandOf i) s r col
    rw [supportSum, hcentred _ htaps, h.started.launchMem]
  · obtain ⟨k, hk, j, hj, hsample⟩ := sampleAt_cosited (commandOf i) hr hc s.mem
    rw [hsample]
    exact ⟨Int.natCast_nonneg _, hmax k hk j hj⟩

/-! ### The all-zero source -/

theorem exactSum_zero_samples (taps : List Coeff) {xs : List Sample} (h : ∀ x ∈ xs, x = 0) : exactSum taps xs = 0 := by
  refine List.sum_eq_zero fun y hy => ?_
  obtain ⟨⟨t, x⟩, hp, rfl⟩ := List.mem_map.mp hy
  simp [h x (List.of_mem_zip hp).2]

/-- Settles O25: whatever the taps, every product of every sum is 0, and 0 is exact in every shift. -/
theorem zeroSourceGivesZero : Obligations.ZeroSourceGivesZero := by
  intro i s h hzero
  refine h.outputsAre_of_supportSum (fun r hr col hc => ?_) fun _ _ _ _ => ⟨le_rfl, ?_⟩
  · rw [mul_zero, supportSum]
    refine exactSum_zero_samples _ fun x hx => ?_
    obtain ⟨p, hp, rfl⟩ := List.mem_map.mp hx
    obtain ⟨hrow, hcol⟩ := supportCoords_source hr hc hp
    rw [launchSample, h.started.launchMem]
    exact hzero p.1 hrow p.2 hcol
  · obtain ⟨h0, hmax⟩ := roundAndClamp_bounds (commandOf i) 0
    exact h0.trans hmax

end Sys2Proof.Machine
end

section
/-! SUPPORT. Two rounding shifts against one: the second shift sees the half that the first one added
(42_horizontal.md R179). -/

namespace Sys2Proof.Machine

open Sys2Proof

/-! ### One shift -/

theorem roundShift_mono {x y : Int} (h : x ≤ y) (s : Nat) : roundShift x s ≤ roundShift y s := by
  by_cases hs : s = 0
  · simpa [hs] using h
  · rw [roundShift_pos x hs, roundShift_pos y hs]
    exact Int.ediv_le_ediv (by positivity) (by omega)

theorem roundShift_add_pow (x : Int) (s : Nat) : roundShift (x + 2 ^ s) s = roundShift x s + 1 := by
  by_cases hs : s = 0
  · simp [hs]
  · have hpos : (0 : Int) < 2 ^ s := by positivity
    rw [roundShift_pos _ hs, roundShift_pos _ hs, add_right_comm, Int.add_ediv_of_dvd_right (dvd_refl _),
      Int.ediv_self hpos.ne']

/-! ### Two shifts -/

/-- Two shifts are one shift of the sum with the first half added: floors nest, so only the first half is left over. -/
theorem roundShift_roundShift (x : Int) {a b : Nat} (ha : a ≠ 0) (hb : b ≠ 0) :
    roundShift (roundShift x a) b = roundShift (x + 2 ^ (a - 1)) (a + b) := by
  have hpos : (0 : Int) < 2 ^ a := by positivity
  have hhalf : (2 : Int) ^ (a + b - 1) = 2 ^ (b - 1) * 2 ^ a := by
    rw [← pow_add]
    congr 1
    omega
  calc roundShift (roundShift x a) b
      = ((x + 2 ^ (a - 1)) / 2 ^ a + 2 ^ (b - 1)) / 2 ^ b := by rw [roundShift_pos _ hb, roundShift_pos x ha]
    _ = (x + 2 ^ (a - 1) + 2 ^ (b - 1) * 2 ^ a) / 2 ^ a / 2 ^ b := by rw [Int.add_mul_ediv_right _ _ hpos.ne']
    _ = (x + 2 ^ (a - 1) + 2 ^ (a + b - 1)) / 2 ^ (a + b) := by rw [Int.ediv_ediv_of_nonneg hpos.le, hhalf, pow_add]
    _ = roundShift (x + 2 ^ (a - 1)) (a + b) := by rw [roundShift_pos _ (by omega)]

/-- The half that the first shift added can only raise the result, and by no more than a whole step. -/
theorem roundShift_roundShift_bounds (x : Int) (a b : Nat) :
    roundShift x (a + b) ≤ roundShift (roundShift x a) b ∧
      roundShift (roundShift x a) b ≤ roundShift x (a + b) + 1 := by
  by_cases ha : a = 0
  · simp [ha]
  by_cases hb : b = 0
  · simp [hb]
  have hnonneg : (0 : Int) ≤ 2 ^ (a - 1) := by positivity
  have hstep : (2 : Int) ^ (a - 1) ≤ 2 ^ (a + b) := pow_le_pow_right₀ (by decide) (by omega)
  rw [roundShift_roundShift x ha hb, ← roundShift_add_pow]
  exact ⟨roundShift_mono (by omega) _, roundShift_mono (by omega) _⟩

/-- With `ROUND0` at either end one of the two shifts is by 0. -/
theorem roundShift_roundShift_sub {round0 fbits : Nat} (h : round0 = 0 ∨ round0 = fbits) (x : Int) :
    roundShift (roundShift x round0) (fbits - round0) = roundShift x fbits := by
  rcases h with rfl | rfl
  · rw [roundShift_zero_shift, Nat.sub_zero]
  · rw [Nat.sub_self, roundShift_zero_shift]

/-- Settles O39, by the half that the second shift sees. -/
theorem twoShiftsAreNotOne : Obligations.TwoShiftsAreNotOne := by
  refine ⟨by decide, by decide, fun x a b => ?_, fun n bd fbits round0 sum h => ?_⟩
  · obtain ⟨hle, hge⟩ := roundShift_roundShift_bounds x a b
    rw [abs_le]
    omega
  · simp only [roundAndClamp, roundShift_roundShift_sub h]

end Sys2Proof.Machine
end

section
/-! SUPPORT. Rounding and clamp by rule: the range of every output, the half that goes up, the accumulator that never
overflows (43_round_clamp.md R192 to R197). -/

namespace Sys2Proof.Machine

open Sys2Proof

/-! ### The range of an output -/

/-- An output is a clamped value, whatever it was rounded from (43_round_clamp.md R197). -/
theorem outputSample_toNat_bounds (c : Command) (sum : Int) (hbd : c.bd ≤ 16) :
    0 ≤ ((outputSample c sum).toNat : Int) ∧ ((outputSample c sum).toNat : Int) ≤ 2 ^ c.bd - 1 := by
  rw [outputSample_toNat c sum hbd]
  exact roundAndClamp_bounds c sum

/-- Every output of a completed command is some output sample, also where footprints overlap: the accesses left it so. -/
theorem LeftComplete.isOutput {c : Command} {s t : State} (h : LeftComplete c s t) (hl : LegalDescriptor c s)
    (hk : HostKeepsOff s) {r col : Nat} (hr : r < s.height) (hc : col < s.width) :
    ∃ x, Memory.readSample t.mem (destAddr s r col) = outputSample c x := by
  obtain ⟨o, hdest⟩ := h.ordered
  rw [hdest.readSample hr hc]
  exact orderedMemory_isOutput hl hk hr hc o

theorem JustStarted.hostKeepsOff {i : Instr} {s : State} (h : JustStarted i s) : HostKeepsOff s := by
  simp [HostKeepsOff, h.raced]

/-- Settles O23: an end with `DONE` is a completion, and what it leaves in an output was rounded and clamped. -/
theorem outputsInRange : Obligations.OutputsInRange := by
  intro i s t h ha ht hdone r hr col hc
  obtain ⟨u, hu, hend⟩ := h.ends ha (ordinary_of_exec_next h.phase ht)
  obtain rfl := Host.Outcome.next.inj (ht.symm.trans hu)
  rcases hend with ⟨hl, _, hleft⟩ | ⟨e, hstop⟩
  · obtain ⟨⟨_, hbd⟩, _⟩ := firstError_eq_none.mp hl
    obtain ⟨x, hx⟩ := hleft.isOutput hl h.hostKeepsOff hr hc
    rw [sampleAt_dest, hx]
    exact outputSample_toNat_bounds _ x hbd
  · exact absurd (hdone.symm.trans hstop.notDone) nofun

/-! ### The rounding shift -/

theorem roundShift_eq_fdiv (x : Int) {s : Nat} (hs : s ≠ 0) :
    roundShift x s = Int.fdiv (x + 2 ^ (s - 1)) (2 ^ s) := by
  rw [roundShift_pos x hs, Int.fdiv_eq_ediv_of_nonneg _ (by positivity)]

/-- What the shift drops lies between minus a half, included, and plus a half, excluded: the nearest integer, and an exact
half goes up (43_round_clamp.md R194). -/
theorem roundShift_remainder (x : Int) {s : Nat} (hs : s ≠ 0) :
    -(2 ^ (s - 1)) ≤ x - 2 ^ s * roundShift x s ∧ x - 2 ^ s * roundShift x s < 2 ^ (s - 1) := by
  have hpos : (0 : Int) < 2 ^ s := by positivity
  have hhalf : (2 : Int) ^ s = 2 ^ (s - 1) + 2 ^ (s - 1) := by rw [← mul_two, pow_sub_one_mul hs]
  have hle := Int.mul_ediv_self_le (x := x + 2 ^ (s - 1)) hpos.ne'
  have hlt := Int.lt_mul_ediv_self_add (x := x + 2 ^ (s - 1)) hpos
  rw [← roundShift_pos x hs] at hle hlt
  constructor <;> linarith

/-- Settles O35: the floor is that of the model's division by a positive power. -/
theorem roundShiftHalfUp : Obligations.RoundShiftHalfUp := by
  refine ⟨roundShift_zero_shift, fun x s hs => ?_, by decide⟩
  have hs : s ≠ 0 := Nat.one_le_iff_ne_zero.mp hs
  exact ⟨roundShift_eq_fdiv x hs, roundShift_remainder x hs⟩

theorem roundShift_zero (s : Nat) : roundShift 0 s = 0 := by
  simpa using roundShift_pow_mul 0 s

/-- Two shifts are one where the first is by 0, the second is by 0, or nothing is dropped (43_round_clamp.md R195). -/
theorem roundShift_roundShift_add {x : Int} {a b : Nat} (h : a = 0 ∨ b = 0 ∨ (2 ^ (a + b) : Int) ∣ x) :
    roundShift (roundShift x a) b = roundShift x (a + b) := by
  rcases h with rfl | rfl | ⟨m, rfl⟩
  · rw [roundShift_zero_shift, Nat.zero_add]
  · rw [roundShift_zero_shift, Nat.add_zero]
  · rw [roundShift_pow_mul, pow_add, mul_assoc, roundShift_pow_mul, roundShift_pow_mul]

/-- Settles O36: the sign follows from monotonicity at 0, and 60 shifted by 3 and by 4 is where two shifts are not one. -/
theorem roundShiftLaws : Obligations.RoundShiftLaws := by
  refine ⟨fun _ _ s h => roundShift_mono h s, fun x s => ⟨fun h => ?_, fun h => ?_⟩, fun m s => ?_, roundShift_zero,
    fun _ _ _ => roundShift_roundShift_add, 60, 3, 4, by decide⟩
  · exact (roundShift_zero s).symm.trans_le (roundShift_mono h s)
  · exact (roundShift_mono h.le s).trans_eq (roundShift_zero s)
  · rw [mul_comm, roundShift_pow_mul]

/-! ### The accumulator -/

/-- Each product adds at most `2^15 * (2^16 - 1)` (43_round_clamp.md R193). -/
theorem abs_exactSum_le (taps : List Coeff) (xs : List Sample) :
    |exactSum taps xs| ≤ (taps.length : Int) * 2147450880 := by
  induction taps generalizing xs with
  | nil => simp [exactSum]
  | cons t ts ih =>
    cases xs with
    | nil =>
      simp only [exactSum, List.zip_nil_right, List.map_nil, List.sum_nil, abs_zero]
      positivity
    | cons x xs =>
      have hsum := abs_le.mp (ih xs)
      have hprod := product_bounds t x
      rw [exactSum_cons, abs_le, List.length_cons]
      omega

/-- Settles O38: twelve products at most, and the largest rounding constant is `2^14`. -/
theorem accumulatorNeverOverflows : Obligations.AccumulatorNeverOverflows := by
  intro taps xs hlen
  have hsum : |exactSum taps xs| ≤ 25769410560 := by
    have := abs_exactSum_le taps xs
    omega
  refine ⟨macSum_toInt taps xs hlen, hsum, fun s hs => ?_⟩
  have hround : (2 : Int) ^ (s - 1) ≤ 2 ^ 14 := pow_le_pow_right₀ (by decide) (by omega)
  have hpos : (0 : Int) < 2 ^ (s - 1) := by positivity
  rw [abs_le] at hsum
  rw [abs_lt]
  omega

/-! ### The clamp -/

theorem maxSample_nonneg (bd : Nat) : 0 ≤ maxSample bd :=
  Int.sub_nonneg_of_le (one_le_pow₀ (by decide))

theorem clamp_of_lt {v lo : Int} (h : v < lo) (hi : Int) : clamp v lo hi = lo := if_pos h

theorem clamp_of_gt {v lo hi : Int} (hb : lo ≤ hi) (h : hi < v) : clamp v lo hi = hi := by
  rw [clamp, if_neg (by omega), if_pos h]

/-- Settles O37: `maxv` is never below 0, so the bounds never cross. -/
theorem clampSaturates : Obligations.ClampSaturates :=
  ⟨fun _ bd => ⟨fun h => clamp_of_lt h _, clamp_of_gt (maxSample_nonneg bd), clamp_of_mem⟩, by decide⟩

end Sys2Proof.Machine
end

section
/-! SUPPORT. The step in which `BUSY` falls, and the interrupt line (60_exceptions.md R220, R221). -/

namespace Sys2Proof.Machine

open Sys2Proof

/-! ### The step in which a command ends -/

/-- What the accesses of a step leave: the state they come to or, after a bus error, the error stop. -/
theorem afterAccesses_cases {c : Command} {s t : State} {r : Except Stop State} (h : afterAccesses c s r = .next t) :
    r = .ok t ∨ t = raiseErr .bus { s with mem := stoppedMemory c s } := by
  unfold afterAccesses at h
  split at h
  · exact Or.inl (congrArg _ (Host.Outcome.next.inj h))
  · exact Or.inr (Host.Outcome.next.inj h).symm
  · cases h

/-- Whichever engine step ends a command, in whatever state, it sets a flag. -/
theorem engineStep_setsFlag {c : Command} {s t : State} (hp : s.phase ≠ .idle) (h : engineStep c s = .next t)
    (hidle : t.phase = .idle) : (t.done || t.err) = true := by
  cases hphase : s.phase with
  | idle => exact absurd hphase hp
  | dispatch =>
    rw [engineStep_of_dispatch hphase (ordinary_of_next hphase h)] at h
    obtain rfl := Host.Outcome.next.inj h
    rcases dispatchStep_cases c s with ⟨e, _, hs⟩ | ⟨_, _, hs⟩ | ⟨_, _, _, hs⟩ <;> rw [hs] at hidle ⊢
    · simp
    · simp
    · cases hidle
  | prime =>
    rw [engineStep_of_prime hphase] at h
    rcases afterAccesses_cases h with hok | rfl
    · exact absurd ((primeStep_phase hok).symm.trans hidle) nofun
    · simp
  | tile =>
    rw [engineStep_of_tile hphase] at h
    rcases afterAccesses_cases h with hok | rfl
    · rcases tileStep_phase hok with hsame | hnext | hnext
      · exact absurd (hsame.symm.trans hidle) hp
      · exact absurd (hnext.symm.trans hidle) nofun
      · exact absurd (hnext.symm.trans hidle) nofun
    · simp
  | complete =>
    rw [engineStep_of_complete hphase] at h
    obtain rfl := Host.Outcome.next.inj h
    simp

/-- A run of engine steps sets a flag in its last one. -/
theorem runEngine_setsFlag {c : Command} {n : Nat} {s t : State} (hp : s.phase ≠ .idle)
    (h : runEngine c n s = .next t) (hidle : t.phase = .idle) : (t.done || t.err) = true := by
  induction n generalizing s with
  | zero =>
    obtain rfl := Host.Outcome.next.inj h
    exact absurd hidle hp
  | succ n ih =>
    rw [runEngine, if_neg hp] at h
    split at h
    next u hu =>
      by_cases hu_idle : u.phase = .idle
      · rw [runEngine_of_idle hu_idle] at h
        obtain rfl := Host.Outcome.next.inj h
        exact engineStep_setsFlag hp hu hidle
      · exact ih hu_idle h
    · cases h
    · cases h

theorem exec_setsFlag {i : Instr} {s t : State} (hp : s.phase ≠ .idle) (h : exec i s = .next t)
    (hidle : t.phase = .idle) : (t.done || t.err) = true := by
  rcases exec_cases i s with ⟨rest, _, he⟩ | ⟨_, he⟩
  · exact engineStep_setsFlag (s := { s with inbox := rest }) hp (he.symm.trans h) hidle
  · exact runEngine_setsFlag hp (he.symm.trans h) hidle

/-- What a busy engine whose turn it is can do, said once. -/
theorem busyStep_cases {s t : State} (hb : s.busy = true) (hnext : EngineIsNext s) (ht : step s = .next t) :
    (∃ i, exec i s = .next t) ∨ t = raiseErr .opcode (dropEngineEvent s) := by
  have hp := ne_idle_of_busy hb
  cases stepIs s with
  | host op rest waiting _ => exact absurd waiting (hnext op rest)
  | waitEnds _ idle _ _ | idles idle _ => exact absurd idle hp
  | runs i _ _ eq => exact Or.inl ⟨i, eq.symm.trans ht⟩
  | reserved _ eq => exact Or.inr (Host.Outcome.next.inj (ht.symm.trans eq))

theorem busyStep_setsFlag {s t : State} (hb : s.busy = true) (hnext : EngineIsNext s) (ht : step s = .next t)
    (hidle : t.phase = .idle) : (t.done || t.err) = true := by
  rcases busyStep_cases hb hnext ht with ⟨i, hexec⟩ | rfl
  · exact exec_setsFlag (ne_idle_of_busy hb) hexec hidle
  · simp

theorem idle_of_not_busy {s : State} (h : s.busy = false) : s.phase = .idle := by
  simpa [State.busy] using h

/-- Settles O16: the step sets a flag, and the invariant, which it keeps, lets no other one stand beside it and ties
`ECODE` to `ERR`. -/
theorem lastStepSetsOneFlag : Obligations.LastStepSetsOneFlag := by
  intro s t hinv hb hnext ht hidle
  have hflag := busyStep_setsFlag hb hnext ht (idle_of_not_busy hidle)
  have hend : Inv t := everyStepKeepsInvariant s t hinv ht
  obtain ⟨hcode, _⟩ := hend.code
  cases herr : t.err with
  | false =>
    rw [herr, Bool.or_false] at hflag
    exact Or.inl ⟨hflag, rfl, not_not.mp fun hne => absurd (herr.symm.trans (hcode.mpr hne)) nofun⟩
  | true =>
    exact Or.inr ⟨Bool.eq_false_iff.mpr fun hdone => hend.oneFlag ⟨hdone, herr⟩, rfl, hcode.mp herr⟩

/-! ### The interrupt line -/

theorem irq_of_flag {t : State} (h : (t.done || t.err) = true) : t.irq = t.ie := by
  rw [State.irq, h, Bool.and_true]

theorem irq_of_noFlag {t : State} (hdone : t.done = false) (herr : t.err = false) : t.irq = false := by
  rw [State.irq, hdone, herr, Bool.or_false, Bool.and_false]

/-- No turn of the engine writes a register of the host's (20_memory.md R82). -/
theorem engineFrame_busyStep {s t : State} (hb : s.busy = true) (hnext : EngineIsNext s) (ht : step s = .next t) :
    EngineFrame s t := by
  rcases busyStep_cases hb hnext ht with ⟨i, hexec⟩ | rfl
  · exact engineFrame_exec hexec
  · rw [dropEngineEvent_eq]
    exact (engineFrame_inbox s _).trans (stepFrame_raiseErr .opcode _).frame

/-- Settles O51, by what the event does to the two flags: both 0, or one of them set and `IE` kept. -/
theorem interruptFollowsStatus : Obligations.InterruptFollowsStatus := by
  intro s
  refine ⟨rfl, fun hie => ?masked, fun hinv hb => ?busy, fun rest hin hr => ?cleared,
    fun v rest hin hr hv hp => ?started, fun t _ hb hnext ht hidle => ?ended, fun code hp hnext hcode => ?failed,
    fun i h => ?launched⟩
  case masked => rw [State.irq, hie, Bool.false_and]
  case busy =>
    obtain ⟨hdone, herr⟩ := hinv.busyFlags hb
    exact irq_of_noFlag hdone herr
  case cleared => exact ⟨_, statusWriteOneToClear s 6 rest hin hr, irq_of_noFlag rfl rfl⟩
  case started =>
    obtain ⟨haccept, _, _⟩ := startFollowsItsRule.1 s v rest hin hr
    exact ⟨_, haccept hv hp, rfl, irq_of_noFlag rfl rfl⟩
  case ended =>
    rw [irq_of_flag (busyStep_setsFlag hb hnext ht (idle_of_not_busy hidle))]
    exact (engineFrame_busyStep hb hnext ht).ie
  case failed =>
    obtain ⟨t, ht, hstop, _⟩ := legalityChecksInOrder s code hp hnext hcode
    obtain ⟨herr, hecode⟩ := hstop.error
    refine ⟨t, ht, herr, hecode, (irq_of_flag ?_).trans hstop.frame.ie⟩
    rw [herr, Bool.or_true]
  case launched =>
    obtain ⟨t, hexec, hdone, _⟩ := h.outputs
    refine ⟨t, hexec, hdone.done, (irq_of_flag ?_).trans hdone.frame.ie⟩
    rw [hdone.done, Bool.true_or]

end Sys2Proof.Machine
end

section
/-! SUPPORT. Bus errors: which command and which engine step stops on one, and what it leaves in memory
(60_exceptions.md R214, R216, R217). -/

namespace Sys2Proof.Machine

open Sys2Proof

/-! ### A whole run -/

/-- The ends of a started command that is not refused, with what each leaves. -/
inductive EndsAs (c : Command) (s t : State) : Prop where
  | failsCheck (e : ErrCause) (fails : firstError c s = some e) (stopped : StoppedWith (errCode e) s t)
  | completes (completed : Completed s t)
  | busError (legal : LegalDescriptor c s) (stopped : StoppedWith 7 s t) (left : LeftMixed c s t)

theorem JustStarted.endsAs {i : Instr} {s t : State} (h : JustStarted i s) (ha : RunsToEnd s)
    (ht : exec i s = .next t) : EndsAs (commandOf i) s t := by
  rcases exec_started h ha (ordinary_of_exec_next h.phase ht) with
    ⟨e, he, hexec⟩ | ⟨_, hz, hexec⟩ | ⟨hl, _, _, u, v, hexec, hu, hframe, hout, hstep, hend, _⟩ <;>
    obtain rfl := Host.Outcome.next.inj (ht.symm.trans hexec)
  · exact .failsCheck e he (stoppedWith_raiseErr e s s.inbox)
  · exact .completes (completed_of_empty h hz).1
  · cases hend with
    | completed idle done flags win acc mem was =>
      exact .completes (completed_of_ended hu hframe hout hstep idle done flags win acc mem was).1
    | stopped busErr _ =>
      obtain ⟨hstop, _, hleft⟩ := stopped_of_ended hu hframe hout hstep busErr
      exact .busError hl hstop hleft

/-- No check of the dispatch step gives `ERR_BUS` (60_exceptions.md R213). -/
theorem firstError_ne_bus (c : Command) (s : State) : firstError c s ≠ some .bus := by
  unfold firstError
  repeat' split
  all_goals exact nofun

theorem errCode_eq_bus {e : ErrCause} (h : errCode e = 7) : e = .bus := by
  cases e with
  | bus => rfl
  | opcode | bd | shift | width | pitch | align => exact absurd h (by decide)

/-- A started legal command with outputs that ends without `ERR` has found every address of its footprints to answer. -/
theorem JustStarted.mapped_of_noError {i : Instr} {s t : State} (h : JustStarted i s) (ha : RunsToEnd s)
    (hl : LegalDescriptor (commandOf i) s) (hw : 0 < s.width) (hh : 0 < s.height) (ht : exec i s = .next t)
    (herr : t.err = false) : FootprintsMapped (commandOf i) s := by
  have ho := ordinary_of_exec_next h.phase ht hl
  obtain ⟨n, hn⟩ := Nat.exists_eq_add_one.mpr (stepBound_pos s)
  have hleft := stepsLeft_of_start (c := commandOf i) h.cx h.cy
  have hrun : runEngine (commandOf i) n { s with phase := .prime } = .next t := by
    rw [exec_eq_runCommand, runCommand_of_alone ha, hn, runEngine, if_neg (by rw [h.phase]; decide),
      engineStep_of_dispatch h.phase fun _ => ho, dispatchStep_of_outputs hl hw hh] at ht
    exact ht
  have hstart := running_of_dispatch hl ho hw hh h.cx h.cy (sourceUntouched_of_eq h.launchMem) h.acc h.noError
  rcases runEngine_mapped hstart (by omega) hrun with hset | hmapped
  · exact absurd (hset.symm.trans herr) nofun
  · have hpending := pending_of_start (c := commandOf i) hw hh h.cx h.cy
    exact ⟨fun k hk j hj => (hmapped (k, j)).1 ((hpending (k, j)).1.mpr ⟨hk, hj⟩),
      fun r hr col hc => (hmapped (r, col)).2 ((hpending (r, col)).2.mpr ⟨hr, hc⟩)⟩

/-! ### One engine step -/

/-- A step of a command in `RUN` that leaves `ERR_BUS` is the error stop of a bus error. -/
theorem Running.busError_of_ecode {c : Command} {s t : State} (h : Running c s) (ht : engineStep c s = .next t)
    (hcode : t.ecode = 7) : t = raiseErr .bus { s with mem := stoppedMemory c s } := by
  obtain ⟨u, hu, _, hcase⟩ := engineStep_running h
  obtain rfl := Host.Outcome.next.inj (ht.symm.trans hu)
  rcases hcase with ⟨hrun, _⟩ | hend
  · exact absurd (hcode.symm.trans hrun.flags.2) (by decide)
  · cases hend with
    | completed _ _ flags => exact absurd (hcode.symm.trans (flags.2.trans h.flags.2)) (by decide)
    | stopped busErr => exact busErr

/-- A step of a command in `RUN` that accesses an address that does not answer is the error stop of a bus error
(60_exceptions.md R216). -/
theorem Running.busError_of_unmapped {c : Command} {s : State} (h : Running c s)
    (hun : (∃ p ∈ stepReads c s, s.mapped (sourceAddr c s p.1 p.2) = false) ∨
      ∃ p ∈ stepWrites c s, s.mapped (destAddr s p.1 p.2) = false) :
    engineStep c s = .next (raiseErr .bus { s with mem := stoppedMemory c s }) := by
  rcases running_phase h with haccess | hcomplete
  · rcases engineStep_accesses h haccess with ⟨t, _, hacc⟩ | hstop
    · rcases hun with ⟨p, hp, hno⟩ | ⟨p, hp, hno⟩
      · exact absurd (hno.symm.trans (hacc.readMapped p hp)) nofun
      · exact absurd (hno.symm.trans (hacc.writeMapped p hp)) nofun
    · exact hstop
  · simp [stepReads, stepWrites, hcomplete] at hun

theorem StoppedWith.of_inbox {s t : State} {es : List Event} {code : BitVec 4}
    (h : StoppedWith code { s with inbox := es } t) : StoppedWith code s t :=
  ⟨h.idle, h.notDone, h.error, h.win, (engineFrame_inbox s es).trans h.frame, h.outside⟩

theorem LeftMixed.of_inbox {c : Command} {s t : State} {es : List Event} (h : LeftMixed c { s with inbox := es } t) :
    LeftMixed c s t :=
  h.congr (engineFrame_inbox s es).operands rfl (OutsideDestSame.of_mem rfl)

/-- What a step that stops on a bus error owes. -/
theorem Running.busError_owes {c : Command} {s t : State} (h : Running c s) (ht : engineStep c s = .next t)
    (hbus : t = raiseErr .bus { s with mem := stoppedMemory c s }) :
    StoppedWith 7 s t ∧ t.inbox = s.inbox ∧ LeftMixed c s t :=
  stopped_of_ended h (StepFrame.refl s) (OutsideDestSame.refl s) ht hbus

/-- An `engine` event that is used up leaves the pass of the command in `CMD` as it is. -/
theorem Inv.running_inbox {s : State} {i : Instr} (h : Inv s) (hd : s.decoded = .ok i) (hr : s.running = true)
    (es : List Event) : Running (commandOf i) { s with inbox := es } := by
  obtain ⟨j, hj, hrun⟩ := (h.inbox es).running hr
  obtain rfl : i = j := Except.ok.inj (hd.symm.trans hj)
  exact hrun

theorem exec_of_engine {i : Instr} {s : State} {rest : List Event} (h : s.inbox = .engine :: rest) :
    exec i s = engineStep (commandOf i) { s with inbox := rest } := by
  rw [exec_eq_runCommand, runCommand_of_engine h]

/-- Settles O21: a run that met no error has found every address to answer, and so has a step. -/
theorem unmappedAddressStops : Obligations.UnmappedAddressStops := by
  refine ⟨fun i s h ha hl ho hw hh hun => ?run, fun i s rest hinv hd hr hin hun => ?step⟩
  case run =>
    obtain ⟨t, ht, _⟩ := h.ends ha fun _ => ho
    refine ⟨t, ht, ?_⟩
    cases h.endsAs ha ht with
    | failsCheck e fails => exact absurd (hl.symm.trans fails) nofun
    | completes completed => exact absurd (h.mapped_of_noError ha hl hw hh ht completed.noError.1) hun
    | busError _ stopped => exact stopped
  case step =>
    have hrun := hinv.running_inbox hd hr rest
    rw [← stepReads_inbox _ s rest, ← stepWrites_inbox _ s rest] at hun
    have hstep := hrun.busError_of_unmapped hun
    obtain ⟨hstop, hinbox, _⟩ := hrun.busError_owes hstep rfl
    exact ⟨_, (exec_of_engine hin).trans hstep, hstop.of_inbox, hinbox⟩

/-! ### What a bus error leaves -/

/-- Where the footprints share no address a step that keeps to the destination leaves the source (20_memory.md R72). -/
theorem OutsideDestSame.source {c : Command} {s t : State} (h : OutsideDestSame s t) (hl : LegalDescriptor c s)
    (ha : NoAlias c s) : ∀ k < (sourcePlane c s).rows, ∀ j < (sourcePlane c s).cols,
      Memory.readSample t.mem (sourceAddr c s k j) = Memory.readSample s.mem (sourceAddr c s k j) := by
  intro k hk j hj
  have hfree := ha k hk j hj
  exact Memory.readSample_congr (h _ hfree)
    (h _ (((destPlane s).holds_next (destPlane_even hl) (sourceAddr_even hl k j)).trans hfree))

/-- Settles O22: a run and a step that leave `ERR_BUS` are stopped alike, and leave what a command cut short leaves. -/
theorem busErrorLeavesMixture : Obligations.BusErrorLeavesMixture := by
  refine ⟨fun i s t h ha ht hcode => ?run, fun i s t rest hinv hd hr hin ht hcode => ?step⟩
  case run =>
    cases h.endsAs ha ht with
    | failsCheck e fails stopped =>
      rw [errCode_eq_bus (stopped.error.2.symm.trans hcode)] at fails
      exact absurd fails (firstError_ne_bus _ s)
    | completes completed => exact absurd (hcode.symm.trans completed.noError.2) (by decide)
    | busError legal _ left =>
      refine ⟨left.outside, left.outside.source legal, fun r hr col hc hu => ?_, left.ordered⟩
      simp only [sampleAt_dest]
      rcases left.mixture r hr col hc hu with hold | ⟨hmapped, hfinal⟩
      · rw [hold, h.launchMem]
        exact Or.inl rfl
      · rw [hfinal, referenceSample_value legal h.launchMem]
        exact Or.inr ⟨hmapped, rfl⟩
  case step =>
    have hrun := hinv.running_inbox hd hr rest
    rw [exec_of_engine hin] at ht
    obtain ⟨_, _, hleft⟩ := hrun.busError_owes ht (hrun.busError_of_ecode ht hcode)
    have hleft := hleft.of_inbox
    exact ⟨hleft.outside, hleft.outside.source (hinv.passInv hr hd).legal, hleft.mixture, hleft.ordered⟩

end Sys2Proof.Machine
end
